-- ==== Sys2Proof/Word.lean ====
section
/-! DEFINITION. The words of the block (R7, R13): registers, sizes and addresses are 32 bits wide and unsigned,
frame memory is made of bytes, a channel number has 6 bits. -/

namespace Sys2Proof

/-- A 32-bit register, size, offset or frame-memory address (R7). -/
abbrev Word := BitVec 32

/-- A byte of frame memory (R70). -/
abbrev Byte := BitVec 8

/-- A channel number as every format carries it: 6 bits (R7, R91, R100, R102). -/
abbrev Chan := BitVec 6

end Sys2Proof
end

