-- ==== Sys2Proof/Config.lean ====
section
/-! DEFINITION. What an implementation fixes (R7), the requests and answers exchanged with the collaborators
(R12, R104), and the free collaborator oracle. -/

namespace Sys2Proof

/-- The parameters of R7 that a run fixes. They are stored as the highest channel number and the highest
frame-memory address, so that every value is in the legal range (NCH in 1..64, MEM_BYTES in 1..2^32).
DESIGN CHOICE (log 1), safe. -/
structure Params where
  /-- `NCH - 1`. -/
  lastChan : Chan
  /-- `MEM_BYTES - 1`. -/
  lastAddr : Word
  /-- `ID_VALUE`, the value of the `ID` register (R24). -/
  idValue : Word
deriving DecidableEq, Repr

/-- `NCH`, the number of channel slots, 1 to 64 (R7). -/
def Params.nch (p : Params) : Nat := p.lastChan.toNat + 1

/-- `MEM_BYTES`, the size of frame memory, 1 to 2^32 (R7). -/
def Params.memBytes (p : Params) : Nat := p.lastAddr.toNat + 1

/-- The defaults of R7: 64 channels, 2^32 bytes, `ID` reads "IPRF". -/
def Params.default : Params := { lastChan := 63#6, lastAddr := 0xFFFFFFFF#32, idValue := 0x49505246#32 }

/-- `BMAX`, the largest number of slots of a ring: fixed 16 (R7). -/
def Config.bmax : Nat := 16

/-- The interface version `CFG[31:24]` (R24). -/
def Config.version : Nat := 1

/-- A request the block sends to a collaborator (R12, R104). -/
inductive Request where
  /-- `XP_REG(ch)`: register the packet callback of a channel. -/
  | xpReg (ch : Chan)
  /-- `XP_DEREG(ch)`: deregister it. -/
  | xpDereg (ch : Chan)
  /-- `XP_START(ch)`: start isochronous reception on a channel. -/
  | xpStart (ch : Chan)
  /-- `XP_STOP(ch)`: stop it. -/
  | xpStop (ch : Chan)
  /-- `DMA_LISTEN(ch, B, size)`: listen with `b` slots of `size` requested bytes. -/
  | dmaListen (ch : Chan) (b size : Word)
  /-- `DMA_UNLISTEN(ch)`. -/
  | dmaUnlisten (ch : Chan)
deriving DecidableEq, Repr

/-- The answer `(ok, size)` of a collaborator; `size` has a meaning only for `DMA_LISTEN` (R12, R104). -/
structure Answer where
  ok : Bool
  size : Word
deriving DecidableEq, Repr, Inhabited

/-- The collaborator oracle `ext` of R7 and R12: a free value. It answers the last request of a history of
requests (oldest first). No body: a claim holds for every oracle. DESIGN CHOICE (log 3), safe. -/
opaque Config.ext : List Request → Answer

end Sys2Proof
end

