-- ==== Sys2Proof/Syntax.lean ====
section
/-! DEFINITION. The instructions of spec/opcode_table.json (one constructor a row), the inputs of R90 that carry
them, and the events of R9 and R70. -/

namespace Sys2Proof

/-- The 22 instructions: 17 commands (R92), two kinds of packet (R101), the fill (R102) and the two host register
accesses (R103). The `ARG` operands of a command are registers of the state (R93), not part of its word. -/
inductive Instr where
  | nop
  | swBind (ch : Chan)
  | unbind (ch : Chan)
  | register (ch : Chan)
  | deregister (ch : Chan)
  | start (ch : Chan)
  | stop (ch : Chan)
  | rearm (ch : Chan)
  | awaitSet
  | grpStart
  | grpStop
  | dmaSetup (ch : Chan)
  | dmaAcquire (ch : Chan)
  | dmaRelease (ch : Chan)
  | dmaCancel (ch : Chan)
  | dmaTeardown (ch : Chan)
  | softReset
  /-- A packet whose header word has bit 0 set: channel, header word, payload length, payload (R100). -/
  | pktStart (ch : Chan) (hdr len : Word) (p : List Byte)
  /-- A packet whose header word has bit 0 clear. -/
  | pktCont (ch : Chan) (hdr len : Word) (p : List Byte)
  /-- A fill: channel and frame bytes (R102). -/
  | fill (ch : Chan) (f : List Byte)
  /-- A host register write (R231). -/
  | regWr (addr : BitVec 16) (wdata : Word)
  /-- A host register read (R230). -/
  | regRd (addr : BitVec 16)
deriving DecidableEq, Repr

/-- The four input formats of R90. -/
inductive Input where
  /-- Format C: the word written to `CMD` (R91); the notation's `cmd` line (R110). -/
  | command (w : Word)
  /-- Format P (R100). -/
  | packet (ch : Chan) (hdr len : Word) (p : List Byte)
  /-- Format F (R102). -/
  | fill (ch : Chan) (f : List Byte)
  /-- Format H (R103); a read has no `wdata`, and the value given for one is ignored. -/
  | access (we : Bool) (addr : BitVec 16) (wdata : Word)
deriving DecidableEq, Repr

/-- An event (R9): an input of the block, or the host's own access to frame memory (R70). -/
inductive Event where
  | input (x : Input)
  /-- `HostMemRead(addr, n)`. -/
  | hostMemRead (addr n : Nat)
  /-- `HostMemWrite(addr, n, v)` with `n` the length of `v`. -/
  | hostMemWrite (addr : Nat) (v : List Byte)
deriving DecidableEq, Repr

end Sys2Proof
end

