-- ==== Sys2Proof/WellFormed.lean ====
section
/-! DEFINITION. Which instruction terms stand for an event of the spec (R100, R101, R102). -/

namespace Sys2Proof

/-- Why a term stands for no event. -/
inductive Malformed where
  /-- A `PKT.START` whose header word has bit 0 clear (R101). -/
  | startMarkerClear
  /-- A `PKT.CONT` whose header word has bit 0 set (R101). -/
  | contMarkerSet
  /-- A packet whose payload is not exactly `len` bytes (R100). -/
  | payloadLength
  /-- A fill whose frame is longer than any 32-bit frame size (R102, R37). -/
  | frameLength
deriving DecidableEq, Repr

/-- The first check a term fails. -/
def Instr.malformed? : Instr → Option Malformed
  | .pktStart _ hdr len p =>
      if hdr.getLsbD 0 = false then some .startMarkerClear
      else if p.length ≠ len.toNat then some .payloadLength else none
  | .pktCont _ hdr len p =>
      if hdr.getLsbD 0 = true then some .contMarkerSet
      else if p.length ≠ len.toNat then some .payloadLength else none
  | .fill _ f => if 2 ^ 32 ≤ f.length then some .frameLength else none
  | .nop | .swBind _ | .unbind _ | .register _ | .deregister _ | .start _ | .stop _ | .rearm _
  | .awaitSet | .grpStart | .grpStop | .dmaSetup _ | .dmaAcquire _ | .dmaRelease _ | .dmaCancel _
  | .dmaTeardown _ | .softReset | .regWr _ _ | .regRd _ => none

/-- The term stands for an event of the spec. -/
abbrev Instr.WellFormed (i : Instr) : Prop := i.malformed? = none

end Sys2Proof
end

