-- ==== Sys2Proof/Decode.lean ====
section
/-! DEFINITION. The decoder of the four input formats (R90 to R103), total and refusing by name; the encoder,
written from the same tables; and the encoding of a collaborator request (R104). -/

namespace Sys2Proof

/-- Why an input is no instruction. The first three are `E_BADOP` of R91; the last two are inputs that are not in
format P or F at all. -/
inductive DecodeError where
  /-- `op` is not in the opcode map of R92. -/
  | badOpcode
  /-- `rsv = w[23:6]` is not 0. -/
  | reservedBits
  /-- `w[5:0]` is not 0 in a command that takes no channel. -/
  | channelBits
  /-- A packet whose payload is not exactly `len` bytes (R100). -/
  | payloadLength
  /-- A fill whose frame is longer than any 32-bit frame size (R102). -/
  | frameLength
deriving DecidableEq, Repr

/-- A row of the opcode map: a command with or without a channel operand. -/
inductive CommandRow where
  | plain (i : Instr)
  | channel (make : Chan → Instr)

/-- The opcode map of R92. -/
def commandRow (op : BitVec 8) : Option CommandRow :=
  match op.toNat with
  | 0x00 => some (.plain .nop)
  | 0x01 => some (.channel .swBind)
  | 0x02 => some (.channel .unbind)
  | 0x03 => some (.channel .register)
  | 0x04 => some (.channel .deregister)
  | 0x05 => some (.channel .start)
  | 0x06 => some (.channel .stop)
  | 0x07 => some (.channel .rearm)
  | 0x08 => some (.plain .awaitSet)
  | 0x09 => some (.plain .grpStart)
  | 0x0A => some (.plain .grpStop)
  | 0x10 => some (.channel .dmaSetup)
  | 0x11 => some (.channel .dmaAcquire)
  | 0x12 => some (.channel .dmaRelease)
  | 0x13 => some (.channel .dmaCancel)
  | 0x14 => some (.channel .dmaTeardown)
  | 0x7F => some (.plain .softReset)
  | _ => none

/-- `w[31:24]` (R91). -/
def opField (w : Word) : BitVec 8 := w.extractLsb' 24 8

/-- `w[23:6]` (R91). -/
def rsvField (w : Word) : BitVec 18 := w.extractLsb' 6 18

/-- `w[5:0]` (R91). -/
def chField (w : Word) : Chan := w.extractLsb' 0 6

/-- Step (1) of R91: the opcode and the bits that must be 0. The channel number is compared with `NCH` by the
command itself (step (2), `onChannel`), since `NCH` is a parameter. -/
def decodeCommand (w : Word) : Except DecodeError Instr :=
  match commandRow (opField w) with
  | none => .error .badOpcode
  | some row =>
    if rsvField w ≠ 0#18 then .error .reservedBits
    else match row with
      | .plain i => if chField w ≠ 0#6 then .error .channelBits else .ok i
      | .channel make => .ok (make (chField w))

/-- Format P (R100, R101): bit 0 of the header word alone tells the two packet instructions apart. -/
def decodePacket (ch : Chan) (hdr len : Word) (p : List Byte) : Except DecodeError Instr :=
  if p.length ≠ len.toNat then .error .payloadLength
  else if hdr.getLsbD 0 then .ok (.pktStart ch hdr len p)
  else .ok (.pktCont ch hdr len p)

/-- Format F (R102). -/
def decodeFill (ch : Chan) (f : List Byte) : Except DecodeError Instr :=
  if 2 ^ 32 ≤ f.length then .error .frameLength else .ok (.fill ch f)

/-- Format H (R103): `we` tells the two accesses apart. -/
def decodeAccess (we : Bool) (addr : BitVec 16) (wdata : Word) : Instr :=
  if we then .regWr addr wdata else .regRd addr

/-- The decoder of all four formats (R90). -/
def decodeInput : Input → Except DecodeError Instr
  | .command w => decodeCommand w
  | .packet ch hdr len p => decodePacket ch hdr len p
  | .fill ch f => decodeFill ch f
  | .access we addr wdata => .ok (decodeAccess we addr wdata)

/-- The command word of an opcode and a channel (R91). -/
def commandWord (op : BitVec 8) (ch : Chan) : Word := op ++ 0#18 ++ ch

/-- The input that carries an instruction. -/
def encode : Instr → Input
  | .nop => .command (commandWord 0x00 0)
  | .swBind c => .command (commandWord 0x01 c)
  | .unbind c => .command (commandWord 0x02 c)
  | .register c => .command (commandWord 0x03 c)
  | .deregister c => .command (commandWord 0x04 c)
  | .start c => .command (commandWord 0x05 c)
  | .stop c => .command (commandWord 0x06 c)
  | .rearm c => .command (commandWord 0x07 c)
  | .awaitSet => .command (commandWord 0x08 0)
  | .grpStart => .command (commandWord 0x09 0)
  | .grpStop => .command (commandWord 0x0A 0)
  | .dmaSetup c => .command (commandWord 0x10 c)
  | .dmaAcquire c => .command (commandWord 0x11 c)
  | .dmaRelease c => .command (commandWord 0x12 c)
  | .dmaCancel c => .command (commandWord 0x13 c)
  | .dmaTeardown c => .command (commandWord 0x14 c)
  | .softReset => .command (commandWord 0x7F 0)
  | .pktStart c hdr len p => .packet c hdr len p
  | .pktCont c hdr len p => .packet c hdr len p
  | .fill c f => .fill c f
  | .regWr addr wdata => .access true addr wdata
  | .regRd addr => .access false addr 0

/-- The wires of a request (format X, R90 and R104). -/
structure RequestWires where
  op : BitVec 3
  ch : Chan
  a : Word
  b : Word
deriving DecidableEq, Repr

/-- The request codes and operands of R104. -/
def encodeRequest : Request → RequestWires
  | .xpReg c => { op := 1, ch := c, a := 0, b := 0 }
  | .xpDereg c => { op := 2, ch := c, a := 0, b := 0 }
  | .xpStart c => { op := 3, ch := c, a := 0, b := 0 }
  | .xpStop c => { op := 4, ch := c, a := 0, b := 0 }
  | .dmaListen c b size => { op := 5, ch := c, a := b, b := size }
  | .dmaUnlisten c => { op := 6, ch := c, a := 0, b := 0 }

/-- How a number that stands for the bits of a table row becomes an input: a row of more than 8 bits is a command
word (format C); a narrower one is a host access (format H) with `we` in bit 0, `addr` in bits 16..1 and `wdata`
in bits 48..17. DESIGN CHOICE (log 12): the spec's formats come over separate ports and the table gives a packet's
row and a register access's row the same bits, so no reading of the number alone can tell them apart. -/
def tableInput (nbits w : Nat) : Input :=
  if 8 < nbits then .command (BitVec.ofNat 32 w)
  else .access (w % 2 == 1) (BitVec.ofNat 16 (w / 2)) (BitVec.ofNat 32 (w / 2 ^ 17))

/-- The instruction the decoder reads from the bits of a table row (the host's question). -/
def decodeTableWord (nbits w : Nat) : Option Instr :=
  match decodeInput (tableInput nbits w) with
  | .ok i => some i
  | .error _ => none

end Sys2Proof
end

