-- ==== Sys2Proof/Machine/State.lean ====
section
/-! DEFINITION. The state of the block (R20 to R47), its value after reset (R50), and the reasons a step can stop.
Plain data throughout. -/

namespace Sys2Proof.Machine

/-- `progress` (R32): where a channel stands in its frame. -/
inductive Progress where
  | idle
  | inProgress
  | complete
deriving DecidableEq, Repr

/-- `mode` (R33). -/
inductive Mode where
  | software
  | dma
deriving DecidableEq, Repr

/-- The state of a ring slot (R43). -/
inductive RingState where
  | absent
  | queuedEmpty
  | filledPending
  | handedToCaller
deriving DecidableEq, Repr

/-- The fourteen result codes (R241). -/
inductive ResultCode where
  | ok
  | pending
  | eBadOp
  | eBadCh
  | eArg
  | eRange
  | eBusy
  | eState
  | eXport
  | eDma
  | eHeld
  | eNotHeld
  | eCancelled
  | eXsize
deriving DecidableEq, Repr

/-- The twelve step codes (R243). -/
inductive StepCode where
  | none
  | decode
  | bind
  | register
  | start
  | stop
  | deregister
  | listen
  | map
  | unlisten
  | acquire
  | release
deriving DecidableEq, Repr

/-- The fields of `RESULT` that are not constant (R26). -/
structure CmdResult where
  valid : Bool
  chan : Chan
  step : StepCode
  code : ResultCode
deriving DecidableEq, Repr

/-- A channel slot (R30 to R45). -/
structure Slot where
  progress : Progress
  inUse : Bool
  mode : Mode
  registered : Bool
  receiving : Bool
  ovf : Bool
  desync : Bool
  ringOvr : Bool
  heldValid : Bool
  acqPending : Bool
  dest : Word
  woff : Word
  expected : Word
  caplen : Word
  wdcnt : Word
  wdlim : Word
  ringBase : Word
  slotSize : Word
  ringB : BitVec 5
  lastReturned : BitVec 4
  fillIdx : BitVec 4
  heldIdx : BitVec 4
  ring : Vector RingState 16
  lastN : BitVec 5
  acqCode : ResultCode
  acqDone : Bool
deriving DecidableEq, Repr

/-- Every field of a channel slot at its reset value (R50). -/
def Slot.reset : Slot where
  progress := .idle
  inUse := false
  mode := .software
  registered := false
  receiving := false
  ovf := false
  desync := false
  ringOvr := false
  heldValid := false
  acqPending := false
  dest := 0
  woff := 0
  expected := 0
  caplen := 0
  wdcnt := 0
  wdlim := 0
  ringBase := 0
  slotSize := 0
  ringB := 0
  lastReturned := 0
  fillIdx := 0
  heldIdx := 0
  ring := Vector.replicate 16 .absent
  lastN := 0
  acqCode := .ok
  acqDone := false

/-- Frame memory (R70): the bytes that hold a known value, addresses strictly rising. A byte that is not listed
holds no known value (R71; log 6). -/
abbrev Memory := List Host.Cell

/-- The canonical form of a memory: addresses strictly rising. Every listed byte holds a value and an unlisted one
reads as none, so no entry equals what an unlisted address reads as. -/
abbrev Memory.wf (m : Memory) : Prop := m.Pairwise fun x y => x.1 < y.1

/-- The state: R20's four items, then the model's own fields (logs 1 to 5). -/
structure State where
  /-- `ARG0`, `ARG1`, `ARG2`, `RET0`, `RET1` (R21). -/
  arg0 : Word
  arg1 : Word
  arg2 : Word
  ret0 : Word
  ret1 : Word
  /-- `RESULT` (R26). -/
  result : CmdResult
  /-- `AWAIT` (R27). -/
  awaiting : Word
  /-- `IRQ_STATUS[7:0]` and `IRQ_ENABLE[7:0]` (R28). -/
  irqStatus : BitVec 8
  irqEnable : BitVec 8
  /-- The channel slots (R30). Only those below `NCH` exist (log 14). -/
  slots : Vector Slot 64
  /-- Frame memory (R70). -/
  mem : Memory
  /-- Model: the parameters of R7, which no event changes (R271; log 1). -/
  params : Params
  /-- Model: the events of all ports still to be taken, in their total order (R9; log 2). -/
  events : List Event
  /-- Model: the collaborators' next answers; when none is left `Config.ext` answers (R12; log 3). -/
  answers : List Answer
  /-- Model: the requests sent so far, oldest first (R12; log 4). -/
  requests : List Request
  /-- Model: the word the last `REG.RD` returned (R103; log 5). -/
  rdata : Option Word
  /-- Model: the bytes the last `HostMemRead` returned, `none` for a byte of no known value (R79; logs 5, 6). -/
  memData : Option (List (Option Byte))
deriving DecidableEq, Repr

/-- Why the machine stops with a fault. Nothing in the block is a fault (R19); this one guards the model's own
premise that an address exists. -/
inductive Fault where
  /-- An access to frame memory that is not wholly inside `0 .. MEM_BYTES-1` (R70, R72). Raised by `memWrite`
  and by `hostMemRead`. Safe: the spec gives such an access no meaning, and no access of the block itself is one
  while the invariants of R48 and R49 hold (R78). -/
  | outsideFrameMemory (addr n : Nat)
deriving DecidableEq, Repr

/-- Why the model refuses an input. A command the block refuses is none of these: it is a next state with a result
code (R19). -/
inductive Refusal where
  /-- An instruction that has no meaning in this model. No arm of `exec` raises it. Safe. -/
  | notModelled (mnemonic : String)
  /-- A packet input whose payload is not exactly `len` bytes: not an input of format P (R100). Raised by
  `rejectInput`. Safe. -/
  | malformedPacket
  /-- A fill input longer than any frame: not an input of format F (R102). Raised by `rejectInput`. Safe. -/
  | malformedFrame
  /-- A fill that reaches a free ring slot with a frame of other than `ch[c].expected` bytes: not an input of
  format F (R102). Raised by `execFill`. Safe. -/
  | frameSize (got expected : Nat)
deriving DecidableEq, Repr

/-- The machine right after reset (R50, R270), with the default parameters (R7) and no event waiting. -/
def State.reset : State where
  arg0 := 0
  arg1 := 0
  arg2 := 0
  ret0 := 0
  ret1 := 0
  result := { valid := false, chan := 0, step := .none, code := .ok }
  awaiting := 0
  irqStatus := 0
  irqEnable := 0
  slots := Vector.replicate 64 Slot.reset
  mem := []
  params := Params.default
  events := []
  answers := []
  requests := []
  rdata := none
  memData := none

end Sys2Proof.Machine
end

