-- ==== Sys2Proof/Machine/Ops.lean ====
section
/-! DEFINITION. The named operations on memory, slots and registers that every meaning is built from: the pseudocode
primitives of R14, and the two ways the block reports a condition (R240), which are all there is of an exception
here (R247): `State.finish` and `State.irqSet`. There is nothing to return from (R248). -/

namespace Sys2Proof.Machine

/-- What a meaning answers. -/
abbrev StepOutcome := Host.Outcome State Fault Refusal

/-- Go on with the next state, or stop as the first part stopped. -/
def andThen (o : StepOutcome) (f : State → StepOutcome) : StepOutcome :=
  match o with
  | .next s => f s
  | .fault r => .fault r
  | .refused r => .refused r

/-! ### Frame memory (R70 to R72) -/

/-- The byte at an address, if it holds a known value (R71). -/
def Memory.read? : Memory → Nat → Option Byte
  | [], _ => none
  | x :: m, a => if x.1 = a then some x.2 else Memory.read? m a

/-- The cells of a byte sequence from an address up. -/
def cellsAt : Nat → List Byte → Memory
  | _, [] => []
  | a, b :: bs => (a, b) :: cellsAt (a + 1) bs

/-- `MemWrite` of R72: byte `i` of the sequence goes to `addr + i`, every other byte stays. -/
def Memory.write (m : Memory) (addr : Nat) (bs : List Byte) : Memory :=
  m.filter (fun x => decide (x.1 < addr)) ++
    (cellsAt addr bs ++ m.filter (fun x => decide (addr + bs.length ≤ x.1)))

/-- The bytes `addr .. addr+n-1` become unspecified (R180, padding): they hold no known value. -/
def Memory.forget (m : Memory) (addr n : Nat) : Memory :=
  m.filter (fun x => decide (x.1 < addr) || decide (addr + n ≤ x.1))

/-- The byte of frame memory at an address, if it holds a known value. -/
def State.readByte (s : State) (a : Nat) : Option Byte := s.mem.read? a

/-- `MemRead(addr, n)` of R14: the `n` bytes at `addr .. addr+n-1`. -/
def State.readBytes (s : State) (addr n : Nat) : List (Option Byte) :=
  (List.range n).map fun i => s.readByte (addr + i)

/-- `MemWrite(addr, n, v)` of R14 and R72 with `n` the length of `v`. Writing no byte does nothing. A write that is
not wholly inside frame memory is a fault of the model; R78 says that none occurs (log 8). -/
def memWrite (s : State) (addr : Nat) (bs : List Byte) : StepOutcome :=
  if bs = [] then .next s
  else if addr + bs.length ≤ s.params.memBytes then .next { s with mem := s.mem.write addr bs }
  else .fault (.outsideFrameMemory addr bs.length)

/-- Padding becomes unspecified (R180). -/
def State.forget (s : State) (addr n : Nat) : State := { s with mem := s.mem.forget addr n }

/-! ### Channel slots (R30) -/

/-- `NCH` (R7). -/
def State.nch (s : State) : Nat := s.params.nch

/-- The slot of a channel. -/
def State.slot (s : State) (c : Chan) : Slot := s.slots[c.toNat]'c.isLt

/-- Replace the slot of a channel. -/
def State.setSlot (s : State) (c : Chan) (k : Slot) : State := { s with slots := s.slots.set c.toNat k c.isLt }

/-- Change the slot of a channel. -/
def State.updSlot (s : State) (c : Chan) (f : Slot → Slot) : State := s.setSlot c (f (s.slot c))

/-! ### Reporting a condition (R240, R247) -/

/-- `finish(code, step, c)` of R14: `RESULT <- {1, 0, c, 0, step, code}`. -/
def State.finish (s : State) (code : ResultCode) (step : StepCode) (c : Chan) : State :=
  { s with result := { valid := true, chan := c, step := step, code := code } }

/-- `RET0 <- r0; RET1 <- r1` (R21, R93). -/
def State.setRets (s : State) (r0 r1 : Word) : State := { s with ret0 := r0, ret1 := r1 }

/-- `awaiting <- n` (R27). -/
def State.setAwaiting (s : State) (n : Word) : State := { s with awaiting := n }

/-- The eight interrupt sources (R28, R250). -/
inductive Irq where
  | allDone
  | frame
  | desync
  | acq
  | ringOvr
  | payOvf
  | awaitUf
  | badCh
deriving DecidableEq, Repr

/-- The bit of a source in `IRQ_STATUS` and `IRQ_ENABLE` (R28). -/
def Irq.index : Irq → Nat
  | .allDone => 0
  | .frame => 1
  | .desync => 2
  | .acq => 3
  | .ringOvr => 4
  | .payOvf => 5
  | .awaitUf => 6
  | .badCh => 7

/-- The register value with just the bit of a source. -/
def Irq.bit (b : Irq) : BitVec 8 := 1#8 <<< b.index

/-- `irq_set(b)` of R14 and R250: `IRQ_STATUS[b] <- 1`. -/
def State.irqSet (s : State) (b : Irq) : State := { s with irqStatus := s.irqStatus ||| b.bit }

/-! ### Commands and collaborators -/

/-- Step (2) of R91 (and R233): a command on a channel `c >= NCH` is `finish(E_BADCH, DECODE, c)`, any other runs
its own rule. A command always ends in a next state (R19). -/
def onChannel (c : Chan) (s : State) (body : State → State) : StepOutcome :=
  if s.nch ≤ c.toNat then .next (s.finish .eBadCh .decode c) else .next (body s)

/-- The answer `ext(req)` gives in a state (R12, R14): the next one waiting, or the free oracle's (log 3). -/
def State.answerTo (s : State) (r : Request) : Answer :=
  match s.answers with
  | a :: _ => a
  | [] => Config.ext (s.requests ++ [r])

/-- The state after `ext(req)`: the request is sent and its answer is used up. Where a rule ignores the answer
(R155, R175), this alone is the request. -/
def State.sent (s : State) (r : Request) : State :=
  { s with requests := s.requests ++ [r], answers := s.answers.tail }

/-- The slot holds a software session: `in_use and mode == Software`. -/
def Slot.isSoftware (k : Slot) : Bool := k.inUse && decide (k.mode = .software)

/-- The slot holds a ring: `in_use and mode == DMA`. -/
def Slot.isDma (k : Slot) : Bool := k.inUse && decide (k.mode = .dma)

end Sys2Proof.Machine
end

