-- ==== Sys2Proof/Machine/Flags.lean ====
section
/-! DEFINITION. The numbers of the enumerated fields (R94, R241, R243), the packed registers the host reads (R24,
R26, R27, R31, R42, R43, R45) and the interrupt line (R28, R251). -/

namespace Sys2Proof.Machine

/-- `Idle` / `InProgress` / `Complete` = 0 / 1 / 2 (R94). -/
def Progress.num : Progress → BitVec 2
  | .idle => 0
  | .inProgress => 1
  | .complete => 2

/-- `Software` / `DMA` = 0 / 1 (R94). -/
def Mode.num : Mode → BitVec 1
  | .software => 0
  | .dma => 1

/-- `Absent` / `QueuedEmpty` / `FilledPending` / `HandedToCaller` = 0 / 1 / 2 / 3 (R94). -/
def RingState.num : RingState → BitVec 2
  | .absent => 0
  | .queuedEmpty => 1
  | .filledPending => 2
  | .handedToCaller => 3

/-- The numbers of the result codes (R241). -/
def ResultCode.num : ResultCode → BitVec 8
  | .ok => 0x00
  | .pending => 0x01
  | .eBadOp => 0x10
  | .eBadCh => 0x11
  | .eArg => 0x12
  | .eRange => 0x13
  | .eBusy => 0x14
  | .eState => 0x15
  | .eXport => 0x16
  | .eDma => 0x17
  | .eHeld => 0x18
  | .eNotHeld => 0x19
  | .eCancelled => 0x1A
  | .eXsize => 0x1B

/-- The numbers of the step codes (R243). -/
def StepCode.num : StepCode → BitVec 4
  | .none => 0
  | .decode => 1
  | .bind => 2
  | .register => 3
  | .start => 4
  | .stop => 5
  | .deregister => 6
  | .listen => 7
  | .map => 8
  | .unlisten => 9
  | .acquire => 10
  | .release => 11

/-- One bit of a register. -/
def flag (b : Bool) : BitVec 1 := BitVec.ofBool b

/-- `RESULT` (R26): `valid` in bit 31, `chan` in 21..16, `step` in 11..8, `code` in 7..0. -/
def CmdResult.word (r : CmdResult) : Word :=
  flag r.valid ++ 0#9 ++ r.chan ++ 0#4 ++ r.step.num ++ r.code.num

/-- `CFG` (R24): version in 31..24, `BMAX` in 12..8, `NCH` in 6..0. -/
def State.cfgWord (s : State) : Word :=
  BitVec.ofNat 8 Config.version ++ 0#11 ++ BitVec.ofNat 5 Config.bmax ++ 0#1 ++ BitVec.ofNat 7 s.nch

/-- `GSTAT` (R27): bit 0 is `all_captured`. -/
def State.gstat (s : State) : Word := if s.awaiting = 0 then 1 else 0

/-- `irq` is 1 exactly when `(IRQ_STATUS & IRQ_ENABLE)[7:0] != 0` (R28, R251). Nothing in the block reads it. -/
def State.irq (s : State) : Bool := decide (s.irqStatus &&& s.irqEnable ≠ 0)

/-- `CH_STAT` (R31), bit 10 down to bit 0: `ring_ovr`, `acq_pending`, `held_valid`, `desync`, `ovf`, `receiving`,
`registered`, `mode`, `in_use`, `progress`. -/
def Slot.statWord (k : Slot) : Word :=
  0#21 ++ flag k.ringOvr ++ flag k.acqPending ++ flag k.heldValid ++ flag k.desync ++ flag k.ovf ++
    flag k.receiving ++ flag k.registered ++ k.mode.num ++ flag k.inUse ++ k.progress.num

/-- `RING_PTR` (R42): `held_idx` in 27..24, `fill_idx` in 19..16, `last_returned` in 11..8, `ring_b` in 4..0. -/
def Slot.ptrWord (k : Slot) : Word :=
  0#4 ++ k.heldIdx ++ 0#4 ++ k.fillIdx ++ 0#4 ++ k.lastReturned ++ 0#3 ++ k.ringB

/-- `RING_SLOTS` (R43): slot `i` in bits `2i+1 .. 2i`. -/
def Slot.ringWord (k : Slot) : Word :=
  BitVec.ofNat 32 (k.ring.toList.foldr (fun st acc => st.num.toNat + 4 * acc) 0)

/-- `CH_ACQ` (R45): `acq_done` in bit 16, `acq_code` in 15..8, `last_n` in 4..0. -/
def Slot.acqWord (k : Slot) : Word := 0#15 ++ flag k.acqDone ++ k.acqCode.num ++ 0#3 ++ k.lastN

end Sys2Proof.Machine
end

