-- ==== Sys2Proof/Machine/Operands.lean ====
section
/-! DEFINITION. The operand forms of the commands: the group mask and its members (R93, R153) and the packed return
value of `DMA_ACQUIRE` (R93). The other operands are whole `ARG` registers. -/

namespace Sys2Proof.Machine

/-- `mask = {ARG1, ARG0}` (R93). -/
def State.groupMask (s : State) : BitVec 64 := s.arg1 ++ s.arg0

/-- The channels of a mask in ascending order, as numbers (R153). -/
def maskBits (mask : BitVec 64) : List Nat := (List.range 64).filter fun i => mask.getLsbD i

/-- The members of a group in ascending channel number (R153). -/
def members (mask : BitVec 64) : List Chan := (maskBits mask).map (BitVec.ofNat 6)

/-- The lowest bit of the mask that names no channel, if any (R153). -/
def lowestBadMember (mask : BitVec 64) (nch : Nat) : Option Chan :=
  ((maskBits mask).find? fun i => decide (nch ≤ i)).map (BitVec.ofNat 6)

/-- `RET1 = {0[19:0], newest[3:0], 0[2:0], n[4:0]}` of an immediate `DMA_ACQUIRE` (R93). -/
def acquireReturn (newest : BitVec 4) (n : BitVec 5) : Word := 0#20 ++ newest ++ 0#3 ++ n

end Sys2Proof.Machine
end

