-- ==== Sys2Proof/Machine/Session.lean ====
section
/-! DEFINITION. The software-path session commands (spec/43_session_commands.md, R200 to R217), and the procedures
they share with the group commands. -/

namespace Sys2Proof.Machine

/-- `rearm(c)` of R215 on the slot. -/
def Slot.rearm (k : Slot) : Slot :=
  { k with progress := .idle, woff := 0, caplen := 0, wdcnt := 0, ovf := false, desync := false }

/-- `abandon(c)` of R213 on the slot: a frame in flight is given up, a `Complete` frame is kept. -/
def Slot.abandon (k : Slot) : Slot :=
  match k.progress with
  | .inProgress => { k with progress := .idle, woff := 0, wdcnt := 0 }
  | .idle => k
  | .complete => k

/-- A failure of a tear-down step: code, step, channel. -/
abbrev Failure := ResultCode × StepCode × Chan

/-- Only the first failure is reported (R156, R205, R245). -/
def noteFailure (first : Option Failure) (ok : Bool) (f : Failure) : Option Failure :=
  if ok then first else first.or (some f)

/-- `if first == none: finish(OK, NONE, c) else: finish(first)` (R156, R205). -/
def State.finishFirst (s : State) (first : Option Failure) (c : Chan) : State :=
  match first with
  | none => s.finish .ok .none c
  | some f => s.finish f.1 f.2.1 f.2.2

/-- The stop step of a tear-down (R156, R205): nothing unless receiving; the bit is cleared whatever the answer, and
a frame in flight is abandoned (`UNBIND` clears the whole slot afterwards anyway). -/
def tearStop (c : Chan) (first : Option Failure) (s : State) : Option Failure × State :=
  if (s.slot c).receiving then
    (noteFailure first (s.answerTo (.xpStop c)).ok (.eXport, .stop, c),
      (s.sent (.xpStop c)).updSlot c fun k => Slot.abandon { k with receiving := false })
  else (first, s)

/-- The deregister step of a tear-down (R156, R205): nothing unless registered. -/
def tearDeregister (c : Chan) (first : Option Failure) (s : State) : Option Failure × State :=
  if (s.slot c).registered then
    (noteFailure first (s.answerTo (.xpDereg c)).ok (.eXport, .deregister, c),
      (s.sent (.xpDereg c)).updSlot c fun k => { k with registered := false })
  else (first, s)

/-- Both steps in order. -/
def tearTransport (c : Chan) (first : Option Failure) (s : State) : Option Failure × State :=
  let t := tearStop c first s
  tearDeregister c t.1 t.2

/-- The slot `SW_BIND` leaves (R201). `acq_pending` is cleared with the rest of R45's record, as R45 says; in a free
slot it is 0 already (log 13). -/
def Slot.bindSoftware (k : Slot) (dest expected wdlim : Word) : Slot :=
  { k with
    inUse := true, mode := .software, dest := dest, expected := expected, wdlim := wdlim, progress := .idle,
    woff := 0, caplen := 0, wdcnt := 0, ovf := false, desync := false,
    lastN := 0, acqCode := .ok, acqDone := false, acqPending := false }

/-- `SW_BIND` (R201, R203). -/
def execSwBind (ch : Chan) (s : State) : StepOutcome :=
  onChannel ch s fun s =>
    if (s.slot ch).inUse then s.finish .eBusy .bind ch
    else if s.arg1 = 0 then s.finish .eArg .bind ch
    else if s.params.memBytes < s.arg0.toNat + s.arg1.toNat then s.finish .eRange .bind ch
    else (s.updSlot ch fun k => k.bindSoftware s.arg0 s.arg1 s.arg2).finish .ok .none ch

/-- `UNBIND` (R205). -/
def execUnbind (ch : Chan) (s : State) : StepOutcome :=
  onChannel ch s fun s =>
    if !(s.slot ch).inUse then s.finish .ok .none ch
    else if (s.slot ch).mode = .dma then s.finish .eState .bind ch
    else
      let t := tearTransport ch none s
      (t.2.setSlot ch Slot.reset).finishFirst t.1 ch

/-- `REGISTER` (R207). -/
def execRegister (ch : Chan) (s : State) : StepOutcome :=
  onChannel ch s fun s =>
    if !(s.slot ch).isSoftware || (s.slot ch).registered then s.finish .eState .register ch
    else if (s.answerTo (.xpReg ch)).ok then
      ((s.sent (.xpReg ch)).updSlot ch fun k => { k with registered := true }).finish .ok .none ch
    else (s.sent (.xpReg ch)).finish .eXport .register ch

/-- `DEREGISTER` (R209): the bit is cleared whatever the transport answers. -/
def execDeregister (ch : Chan) (s : State) : StepOutcome :=
  onChannel ch s fun s =>
    if !(s.slot ch).registered then s.finish .ok .none ch
    else if (s.slot ch).receiving then s.finish .eState .deregister ch
    else
      let t := tearDeregister ch none s
      t.2.finishFirst t.1 ch

/-- `START` (R211). -/
def execStart (ch : Chan) (s : State) : StepOutcome :=
  onChannel ch s fun s =>
    if !(s.slot ch).registered || (s.slot ch).receiving then s.finish .eState .start ch
    else if (s.answerTo (.xpStart ch)).ok then
      ((s.sent (.xpStart ch)).updSlot ch fun k => { k with receiving := true }).finish .ok .none ch
    else (s.sent (.xpStart ch)).finish .eXport .start ch

/-- `STOP` (R213): a channel that is not receiving is left alone; else it stops and abandons a frame in flight
whatever the transport answers. -/
def execStop (ch : Chan) (s : State) : StepOutcome :=
  onChannel ch s fun s =>
    let t := tearStop ch none s
    t.2.finishFirst t.1 ch

/-- `REARM` (R215). -/
def execRearm (ch : Chan) (s : State) : StepOutcome :=
  onChannel ch s fun s =>
    if !(s.slot ch).isSoftware then s.finish .eState .bind ch
    else (s.updSlot ch Slot.rearm).finish .ok .none ch

end Sys2Proof.Machine
end

