-- ==== Sys2Proof/Machine/Monitor.lean ====
section
/-! DEFINITION. The multi-channel frame sync monitor's commands (spec/41_sync_monitor.md, R150 to R156). -/

namespace Sys2Proof.Machine

/-- `AWAIT_SET` (R152). -/
def execAwaitSet (s : State) : StepOutcome :=
  if s.nch < s.arg0.toNat then .next (s.finish .eArg .decode 0)
  else .next ((s.setAwaiting s.arg0).finish .ok .none 0)

/-- The check of R153: a mask bit that names no channel is `finish(E_BADCH, DECODE, c0)`. -/
def onGroup (s : State) (body : List Chan → State → State) : StepOutcome :=
  match lowestBadMember s.groupMask s.nch with
  | some c => .next (s.finish .eBadCh .decode c)
  | none => .next (body (members s.groupMask) s)

/-- `rollback(i)` of R155: `started` lists the members started so far, the last one first. -/
def rollback : List Chan → State → State
  | [], s => s
  | c :: started, s =>
    let s1 := (s.sent (.xpStop c)).updSlot c fun k => { k with receiving := false }
    let s2 := (s1.sent (.xpDereg c)).updSlot c fun k => { k with registered := false }
    rollback started s2

/-- The member loop of `GRP_START` (R154): the steps BIND, REGISTER and START of each member in turn; a failure
rolls the earlier members back and names the failing member and step. -/
def groupStart (started : List Chan) : List Chan → State → State
  | [], s => s.finish .ok .none 0
  | c :: rest, s =>
    if !(s.slot c).isSoftware || (s.slot c).registered then (rollback started s).finish .eState .bind c
    else
      let bound := s.updSlot c Slot.rearm
      let asked := bound.sent (.xpReg c)
      if !(bound.answerTo (.xpReg c)).ok then (rollback started asked).finish .eXport .register c
      else
        let reg := asked.updSlot c fun k => { k with registered := true }
        let started1 := reg.sent (.xpStart c)
        if !(reg.answerTo (.xpStart c)).ok then
          let undone := (started1.sent (.xpDereg c)).updSlot c fun k => { k with registered := false }
          (rollback started undone).finish .eXport .start c
        else groupStart (c :: started) rest (started1.updSlot c fun k => { k with receiving := true })

/-- `GRP_START` (R154): an empty mask is `E_ARG`; else `awaiting <- N` and the members are started in turn. -/
def execGrpStart (s : State) : StepOutcome :=
  onGroup s fun group s =>
    if group = [] then s.finish .eArg .decode 0
    else groupStart [] group (s.setAwaiting (BitVec.ofNat 32 group.length))

/-- The member loop of `GRP_STOP` (R156): every member is processed whatever the answers are. -/
def groupStop : List Chan → Option Failure → State → Option Failure × State
  | [], first, s => (first, s)
  | c :: rest, first, s =>
    let t := tearTransport c first s
    groupStop rest t.1 t.2

/-- `GRP_STOP` (R156). -/
def execGrpStop (s : State) : StepOutcome :=
  onGroup s fun group s =>
    let t := groupStop group none s
    t.2.finishFirst t.1 0

end Sys2Proof.Machine
end

