-- ==== Sys2Proof/Machine/Packet.lean ====
section
/-! DEFINITION. The packet event: demultiplexer, reassembly state machine, copy, completion and watchdog
(spec/40_packet_reassembly.md, R120 to R130). -/

namespace Sys2Proof.Machine

/-- R121: a packet of a channel `>= NCH` raises `BADCH`; one whose channel is not both registered and receiving is
dropped and changes nothing; any other is delivered. -/
def deliver (c : Chan) (s : State) (body : State → StepOutcome) : StepOutcome :=
  if s.nch ≤ c.toNat then .next (s.irqSet .badCh)
  else if (s.slot c).registered && (s.slot c).receiving then body s
  else .next s

/-- `overflow(c)` of R126. -/
def overflow (c : Chan) (s : State) : State :=
  (s.updSlot c fun k => { k with ovf := true }).irqSet .payOvf

/-- The number of payload bytes `copy` stores: `min(len, expected - woff)` (R125). -/
def copyCount (k : Slot) (len : Word) : Nat := min len.toNat (k.expected.toNat - k.woff.toNat)

/-- `copy(c, len, p)` of R125: the clamped copy. -/
def copyPayload (c : Chan) (len : Word) (p : List Byte) (s : State) : StepOutcome :=
  let k := s.slot c
  let n := copyCount k len
  andThen (memWrite s (k.dest.toNat + k.woff.toNat) (p.take n)) fun s1 =>
    let s2 := s1.updSlot c fun k => { k with woff := k.woff + BitVec.ofNat 32 n }
    .next (if n < len.toNat then overflow c s2 else s2)

/-- The counter's part of R127: it saturates at 0 with `AWAIT_UF`, and `ALLDONE` marks its step from 1 to 0. -/
def countCompletion (s : State) : State :=
  if s.awaiting = 0 then s.irqSet .awaitUf
  else
    let s1 := s.setAwaiting (s.awaiting - 1)
    if s1.awaiting = 0 then s1.irqSet .allDone else s1

/-- The completion of a frame (R127). -/
def completeFrame (c : Chan) (s : State) : State :=
  let s1 := s.updSlot c fun k => { k with caplen := k.woff, progress := .complete }
  let s2 := countCompletion s1
  (s2.updSlot c fun k => { k with woff := 0, wdcnt := 0 }).irqSet .frame

/-- `completion_test(c)` of R127: whether the frame is complete, and the state after. -/
def completionTest (c : Chan) (s : State) : Bool × State :=
  if (s.slot c).expected ≤ (s.slot c).woff then (true, completeFrame c s) else (false, s)

/-- `min(wdcnt + 1, 2^32 - 1)` (R130). -/
def bumpWatchdog (w : Word) : Word := BitVec.ofNat 32 (min (w.toNat + 1) (2 ^ 32 - 1))

/-- The watchdog fires for this count (R130). -/
def watchdogDue (k : Slot) : Bool := decide (k.wdlim ≠ 0) && decide (k.wdlim ≤ k.wdcnt)

/-- `watchdog(c, completed)` of R130. -/
def watchdog (c : Chan) (completed : Bool) (s : State) : State :=
  if completed then s
  else
    let s1 := s.updSlot c fun k => { k with wdcnt := bumpWatchdog k.wdcnt }
    if watchdogDue (s1.slot c) then
      (s1.updSlot c fun k => { k with desync := true, progress := .idle, woff := 0, wdcnt := 0 }).irqSet .desync
    else s1

/-- Copy, completion test, watchdog: what R123 and R124 do with a packet that is not dropped. -/
def takePayload (c : Chan) (len : Word) (p : List Byte) (s : State) : StepOutcome :=
  andThen (copyPayload c len p s) fun s1 =>
    let t := completionTest c s1
    .next (watchdog c t.1 t.2)

/-- `PKT.START` (R123): while `Complete` the packet is dropped whole (R128); while `Idle` a frame starts; while
`InProgress` the marker is ignored. -/
def execPktStart (ch : Chan) (_hdr len : Word) (p : List Byte) (s : State) : StepOutcome :=
  deliver ch s fun s =>
    match (s.slot ch).progress with
    | .complete => .next s
    | .idle => takePayload ch len p (s.updSlot ch fun k => { k with woff := 0, progress := .inProgress })
    | .inProgress => takePayload ch len p s

/-- `PKT.CONT` (R124): while `Complete` the packet is dropped whole (R128); while `Idle` its payload is dropped and
the watchdog counts it; while `InProgress` it is copied. -/
def execPktCont (ch : Chan) (_hdr len : Word) (p : List Byte) (s : State) : StepOutcome :=
  deliver ch s fun s =>
    match (s.slot ch).progress with
    | .complete => .next s
    | .inProgress => takePayload ch len p s
    | .idle => .next (watchdog ch false s)

end Sys2Proof.Machine
end

