-- ==== Sys2Proof/Machine/Ring.lean ====
section
/-! DEFINITION. The DMA ring-buffer scheduler (spec/42_dma_ring.md, R170 to R198): the ring of a channel, the
producer's fill and the five ring commands. Index arithmetic is on natural numbers followed by `mod B` (R172). -/

namespace Sys2Proof.Machine

/-- The state of ring slot `i`; an index outside the register is `Absent` (R43). -/
def Slot.ringAt (k : Slot) (i : Nat) : RingState := if h : i < 16 then k.ring[i] else .absent

/-- `ch[c].slot[i] <- st`. -/
def Slot.setRing (k : Slot) (i : Nat) (st : RingState) : Slot := { k with ring := k.ring.setIfInBounds i st }

/-- `next_expected = (last_returned + 1) mod B` (R172). -/
def Slot.nextExpected (k : Slot) : Nat := (k.lastReturned.toNat + 1) % k.ringB.toNat

/-- How many slots from index `i` on, in ring order, are `FilledPending` without a gap; at most `fuel`. -/
def Slot.filledRun (k : Slot) : Nat → Nat → Nat
  | 0, _ => 0
  | fuel + 1, i =>
    if k.ringAt (i % k.ringB.toNat) = .filledPending then 1 + Slot.filledRun k fuel (i + 1) else 0

/-- `n_filled` (R172). -/
def Slot.nFilled (k : Slot) : Nat := k.filledRun k.ringB.toNat k.nextExpected

/-- `newest = (next_expected + n_filled - 1) mod B` (R172). -/
def Slot.newest (k : Slot) : Nat := (k.nextExpected + k.nFilled - 1) % k.ringB.toNat

/-- The byte address of ring slot `i` (R170). -/
def Slot.slotAddr (k : Slot) (i : Nat) : Nat := k.ringBase.toNat + i * k.slotSize.toNat

/-- Ring slots `(from + j) mod B`, `j < n`, become `QueuedEmpty`, oldest first (R186). -/
def Slot.requeue (k : Slot) (start : Nat) : Nat → Slot
  | 0 => k
  | n + 1 => (k.requeue start n).setRing ((start + n) % k.ringB.toNat) .queuedEmpty

/-- `hand_over(c)` of R186 on the slot: the skipped frames are re-queued, the newest slot goes to the caller. -/
def Slot.handOver (k : Slot) : Slot :=
  let n := k.nFilled
  let nw := k.newest
  { (k.requeue k.nextExpected (n - 1)).setRing nw .handedToCaller with
    heldValid := true
    heldIdx := BitVec.ofNat 4 nw
    lastReturned := BitVec.ofNat 4 nw
    dest := BitVec.ofNat 32 (k.slotAddr nw)
    lastN := BitVec.ofNat 5 n
    acqDone := true
    acqCode := .ok }

/-- `complete_acquire(c)` of R188. -/
def completeAcquire (c : Chan) (s : State) : State :=
  (s.updSlot c fun k => Slot.handOver { k with acqPending := false }).irqSet .acq

/-- `overrun(c)` of R181: the frame is discarded. -/
def overrun (c : Chan) (s : State) : State :=
  (s.updSlot c fun k => { k with ringOvr := true }).irqSet .ringOvr

/-- The slot's state after its ring slot `fill_idx` was filled (R180). -/
def Slot.markFilled (k : Slot) : Slot :=
  { k.setRing k.fillIdx.toNat .filledPending with
    fillIdx := BitVec.ofNat 4 ((k.fillIdx.toNat + 1) % k.ringB.toNat) }

/-- The frame is stored and the slot's padding becomes unspecified (R180). -/
def storeFrame (k : Slot) (f : List Byte) (s : State) : StepOutcome :=
  let base := k.slotAddr k.fillIdx.toNat
  andThen (memWrite s base f) fun s1 =>
    .next (s1.forget (base + k.expected.toNat) (k.slotSize.toNat - k.expected.toNat))

/-- `FILL` (R180 to R182, R188). A frame of another length than `ch[c].expected` is no fill event of R102 and is
refused where its bytes would be stored (log 9). -/
def execFill (ch : Chan) (f : List Byte) (s : State) : StepOutcome :=
  if s.nch ≤ ch.toNat then .next (s.irqSet .badCh)
  else
    let k := s.slot ch
    if !k.isDma then .next s
    else if k.ringAt k.fillIdx.toNat ≠ .queuedEmpty then .next (overrun ch s)
    else if f.length ≠ k.expected.toNat then .refused (.frameSize f.length k.expected.toNat)
    else andThen (storeFrame k f s) fun s1 =>
      let s2 := s1.updSlot ch Slot.markFilled
      .next (if (s2.slot ch).acqPending then completeAcquire ch s2 else s2)

/-- The ring of `DMA_SETUP` (R175): slots `0 .. B-1` queued, the others absent. -/
def freshRing (b : Nat) : Vector RingState 16 :=
  Vector.ofFn fun i : Fin 16 => if i.val < b then RingState.queuedEmpty else RingState.absent

/-- The slot `DMA_SETUP` leaves (R175). `woff`, `caplen`, `wdcnt` and `wdlim` are set to 0 as R36, R38 and R39 say;
in a free slot they are 0 already (log 13). -/
def Slot.bindRing (k : Slot) (base frameSize b granted : Word) : Slot :=
  { k with
    inUse := true, mode := .dma, expected := frameSize, slotSize := granted, ringBase := base,
    ringB := BitVec.ofNat 5 b.toNat, ring := freshRing b.toNat,
    lastReturned := BitVec.ofNat 4 (b.toNat - 1), fillIdx := 0, heldValid := false, heldIdx := 0,
    acqPending := false, lastN := 0, acqCode := .ok, acqDone := false, ringOvr := false, dest := 0,
    woff := 0, caplen := 0, wdcnt := 0, wdlim := 0 }

/-- `DMA_SETUP` (R175 to R177): after a granted listen every failure path sends `DMA_UNLISTEN`, answer ignored. -/
def execDmaSetup (ch : Chan) (s : State) : StepOutcome :=
  onChannel ch s fun s =>
    if (s.slot ch).inUse then s.finish .eBusy .bind ch
    else if s.arg2.toNat < 1 ∨ Config.bmax < s.arg2.toNat then s.finish .eArg .bind ch
    else if s.arg1 = 0 then s.finish .eArg .bind ch
    else
      let r := s.answerTo (.dmaListen ch s.arg2 s.arg1)
      let s1 := s.sent (.dmaListen ch s.arg2 s.arg1)
      if !r.ok then s1.finish .eDma .listen ch
      else if r.size < s.arg1 then (s1.sent (.dmaUnlisten ch)).finish .eXsize .listen ch
      else if s.params.memBytes < s.arg0.toNat + s.arg2.toNat * r.size.toNat then
        (s1.sent (.dmaUnlisten ch)).finish .eRange .map ch
      else
        let bound := s1.updSlot ch fun k => k.bindRing s.arg0 s.arg1 s.arg2 r.size
        (bound.setRets r.size s.arg2).finish .ok .none ch

/-- The slot an accepted acquire starts from: the record of the last one is cleared (R185). -/
def Slot.freshAcquire (k : Slot) : Slot := { k with acqDone := false, acqCode := .ok }

/-- `DMA_ACQUIRE` (R185 to R187). -/
def execDmaAcquire (ch : Chan) (s : State) : StepOutcome :=
  onChannel ch s fun s =>
    if !(s.slot ch).isDma then s.finish .eState .acquire ch
    else if (s.slot ch).acqPending then s.finish .eState .acquire ch
    else if (s.slot ch).heldValid then s.finish .eHeld .acquire ch
    else
      let s1 := s.updSlot ch Slot.freshAcquire
      if 1 ≤ (s1.slot ch).nFilled then
        let s2 := s1.updSlot ch Slot.handOver
        let k := s2.slot ch
        (s2.setRets k.dest (acquireReturn k.heldIdx k.lastN)).finish .ok .none ch
      else (s1.updSlot ch fun k => { k with acqPending := true }).finish .pending .none ch

/-- `DMA_RELEASE` (R190). -/
def execDmaRelease (ch : Chan) (s : State) : StepOutcome :=
  onChannel ch s fun s =>
    if !(s.slot ch).isDma then s.finish .eState .release ch
    else if !(s.slot ch).heldValid then s.finish .eNotHeld .release ch
    else
      (s.updSlot ch fun k => { k.setRing k.heldIdx.toNat .queuedEmpty with heldValid := false }).finish .ok .none ch

/-- `DMA_CANCEL` (R192). -/
def execDmaCancel (ch : Chan) (s : State) : StepOutcome :=
  onChannel ch s fun s =>
    if !(s.slot ch).isDma then s.finish .eState .acquire ch
    else if (s.slot ch).acqPending then
      ((s.updSlot ch fun k =>
        { k with acqPending := false, acqDone := true, acqCode := .eCancelled }).irqSet .acq).finish .ok .none ch
    else s.finish .ok .none ch

/-- `DMA_TEARDOWN` (R195, R197): a channel without a ring is left alone; else the slot is cleared whatever the
collaborator answers, and a pending acquire leaves its record and raises `ACQ`. -/
def execDmaTeardown (ch : Chan) (s : State) : StepOutcome :=
  onChannel ch s fun s =>
    if !(s.slot ch).isDma then s.finish .ok .none ch
    else
      let r := s.answerTo (.dmaUnlisten ch)
      let cleared := (s.sent (.dmaUnlisten ch)).setSlot ch Slot.reset
      let after :=
        if (s.slot ch).acqPending then
          (cleared.updSlot ch fun k => { k with acqDone := true, acqCode := .eCancelled }).irqSet .acq
        else cleared
      if r.ok then after.finish .ok .none ch else after.finish .eDma .unlisten ch

end Sys2Proof.Machine
end

