-- ==== Sys2Proof/Machine/HostAccess.lean ====
section
/-! DEFINITION. The host port (spec/44_host_access.md, R230 to R237): register reads and writes, the dispatch of a
command word, `NOP` and `SOFT_RESET`; and the host's own path to frame memory (R70, R79). -/

namespace Sys2Proof.Machine

/-- `NOP` (R234). -/
def execNop (s : State) : StepOutcome := .next (s.finish .ok .none 0)

/-- Every state element of R50 at its reset value; frame memory and the model's own fields stay (R236, R272;
log 16). -/
def State.clearBlock (s : State) : State :=
  { s with
    arg0 := 0, arg1 := 0, arg2 := 0, ret0 := 0, ret1 := 0,
    result := { valid := false, chan := 0, step := .none, code := .ok },
    awaiting := 0, irqStatus := 0, irqEnable := 0, slots := Vector.replicate 64 Slot.reset }

/-- `SOFT_RESET` (R236): `RESULT` is `0x80000000` afterwards, not 0. -/
def execSoftReset (s : State) : StepOutcome := .next (s.clearBlock.finish .ok .none 0)

/-! ### Register reads (R29, R47, R230, R235) -/

/-- The global registers below `0x1000` (R29). -/
def readGlobal (s : State) (addr : Nat) : Word :=
  match addr with
  | 0x00 => s.params.idValue
  | 0x04 => s.cfgWord
  | 0x08 => s.arg0
  | 0x0C => s.arg1
  | 0x10 => s.arg2
  | 0x14 => 0
  | 0x18 => s.result.word
  | 0x1C => s.ret0
  | 0x20 => s.ret1
  | 0x24 => s.awaiting
  | 0x28 => s.gstat
  | 0x2C => s.irqStatus.setWidth 32
  | 0x30 => s.irqEnable.setWidth 32
  | _ => 0

/-- The registers of a channel window (R47). -/
def readWindow (k : Slot) (off : Nat) : Word :=
  match off with
  | 0x00 => k.statWord
  | 0x04 => k.dest
  | 0x08 => k.woff
  | 0x0C => k.expected
  | 0x10 => k.caplen
  | 0x14 => k.wdcnt
  | 0x18 => k.wdlim
  | 0x20 => k.ringBase
  | 0x24 => k.slotSize
  | 0x28 => k.ptrWord
  | 0x2C => k.ringWord
  | 0x30 => k.acqWord
  | _ => 0

/-- The value of the host register at an address (R230): reserved and misaligned addresses read 0 (R235). -/
def readReg (s : State) (addr : BitVec 16) : Word :=
  let a := addr.toNat
  if a % 4 ≠ 0 then 0
  else if a < 0x1000 then readGlobal s a
  else
    let c := (a - 0x1000) / 0x40
    if c < s.nch then readWindow (s.slot (BitVec.ofNat 6 c)) ((a - 0x1000) % 0x40) else 0

/-- `REG.RD` (R230): no side effect; the word read is presented in `rdata` (log 5). -/
def execRegRd (addr : BitVec 16) (s : State) : StepOutcome := .next { s with rdata := some (readReg s addr) }

/-! ### Command dispatch and register writes (R231 to R233) -/

/-- A word that is no command: `finish(E_BADOP, DECODE, 0)` (R91, R95). -/
def badOp (s : State) : StepOutcome := .next (s.finish .eBadOp .decode 0)

/-- The rule of a decoded command. `decodeCommand` answers with no packet, fill or register access, so the last
arms are never taken. -/
def runCommand (i : Instr) (s : State) : StepOutcome :=
  match i with
  | .nop => execNop s
  | .swBind c => execSwBind c s
  | .unbind c => execUnbind c s
  | .register c => execRegister c s
  | .deregister c => execDeregister c s
  | .start c => execStart c s
  | .stop c => execStop c s
  | .rearm c => execRearm c s
  | .awaitSet => execAwaitSet s
  | .grpStart => execGrpStart s
  | .grpStop => execGrpStop s
  | .dmaSetup c => execDmaSetup c s
  | .dmaAcquire c => execDmaAcquire c s
  | .dmaRelease c => execDmaRelease c s
  | .dmaCancel c => execDmaCancel c s
  | .dmaTeardown c => execDmaTeardown c s
  | .softReset => execSoftReset s
  | .pktStart _ _ _ _ => badOp s
  | .pktCont _ _ _ _ => badOp s
  | .fill _ _ => badOp s
  | .regWr _ _ => badOp s
  | .regRd _ => badOp s

/-- Executing the command word written to `CMD` (R25, R91, R233). -/
def execCommandWord (w : Word) (s : State) : StepOutcome :=
  match decodeCommand w with
  | .ok i => runCommand i s
  | .error _ => badOp s

/-- `REG.WR` (R231): the six writable registers; every other address ignores the write (R235). -/
def execRegWr (addr : BitVec 16) (wdata : Word) (s : State) : StepOutcome :=
  match addr.toNat with
  | 0x08 => .next { s with arg0 := wdata }
  | 0x0C => .next { s with arg1 := wdata }
  | 0x10 => .next { s with arg2 := wdata }
  | 0x14 => execCommandWord wdata s
  | 0x2C => .next { s with irqStatus := s.irqStatus &&& ~~~(wdata.setWidth 8) }
  | 0x30 => .next { s with irqEnable := wdata.setWidth 8 }
  | _ => .next s

/-! ### Inputs that are no instruction, and the host's path to frame memory -/

/-- An input the decoder refuses: a command word that is none is `E_BADOP` (R91); an input that is not in format P
or F is no event of the spec and is refused by name (log 9). -/
def rejectInput (e : DecodeError) (s : State) : StepOutcome :=
  match e with
  | .badOpcode => badOp s
  | .reservedBits => badOp s
  | .channelBits => badOp s
  | .payloadLength => .refused .malformedPacket
  | .frameLength => .refused .malformedFrame

/-- `HostMemRead(addr, n)` (R70, R79): the bytes go to `memData`; nothing else changes. A byte of no known value is
shown as `none` (log 6); a read of no byte is of no address. -/
def hostMemRead (addr n : Nat) (s : State) : StepOutcome :=
  if n = 0 ∨ addr + n ≤ s.params.memBytes then .next { s with memData := some (s.readBytes addr n) }
  else .fault (.outsideFrameMemory addr n)

/-- `HostMemWrite(addr, n, v)` (R70, R71). -/
def hostMemWrite (addr : Nat) (v : List Byte) (s : State) : StepOutcome := memWrite s addr v

/-- The input that carries the bits of a table row becomes the next event (the host's question; log 12). -/
def presentTableWord (s : State) (nbits w : Nat) : State :=
  { s with events := .input (tableInput nbits w) :: s.events }

end Sys2Proof.Machine
end

