-- ==== Sys2Proof/Machine/Dispatch.lean ====
section
/-! DEFINITION. One arm per instruction. -/

namespace Sys2Proof.Machine

def exec (i : Instr) (s : State) : Host.Outcome State Fault Refusal :=
  match i with
  | .nop => Sys2Proof.Machine.execNop s
  | .swBind ch => Sys2Proof.Machine.execSwBind ch s
  | .unbind ch => Sys2Proof.Machine.execUnbind ch s
  | .register ch => Sys2Proof.Machine.execRegister ch s
  | .deregister ch => Sys2Proof.Machine.execDeregister ch s
  | .start ch => Sys2Proof.Machine.execStart ch s
  | .stop ch => Sys2Proof.Machine.execStop ch s
  | .rearm ch => Sys2Proof.Machine.execRearm ch s
  | .awaitSet => Sys2Proof.Machine.execAwaitSet s
  | .grpStart => Sys2Proof.Machine.execGrpStart s
  | .grpStop => Sys2Proof.Machine.execGrpStop s
  | .dmaSetup ch => Sys2Proof.Machine.execDmaSetup ch s
  | .dmaAcquire ch => Sys2Proof.Machine.execDmaAcquire ch s
  | .dmaRelease ch => Sys2Proof.Machine.execDmaRelease ch s
  | .dmaCancel ch => Sys2Proof.Machine.execDmaCancel ch s
  | .dmaTeardown ch => Sys2Proof.Machine.execDmaTeardown ch s
  | .softReset => Sys2Proof.Machine.execSoftReset s
  | .pktStart ch hdr len p => Sys2Proof.Machine.execPktStart ch hdr len p s
  | .pktCont ch hdr len p => Sys2Proof.Machine.execPktCont ch hdr len p s
  | .fill ch f => Sys2Proof.Machine.execFill ch f s
  | .regWr addr wdata => Sys2Proof.Machine.execRegWr addr wdata s
  | .regRd addr => Sys2Proof.Machine.execRegRd addr s

end Sys2Proof.Machine
end

