-- ==== Sys2Proof/Machine/Step.lean ====
section
/-! DEFINITION. One step: the next event is taken (R9). -/

namespace Sys2Proof.Machine

/-- The next event of the total order is taken and handled whole (R9). Where none waits, the block waits too
(R270): the state stays (log 2). A read outside frame memory and a malformed input stop by name. -/
def step (s : State) : Host.Outcome State Fault Refusal :=
  match s.events with
  | [] => .next s
  | .hostMemRead addr n :: rest => hostMemRead addr n { s with events := rest }
  | .hostMemWrite addr v :: rest => hostMemWrite addr v { s with events := rest }
  | .input x :: rest =>
    match decodeInput x with
    | .ok i => exec i { s with events := rest }
    | .error e => rejectInput e { s with events := rest }

/-- The bits of a table row presented as the next event (log 12). -/
def State.withFetchWord (s : State) (nbits w : Nat) : State := presentTableWord s nbits w

end Sys2Proof.Machine
end

