-- ==== Sys2Proof/Safety.lean ====
section
/-! DEFINITION. The terms in which claims are stated: what an event leaves alone, the opcode map as masks (R92), the
invariants of a channel slot (R48) and of a ring (R49), and which events a host may present. -/

namespace Sys2Proof.Machine

/-! ### Frames -/

/-- Every byte of frame memory reads as before. -/
def SameMemory (s t : State) : Prop := ∀ a, t.readByte a = s.readByte a

/-- Every byte outside `base .. base+n-1` reads as before. -/
def SameMemoryOutside (base n : Nat) (s t : State) : Prop :=
  ∀ a, ¬ (base ≤ a ∧ a < base + n) → t.readByte a = s.readByte a

/-- Every channel slot is as before. -/
def SameSlots (s t : State) : Prop := ∀ d, t.slot d = s.slot d

/-- Every channel slot but that of `c` is as before. -/
def OtherSlotsSame (c : Chan) (s t : State) : Prop := ∀ d, d ≠ c → t.slot d = s.slot d

/-- No request is sent to a collaborator and no answer is used. -/
def NoRequest (s t : State) : Prop := t.requests = s.requests ∧ t.answers = s.answers

/-- Just these requests are sent, in this order, and as many answers are used. -/
def Sends (rs : List Request) (s t : State) : Prop :=
  t.requests = s.requests ++ rs ∧ t.answers = s.answers.drop rs.length

/-- The answers a state gives to requests sent one after another, wherever each comes from (R12; log 3). -/
def State.answersTo : State → List Request → List Answer
  | _, [] => []
  | s, r :: rs => s.answerTo r :: State.answersTo (s.sent r) rs

/-- The state after requests are sent one after another. -/
def State.sentAll (s : State) (rs : List Request) : State := rs.foldl State.sent s

/-- What no packet, no fill and no command but `SOFT_RESET` changes: the operand registers, `IRQ_ENABLE`, the
parameters, the waiting events and the data of earlier reads. -/
structure KeepsHostSide (s t : State) : Prop where
  arg0 : t.arg0 = s.arg0
  arg1 : t.arg1 = s.arg1
  arg2 : t.arg2 = s.arg2
  irqEnable : t.irqEnable = s.irqEnable
  params : t.params = s.params
  events : t.events = s.events
  rdata : t.rdata = s.rdata
  memData : t.memData = s.memData

/-- Every global register but `RESULT` is as before, with the parameters and the host's side. -/
structure KeepsGlobals (s t : State) : Prop extends KeepsHostSide s t where
  ret0 : t.ret0 = s.ret0
  ret1 : t.ret1 = s.ret1
  awaiting : t.awaiting = s.awaiting
  irqStatus : t.irqStatus = s.irqStatus

/-- `RESULT` holds this outcome, with `valid` = 1 (R26). -/
def Finished (code : ResultCode) (step : StepCode) (c : Chan) (t : State) : Prop :=
  t.result = { valid := true, chan := c, step := step, code := code }

/-- The command ended with this outcome and changed nothing but `RESULT`, and sent no request (R246). -/
structure OnlyResult (code : ResultCode) (step : StepCode) (c : Chan) (s t : State) : Prop where
  result : Finished code step c t
  slots : SameSlots s t
  memory : SameMemory s t
  requests : NoRequest s t
  globals : KeepsGlobals s t

/-- Nothing at all changes. -/
structure NothingChanges (s t : State) : Prop where
  result : t.result = s.result
  slots : SameSlots s t
  memory : SameMemory s t
  requests : NoRequest s t
  globals : KeepsGlobals s t

/-- What a packet or fill never touches: `RESULT`, `RET0`, `RET1`, the requests, the host's side, and every slot but
its own channel's (R120, R180). -/
structure PortEventFrame (c : Chan) (s t : State) : Prop where
  result : t.result = s.result
  ret0 : t.ret0 = s.ret0
  ret1 : t.ret1 = s.ret1
  requests : NoRequest s t
  host : KeepsHostSide s t
  slots : OtherSlotsSame c s t

/-! ### The opcode map as masks -/

/-- The `match` and `mask` of the 17 commands (R92). -/
def commandTable : List (Word × Word) :=
  [(0x00000000, 0xFFFFFFFF), (0x01000000, 0xFFFFFFC0), (0x02000000, 0xFFFFFFC0), (0x03000000, 0xFFFFFFC0),
   (0x04000000, 0xFFFFFFC0), (0x05000000, 0xFFFFFFC0), (0x06000000, 0xFFFFFFC0), (0x07000000, 0xFFFFFFC0),
   (0x08000000, 0xFFFFFFFF), (0x09000000, 0xFFFFFFFF), (0x0A000000, 0xFFFFFFFF), (0x10000000, 0xFFFFFFC0),
   (0x11000000, 0xFFFFFFC0), (0x12000000, 0xFFFFFFC0), (0x13000000, 0xFFFFFFC0), (0x14000000, 0xFFFFFFC0),
   (0x7F000000, 0xFFFFFFFF)]

/-- The word is a command of R92. -/
def Listed (w : Word) : Prop := ∃ row ∈ commandTable, w &&& row.2 = row.1

/-- The channel operand of a command that takes one (R92). -/
def commandChannel : Instr → Option Chan
  | .swBind c | .unbind c | .register c | .deregister c | .start c | .stop c | .rearm c
  | .dmaSetup c | .dmaAcquire c | .dmaRelease c | .dmaCancel c | .dmaTeardown c => some c
  | .nop | .awaitSet | .grpStart | .grpStop | .softReset | .pktStart _ _ _ _ | .pktCont _ _ _ _
  | .fill _ _ | .regWr _ _ | .regRd _ => none

/-! ### Invariants -/

/-- All ring fields of R41 to R45 are 0. -/
structure RingFieldsZero (k : Slot) : Prop where
  ringBase : k.ringBase = 0
  slotSize : k.slotSize = 0
  ringB : k.ringB = 0
  lastReturned : k.lastReturned = 0
  fillIdx : k.fillIdx = 0
  heldIdx : k.heldIdx = 0
  ring : ∀ i, k.ringAt i = .absent
  heldValid : k.heldValid = false
  acqPending : k.acqPending = false
  lastN : k.lastN = 0
  acqCode : k.acqCode = .ok
  acqDone : k.acqDone = false

/-- The invariants (i) to (vii) and (ix) of R48 for one channel slot. -/
structure SlotInv (memBytes : Nat) (k : Slot) : Prop where
  /-- (i) -/
  offset : k.woff.toNat ≤ k.expected.toNat
  /-- (ii) -/
  complete : k.progress = .complete → k.caplen = k.expected ∧ k.woff = 0
  /-- (iii) -/
  inProgress : k.progress = .inProgress → k.woff.toNat < k.expected.toNat
  /-- (iv) -/
  idle : k.progress = .idle → k.woff = 0
  /-- (v) -/
  registered : k.registered = true → k.inUse = true ∧ k.mode = .software
  receiving : k.receiving = true → k.registered = true
  /-- (vi): the only content of a free slot is the record of a cancelled acquire (R197). -/
  free : k.inUse = false →
    k = Slot.reset ∨ k = { Slot.reset with acqDone := true, acqCode := .eCancelled }
  /-- (vii) -/
  software : k.inUse = true → k.mode = .software →
    1 ≤ k.expected.toNat ∧ k.dest.toNat + k.expected.toNat ≤ memBytes ∧ RingFieldsZero k
  /-- (ix) -/
  running : k.progress = .inProgress → k.registered = true ∧ k.receiving = true

/-- The invariants of R49 for the slot of a channel that holds a ring. -/
structure RingInv (memBytes : Nat) (k : Slot) : Prop where
  /-- (i) -/
  held : k.heldValid = true → ∀ i < 16, k.ringAt i = .handedToCaller ↔ i = k.heldIdx.toNat
  notHeld : k.heldValid = false → ∀ i < 16, k.ringAt i ≠ .handedToCaller
  /-- (ii) -/
  size : 1 ≤ k.ringB.toNat ∧ k.ringB.toNat ≤ 16
  present : ∀ i < k.ringB.toNat, k.ringAt i ≠ .absent
  absent : ∀ i < 16, k.ringB.toNat ≤ i → k.ringAt i = .absent
  pointers : k.lastReturned.toNat < k.ringB.toNat ∧ k.fillIdx.toNat < k.ringB.toNat ∧
    k.heldIdx.toNat < k.ringB.toNat
  /-- (iii) -/
  region : 1 ≤ k.expected.toNat ∧ k.expected.toNat ≤ k.slotSize.toNat ∧
    k.ringBase.toNat + k.ringB.toNat * k.slotSize.toNat ≤ memBytes
  /-- (iv) and (viii): the filled slots are contiguous from `next_expected`, and `fill_idx` follows them. -/
  filled : ∃ n ≤ k.ringB.toNat,
    (∀ i < 16, k.ringAt i = .filledPending ↔ ∃ j < n, i = (k.lastReturned.toNat + 1 + j) % k.ringB.toNat) ∧
    k.fillIdx.toNat = (k.lastReturned.toNat + 1 + n) % k.ringB.toNat
  /-- (v) -/
  heldLast : k.heldValid = true → k.heldIdx = k.lastReturned
  /-- (vi) -/
  pending : k.acqPending = true → k.heldValid = false ∧ ∀ i < 16, k.ringAt i ≠ .filledPending
  /-- (vii) -/
  quiet : k.progress = .idle ∧ k.woff = 0 ∧ k.registered = false ∧ k.receiving = false ∧
    k.ovf = false ∧ k.desync = false ∧ k.wdcnt = 0 ∧ k.wdlim = 0 ∧ k.caplen = 0

/-- R48 for the machine: every existing slot meets its invariants, a slot of no channel is untouched (log 14), and
`awaiting <= NCH` (viii). -/
structure ChannelsInv (s : State) : Prop where
  slot : ∀ c : Chan, c.toNat < s.nch → SlotInv s.params.memBytes (s.slot c)
  noSlot : ∀ c : Chan, s.nch ≤ c.toNat → s.slot c = Slot.reset
  awaiting : s.awaiting.toNat ≤ s.nch

/-- R49 for the machine. -/
def RingsInv (s : State) : Prop := ∀ c : Chan, (s.slot c).isDma = true → RingInv s.params.memBytes (s.slot c)

/-- Frame memory is in canonical form and lists no byte that does not exist (R70). -/
structure MemoryInv (s : State) : Prop where
  canonical : s.mem.wf
  inside : ∀ x ∈ s.mem, x.1 < s.params.memBytes

/-! ### Events -/

/-- The event is one the spec describes: a host access to frame memory stays inside it (R70), a packet has exactly
`len` payload bytes (R100), and the frame of a fill has exactly `ch[c].expected` bytes (R102). -/
def Presentable (s : State) : Event → Prop
  | .hostMemRead addr n => addr + n ≤ s.params.memBytes
  | .hostMemWrite addr v => addr + v.length ≤ s.params.memBytes
  | .input (.packet _ _ len p) => p.length = len.toNat
  | .input (.fill c f) => f.length = (s.slot c).expected.toNat
  | .input (.command _) => True
  | .input (.access _ _ _) => True

/-- Where a packet that is not dropped starts to copy (R122, R123, R124): a frame start at offset 0, any packet of a
frame in progress at `woff`. -/
def copyOffset : Instr → Slot → Option Nat
  | .pktStart _ _ _ _, k =>
    match k.progress with
    | .idle => some 0
    | .inProgress => some k.woff.toNat
    | .complete => none
  | .pktCont _ _ _ _, k =>
    match k.progress with
    | .idle => none
    | .inProgress => some k.woff.toNat
    | .complete => none
  | _, _ => none

/-- `wdcnt` after one more packet (R130). -/
def nextWdcnt (k : Slot) : Nat := min (k.wdcnt.toNat + 1) (2 ^ 32 - 1)

/-- The watchdog fires on a packet that completes no frame (R130). -/
abbrev WatchdogFires (k : Slot) : Prop := k.wdlim ≠ 0 ∧ k.wdlim.toNat ≤ nextWdcnt k

/-- The packet instruction of channel `c` with these fields. -/
def IsPacket (i : Instr) (c : Chan) (len : Word) (p : List Byte) : Prop :=
  ∃ hdr, i = .pktStart c hdr len p ∨ i = .pktCont c hdr len p

/-- The packet is delivered to its channel (R121). -/
def Delivered (s : State) (c : Chan) : Prop :=
  c.toNat < s.nch ∧ (s.slot c).registered = true ∧ (s.slot c).receiving = true

/-! ### Groups -/

/-- Bit `c` of the group mask `{ARG1, ARG0}` (R93). -/
def selected (s : State) (i : Nat) : Bool := if i < 32 then s.arg0.getLsbD i else s.arg1.getLsbD (i - 32)

/-- The mask names existing channels only (R153). -/
def GoodMask (s : State) : Prop := ∀ i < 64, selected s i = true → i < s.nch

/-- The slot may become a member of a group start (R154). -/
abbrev Startable (k : Slot) : Prop := k.inUse = true ∧ k.mode = .software ∧ k.registered = false

/-- The requests that start members (R154). -/
def startRequests (group : List Chan) : List Request := group.flatMap fun c => [.xpReg c, .xpStart c]

/-- The requests that undo members, in the given order (R155). -/
def undoRequests (group : List Chan) : List Request := group.flatMap fun c => [.xpStop c, .xpDereg c]

/-- The requests a tear-down of one channel sends (R156, R205). -/
def tearRequests (k : Slot) (c : Chan) : List Request :=
  (if k.receiving then [.xpStop c] else []) ++ (if k.registered then [.xpDereg c] else [])

/-- The outcome a failed tear-down request reports (R156, R205). -/
def FailureReported (r : Request) (t : State) : Prop :=
  match r with
  | .xpStop c => Finished .eXport .stop c t
  | .xpDereg c => Finished .eXport .deregister c t
  | .xpReg _ | .xpStart _ | .dmaListen _ _ _ | .dmaUnlisten _ => False

/-- The bytes of frame memory a channel's session may have written: its buffer, or its ring (R77). -/
def inRegion (k : Slot) (a : Nat) : Prop :=
  if k.mode = .software then k.dest.toNat ≤ a ∧ a < k.dest.toNat + k.expected.toNat
  else k.ringBase.toNat ≤ a ∧ a < k.ringBase.toNat + k.ringB.toNat * k.slotSize.toNat

/-- The packets of one channel as events, in order: header word and payload each. -/
def packetEvents (c : Chan) (ps : List (Word × List Byte)) : List Event :=
  ps.map fun x => .input (.packet c x.1 (BitVec.ofNat 32 x.2.length) x.2)

/-- The payload bytes of packets, joined in order. -/
def joinPayloads (ps : List (Word × List Byte)) : List Byte := ps.flatMap fun x => x.2

end Sys2Proof.Machine
end

