-- ==== Sys2Proof/Certificates/Slice0/Obligations.lean ====
section
/-! DEFINITION. The statements for the provers. Each names the rule of spec/ it formalises. -/

open Sys2Proof Sys2Proof.Machine

/-! ### Reset, step and decoding -/

/-- R50: every state element is 0 after reset, and the read-only views read their values, with the parameters at the
defaults of R7 (log 1). -/
def Obligations.ResetLeavesEveryRegisterZero : Prop :=
  (State.reset.arg0 = 0 ∧ State.reset.arg1 = 0 ∧ State.reset.arg2 = 0 ∧ State.reset.ret0 = 0 ∧ State.reset.ret1 = 0) ∧
  (State.reset.result.word = 0 ∧ State.reset.awaiting = 0 ∧ State.reset.irqStatus = 0 ∧
    State.reset.irqEnable = 0 ∧ State.reset.irq = false) ∧
  (∀ c : Chan, ∀ k, k = State.reset.slot c →
    (k.progress = .idle ∧ k.inUse = false ∧ k.mode = .software ∧ k.registered = false ∧ k.receiving = false) ∧
    (k.ovf = false ∧ k.desync = false ∧ k.ringOvr = false ∧ k.heldValid = false ∧ k.acqPending = false) ∧
    (k.dest = 0 ∧ k.woff = 0 ∧ k.expected = 0 ∧ k.caplen = 0 ∧ k.wdcnt = 0 ∧ k.wdlim = 0) ∧
    (k.ringBase = 0 ∧ k.slotSize = 0 ∧ k.ringB = 0 ∧ k.lastReturned = 0 ∧ k.fillIdx = 0 ∧ k.heldIdx = 0) ∧
    (∀ i, k.ringAt i = .absent) ∧ k.lastN = 0 ∧ k.acqCode.num = 0 ∧ k.acqDone = false) ∧
  readReg State.reset 0x0000 = 0x49505246 ∧ readReg State.reset 0x0004 = 0x01001040 ∧
  readReg State.reset 0x0028 = 1

/-- A step takes the first waiting event and runs the instruction it decodes to (R9); with none waiting the block
waits (R270). The list of waiting events is the model's (log 2). -/
def Obligations.StepRunsDecodedInstruction : Prop :=
  ∀ s : State, (s.events = [] → step s = .next s) ∧
    ∀ x i rest, s.events = .input x :: rest → decodeInput x = .ok i → i.WellFormed →
      step s = exec i { s with events := rest }

/-- R95: a command word that R92 does not list is refused with `E_BADOP` and changes nothing but `RESULT`, whether
it comes as the register write to `CMD` or as a command event. That both are one event is read from R25 and R110
(log 11), and the waiting events are the model's (log 2). -/
def Obligations.UnlistedCommandRefused : Prop :=
  ∀ (s : State) (w : Word), ¬ Listed w →
    (∃ t, exec (.regWr 0x0014 w) s = .next t ∧ OnlyResult .eBadOp .decode 0 s t) ∧
    ∀ rest, s.events = .input (.command w) :: rest →
      ∃ t, step s = .next t ∧ OnlyResult .eBadOp .decode 0 { s with events := rest } t

/-- A few command words, packets and accesses of R92, R101 and R103, decoded. -/
def Obligations.WrittenOutWordsDecode : Prop :=
  decodeCommand 0x00000000 = .ok .nop ∧ decodeCommand 0x01000003 = .ok (.swBind 3) ∧
  decodeCommand 0x09000000 = .ok .grpStart ∧ decodeCommand 0x11000005 = .ok (.dmaAcquire 5) ∧
  decodeCommand 0x7F000000 = .ok .softReset ∧
  decodeInput (.packet 3 0xABCDEF01 2 [1, 2]) = .ok (.pktStart 3 0xABCDEF01 2 [1, 2]) ∧
  decodeInput (.packet 3 0xABCDEF00 2 [1, 2]) = .ok (.pktCont 3 0xABCDEF00 2 [1, 2]) ∧
  decodeInput (.access true 0x0008 7) = .ok (.regWr 0x0008 7)

/-- Decoding the encoding of a well-formed instruction gives it back (R90 to R103). -/
def Obligations.DecodeOfEncode : Prop :=
  ∀ i : Instr, i.WellFormed → decodeInput (encode i) = .ok i

/-- What decodes is well-formed, and its encoding is the input it came from; of a register read, whose `wdata` means
nothing (R103), all but that field. -/
def Obligations.EncodeOfDecode : Prop :=
  ∀ x i, decodeInput x = .ok i →
    i.WellFormed ∧ (encode i = x ∨ ∃ addr w, x = .access false addr w ∧ encode i = .access false addr 0)

/-- R25: a write of a command word to `CMD` executes the command; `CMD` reads 0. -/
def Obligations.CmdWriteExecutesCommand : Prop :=
  ∀ (s : State) (w : Word), readReg s 0x0014 = 0 ∧
    ∀ i, decodeCommand w = .ok i → exec (.regWr 0x0014 w) s = exec i s

/-- Step (2) of R91: a command whose channel operand is `>= NCH` is `finish(E_BADCH, DECODE, ch)` and nothing else. -/
def Obligations.BadChannelRefused : Prop :=
  ∀ (s : State) (i : Instr) (c : Chan), commandChannel i = some c → s.nch ≤ c.toNat →
    ∃ t, exec i s = .next t ∧ OnlyResult .eBadCh .decode c s t

/-! ### Session commands -/

/-- R234: `NOP` changes nothing but `RESULT`, which becomes `0x80000000`. -/
def Obligations.NopWritesOnlyResult : Prop :=
  ∀ s : State, ∃ t, exec .nop s = .next t ∧ OnlyResult .ok .none 0 s t ∧ t.result.word = 0x80000000

/-- R201 and R203: `SW_BIND` refuses a used channel, a frame of no bytes and a buffer outside frame memory (checked
without wrap-around), and binds any other; the record of R45 is cleared with the rest (log 13). -/
def Obligations.SwBindResult : Prop :=
  ∀ (s : State) (c : Chan), c.toNat < s.nch →
    ∃ t, exec (.swBind c) s = .next t ∧
      if (s.slot c).inUse then OnlyResult .eBusy .bind c s t
      else if s.arg1 = 0 then OnlyResult .eArg .bind c s t
      else if s.params.memBytes < s.arg0.toNat + s.arg1.toNat then OnlyResult .eRange .bind c s t
      else
        Finished .ok .none c t ∧
        t.slot c = { s.slot c with
          inUse := true, mode := .software, dest := s.arg0, expected := s.arg1, wdlim := s.arg2,
          progress := .idle, woff := 0, caplen := 0, wdcnt := 0, ovf := false, desync := false,
          lastN := 0, acqCode := .ok, acqDone := false, acqPending := false } ∧
        OtherSlotsSame c s t ∧ SameMemory s t ∧ NoRequest s t ∧ KeepsGlobals s t

/-- R205: `UNBIND` of a free channel does nothing, of a ring is refused, of a software session stops and deregisters
it if need be, clears the slot whatever the answers, and reports the first failure. Where the answers come from is
the model's (logs 3, 4), here and in every statement that names them. -/
def Obligations.UnbindResult : Prop :=
  ∀ (s : State) (c : Chan), c.toNat < s.nch →
    ∃ t, exec (.unbind c) s = .next t ∧
      if (s.slot c).inUse = false then OnlyResult .ok .none c s t
      else if (s.slot c).mode = .dma then OnlyResult .eState .bind c s t
      else
        t.slot c = Slot.reset ∧ OtherSlotsSame c s t ∧ SameMemory s t ∧ KeepsGlobals s t ∧
        Sends (tearRequests (s.slot c) c) s t ∧
        if (s.slot c).receiving = true ∧ (s.answerTo (.xpStop c)).ok = false then Finished .eXport .stop c t
        else if (s.slot c).registered = true ∧
            ((if (s.slot c).receiving then s.sent (.xpStop c) else s).answerTo (.xpDereg c)).ok = false then
          Finished .eXport .deregister c t
        else Finished .ok .none c t

/-- R207: `REGISTER` (answers: logs 3, 4). -/
def Obligations.RegisterResult : Prop :=
  ∀ (s : State) (c : Chan), c.toNat < s.nch →
    ∃ t, exec (.register c) s = .next t ∧
      if ¬ Startable (s.slot c) then OnlyResult .eState .register c s t
      else
        OtherSlotsSame c s t ∧ SameMemory s t ∧ KeepsGlobals s t ∧ Sends [.xpReg c] s t ∧
        if (s.answerTo (.xpReg c)).ok then
          Finished .ok .none c t ∧ t.slot c = { s.slot c with registered := true }
        else Finished .eXport .register c t ∧ t.slot c = s.slot c

/-- R209: `DEREGISTER`. The bit is cleared whatever the transport answers (logs 3, 4). -/
def Obligations.DeregisterResult : Prop :=
  ∀ (s : State) (c : Chan), c.toNat < s.nch →
    ∃ t, exec (.deregister c) s = .next t ∧
      if (s.slot c).registered = false then OnlyResult .ok .none c s t
      else if (s.slot c).receiving then OnlyResult .eState .deregister c s t
      else
        t.slot c = { s.slot c with registered := false } ∧
        OtherSlotsSame c s t ∧ SameMemory s t ∧ KeepsGlobals s t ∧ Sends [.xpDereg c] s t ∧
        if (s.answerTo (.xpDereg c)).ok then Finished .ok .none c t else Finished .eXport .deregister c t

/-- R211: `START` (answers: logs 3, 4). -/
def Obligations.StartResult : Prop :=
  ∀ (s : State) (c : Chan), c.toNat < s.nch →
    ∃ t, exec (.start c) s = .next t ∧
      if (s.slot c).registered = false ∨ (s.slot c).receiving = true then OnlyResult .eState .start c s t
      else
        OtherSlotsSame c s t ∧ SameMemory s t ∧ KeepsGlobals s t ∧ Sends [.xpStart c] s t ∧
        if (s.answerTo (.xpStart c)).ok then
          Finished .ok .none c t ∧ t.slot c = { s.slot c with receiving := true }
        else Finished .eXport .start c t ∧ t.slot c = s.slot c

/-- R213: `STOP` of a receiving channel clears the bit whatever the answer and abandons a frame in flight; a
`Complete` frame is kept (answers: logs 3, 4). -/
def Obligations.StopResult : Prop :=
  ∀ (s : State) (c : Chan), c.toNat < s.nch →
    ∃ t, exec (.stop c) s = .next t ∧
      if (s.slot c).receiving = false then OnlyResult .ok .none c s t
      else
        t.slot c =
          (if (s.slot c).progress = .inProgress then
            { s.slot c with receiving := false, progress := .idle, woff := 0, wdcnt := 0 }
          else { s.slot c with receiving := false }) ∧
        OtherSlotsSame c s t ∧ SameMemory s t ∧ KeepsGlobals s t ∧ Sends [.xpStop c] s t ∧
        if (s.answerTo (.xpStop c)).ok then Finished .ok .none c t else Finished .eXport .stop c t

/-- R215: `REARM`. -/
def Obligations.RearmResult : Prop :=
  ∀ (s : State) (c : Chan), c.toNat < s.nch →
    ∃ t, exec (.rearm c) s = .next t ∧
      if (s.slot c).inUse = true ∧ (s.slot c).mode = .software then
        Finished .ok .none c t ∧
        t.slot c = { s.slot c with
          progress := .idle, woff := 0, caplen := 0, wdcnt := 0, ovf := false, desync := false } ∧
        OtherSlotsSame c s t ∧ SameMemory s t ∧ NoRequest s t ∧ KeepsGlobals s t
      else OnlyResult .eState .bind c s t

/-! ### The sync monitor -/

/-- R152: `AWAIT_SET`. -/
def Obligations.AwaitSetResult : Prop :=
  ∀ s : State, ∃ t, exec .awaitSet s = .next t ∧
    if s.nch < s.arg0.toNat then OnlyResult .eArg .decode 0 s t
    else
      Finished .ok .none 0 t ∧ t.awaiting = s.arg0 ∧ t.irqStatus = s.irqStatus ∧ t.ret0 = s.ret0 ∧
      t.ret1 = s.ret1 ∧ KeepsHostSide s t ∧ SameSlots s t ∧ SameMemory s t ∧ NoRequest s t

/-- R93 (a) and R153: the members are the channels whose mask bit is set, in ascending order. -/
def Obligations.GroupMembersAscending : Prop :=
  ∀ s : State, (∀ c : Chan, c ∈ members s.groupMask ↔ selected s c.toNat = true) ∧
    (members s.groupMask).Pairwise fun c d => c.toNat < d.toNat

/-- R153 and the empty mask of R154: a mask bit that names no channel refuses both group commands and the lowest such
bit is reported; `GRP_START` of no channel is `E_ARG`. -/
def Obligations.GroupOperandChecked : Prop :=
  ∀ s : State,
    (∀ c : Chan, selected s c.toNat = true → s.nch ≤ c.toNat →
      (∀ d : Chan, d.toNat < c.toNat → selected s d.toNat = true → d.toNat < s.nch) →
      (∃ t, exec .grpStart s = .next t ∧ OnlyResult .eBadCh .decode c s t) ∧
      ∃ t, exec .grpStop s = .next t ∧ OnlyResult .eBadCh .decode c s t) ∧
    (s.arg0 = 0 → s.arg1 = 0 → ∃ t, exec .grpStart s = .next t ∧ OnlyResult .eArg .decode 0 s t)

/-- R154, every member startable and every answer positive, wherever it comes from (logs 3, 4): each member is
re-armed, registered and receiving, `awaiting` is their number, and the requests go out member by member in ascending
order. -/
def Obligations.GrpStartStartsEveryMember : Prop :=
  ∀ s : State, GoodMask s → ¬ (s.arg0 = 0 ∧ s.arg1 = 0) →
    (∀ c : Chan, selected s c.toNat = true → Startable (s.slot c)) →
    (∀ a ∈ s.answersTo (startRequests (members s.groupMask)), a.ok = true) →
    ∃ t, exec .grpStart s = .next t ∧ Finished .ok .none 0 t ∧
      t.awaiting.toNat = (members s.groupMask).length ∧
      (∀ c : Chan, t.slot c =
        if selected s c.toNat then
          { s.slot c with
            progress := .idle, woff := 0, caplen := 0, wdcnt := 0, ovf := false, desync := false,
            registered := true, receiving := true }
        else s.slot c) ∧
      Sends (startRequests (members s.groupMask)) s t ∧
      SameMemory s t ∧ KeepsHostSide s t ∧ t.ret0 = s.ret0 ∧ t.ret1 = s.ret1 ∧ t.irqStatus = s.irqStatus

/-- R154 and R155: the first member that fails is named with its step; the members before it, started with positive
answers, are undone in reverse order; the members after it are untouched. The answers may come from anywhere
(logs 3, 4); `u` is the state that answers the failing member's requests. -/
def Obligations.GrpStartRollsBack : Prop :=
  ∀ (s u : State) (before after : List Chan) (c : Chan), GoodMask s →
    members s.groupMask = before ++ c :: after → (∀ d ∈ before, Startable (s.slot d)) →
    (∀ a ∈ s.answersTo (startRequests before), a.ok = true) → u = s.sentAll (startRequests before) →
    (¬ Startable (s.slot c) ∨ (u.answerTo (.xpReg c)).ok = false ∨
      ((u.sent (.xpReg c)).answerTo (.xpStart c)).ok = false) →
    ∃ t, exec .grpStart s = .next t ∧
      t.awaiting.toNat = (members s.groupMask).length ∧
      (∀ d ∈ before, t.slot d =
        { s.slot d with
          progress := .idle, woff := 0, caplen := 0, wdcnt := 0, ovf := false, desync := false,
          registered := false, receiving := false }) ∧
      (∀ d, d ∉ before → d ≠ c → t.slot d = s.slot d) ∧
      SameMemory s t ∧ KeepsHostSide s t ∧ t.ret0 = s.ret0 ∧ t.ret1 = s.ret1 ∧ t.irqStatus = s.irqStatus ∧
      (¬ Startable (s.slot c) → Finished .eState .bind c t ∧ t.slot c = s.slot c ∧
        Sends (startRequests before ++ undoRequests before.reverse) s t) ∧
      (Startable (s.slot c) → t.slot c =
        { s.slot c with progress := .idle, woff := 0, caplen := 0, wdcnt := 0, ovf := false, desync := false }) ∧
      (Startable (s.slot c) → (u.answerTo (.xpReg c)).ok = false → Finished .eXport .register c t ∧
        Sends (startRequests before ++ [.xpReg c] ++ undoRequests before.reverse) s t) ∧
      (Startable (s.slot c) → (u.answerTo (.xpReg c)).ok = true →
        Finished .eXport .start c t ∧
        Sends (startRequests before ++ [.xpReg c, .xpStart c, .xpDereg c] ++ undoRequests before.reverse) s t)

/-- R154, "no partial-success state may be returned to the caller", by the rollback of R155: a group start that did not
end `OK` leaves every channel as it was or re-armed, so none registered or receiving that was not. -/
def Obligations.GrpStartAllOrNothing : Prop :=
  ∀ s t : State, ChannelsInv s → exec .grpStart s = .next t → t.result.code ≠ .ok →
    ∀ c : Chan, t.slot c = s.slot c ∨
      t.slot c = { s.slot c with
        progress := .idle, woff := 0, caplen := 0, wdcnt := 0, ovf := false, desync := false }

/-- R156: `GRP_STOP` stops and deregisters every member whatever the answers are, abandons a frame in flight and keeps
a `Complete` one, leaves `awaiting` alone, and reports the first failure in request order, wherever the answers come
from (logs 3, 4). -/
def Obligations.GrpStopStopsEveryMember : Prop :=
  ∀ s : State, GoodMask s →
    ∃ t, exec .grpStop s = .next t ∧
      (∀ c : Chan, t.slot c =
        if selected s c.toNat then
          (if (s.slot c).receiving = true ∧ (s.slot c).progress = .inProgress then
            { s.slot c with registered := false, receiving := false, progress := .idle, woff := 0, wdcnt := 0 }
          else { s.slot c with registered := false, receiving := false })
        else s.slot c) ∧
      SameMemory s t ∧ KeepsGlobals s t ∧
      (∀ rs, rs = (members s.groupMask).flatMap (fun c => tearRequests (s.slot c) c) →
        Sends rs s t ∧
        ((∀ a ∈ s.answersTo rs, a.ok = true) → Finished .ok .none 0 t) ∧
        ∀ (n : Nat) (r : Request) (a : Answer), rs[n]? = some r → (s.answersTo rs)[n]? = some a → a.ok = false →
          (∀ j < n, ∀ b : Answer, (s.answersTo rs)[j]? = some b → b.ok = true) → FailureReported r t)

/-! ### The DMA ring -/

/-- R175 to R177: `DMA_SETUP` (answers: logs 3, 4). The fields the pseudocode of R175 leaves as they were in the free
slot are set to 0, as R36, R38 and R39 say (log 13). -/
def Obligations.DmaSetupResult : Prop :=
  ∀ (s : State) (c : Chan) (r : Answer), c.toNat < s.nch → r = s.answerTo (.dmaListen c s.arg2 s.arg1) →
    ∃ t, exec (.dmaSetup c) s = .next t ∧ SameMemory s t ∧
      if (s.slot c).inUse then OnlyResult .eBusy .bind c s t
      else if s.arg2.toNat < 1 ∨ 16 < s.arg2.toNat then OnlyResult .eArg .bind c s t
      else if s.arg1 = 0 then OnlyResult .eArg .bind c s t
      else if r.ok = false then
        Finished .eDma .listen c t ∧ SameSlots s t ∧ KeepsGlobals s t ∧ Sends [.dmaListen c s.arg2 s.arg1] s t
      else if r.size.toNat < s.arg1.toNat then
        Finished .eXsize .listen c t ∧ SameSlots s t ∧ KeepsGlobals s t ∧
        Sends [.dmaListen c s.arg2 s.arg1, .dmaUnlisten c] s t
      else if s.params.memBytes < s.arg0.toNat + s.arg2.toNat * r.size.toNat then
        Finished .eRange .map c t ∧ SameSlots s t ∧ KeepsGlobals s t ∧
        Sends [.dmaListen c s.arg2 s.arg1, .dmaUnlisten c] s t
      else
        Finished .ok .none c t ∧ Sends [.dmaListen c s.arg2 s.arg1] s t ∧
        t.ret0 = r.size ∧ t.ret1 = s.arg2 ∧ t.awaiting = s.awaiting ∧ t.irqStatus = s.irqStatus ∧
        KeepsHostSide s t ∧ OtherSlotsSame c s t ∧
        t.slot c = { s.slot c with
          inUse := true, mode := .dma, expected := s.arg1, slotSize := r.size, ringBase := s.arg0,
          ringB := (t.slot c).ringB, ring := (t.slot c).ring, lastReturned := (t.slot c).lastReturned,
          fillIdx := 0, heldValid := false, heldIdx := 0, acqPending := false, lastN := 0, acqCode := .ok,
          acqDone := false, ringOvr := false, dest := 0, woff := 0, caplen := 0, wdcnt := 0, wdlim := 0 } ∧
        (t.slot c).ringB.toNat = s.arg2.toNat ∧ (t.slot c).lastReturned.toNat = s.arg2.toNat - 1 ∧
        ∀ i < 16, (t.slot c).ringAt i = if i < s.arg2.toNat then .queuedEmpty else .absent

/-- The checks of R185, and the pending acquire (R187): with no filled slot the command ends `PENDING` and the
channel is left with `acq_pending` = 1. -/
def Obligations.DmaAcquireChecksAndPends : Prop :=
  ∀ (s : State) (c : Chan), c.toNat < s.nch →
    (¬ ((s.slot c).inUse = true ∧ (s.slot c).mode = .dma ∧ (s.slot c).acqPending = false) →
      ∃ t, exec (.dmaAcquire c) s = .next t ∧ OnlyResult .eState .acquire c s t) ∧
    ((s.slot c).inUse = true → (s.slot c).mode = .dma → (s.slot c).acqPending = false →
      ((s.slot c).heldValid = true →
        ∃ t, exec (.dmaAcquire c) s = .next t ∧ OnlyResult .eHeld .acquire c s t) ∧
      ((s.slot c).heldValid = false → (∀ i < 16, (s.slot c).ringAt i ≠ .filledPending) →
        ∃ t, exec (.dmaAcquire c) s = .next t ∧ Finished .pending .none c t ∧
          t.slot c = { s.slot c with acqPending := true, acqDone := false, acqCode := .ok } ∧
          OtherSlotsSame c s t ∧ SameMemory s t ∧ NoRequest s t ∧ KeepsGlobals s t))

/-- R185 and R186: with `n >= 1` slots filled from `next_expected` on, an acquire hands the newest of them to the
caller, re-queues the `n-1` older ones, and returns the view's address and `{newest, n}`. -/
def Obligations.DmaAcquireHandsNewest : Prop :=
  ∀ (s : State) (c : Chan) (k : Slot) (n b ne nw : Nat), c.toNat < s.nch → k = s.slot c →
    k.inUse = true → k.mode = .dma → k.acqPending = false → k.heldValid = false →
    b = k.ringB.toNat → 1 ≤ b → b ≤ 16 → 1 ≤ n → n ≤ b → ne = (k.lastReturned.toNat + 1) % b →
    nw = (ne + n - 1) % b → (∀ j < n, k.ringAt ((ne + j) % b) = .filledPending) →
    (n < b → k.ringAt ((ne + n) % b) ≠ .filledPending) →
    ∃ t, exec (.dmaAcquire c) s = .next t ∧ Finished .ok .none c t ∧
      (∀ i < 16, (t.slot c).ringAt i =
        if i = nw then .handedToCaller
        else if ∃ j < n, i = (ne + j) % b then .queuedEmpty else k.ringAt i) ∧
      t.slot c = { k with
        ring := (t.slot c).ring, heldValid := true, heldIdx := BitVec.ofNat 4 nw,
        lastReturned := BitVec.ofNat 4 nw,
        dest := BitVec.ofNat 32 (k.ringBase.toNat + nw * k.slotSize.toNat),
        lastN := BitVec.ofNat 5 n, acqDone := true, acqCode := .ok } ∧
      t.ret0 = BitVec.ofNat 32 (k.ringBase.toNat + nw * k.slotSize.toNat) ∧
      t.ret1 = BitVec.ofNat 32 (nw * 256 + n) ∧
      t.awaiting = s.awaiting ∧ t.irqStatus = s.irqStatus ∧ KeepsHostSide s t ∧ OtherSlotsSame c s t ∧
      SameMemory s t ∧ NoRequest s t

/-- R190: `DMA_RELEASE`. -/
def Obligations.DmaReleaseResult : Prop :=
  ∀ (s : State) (c : Chan), c.toNat < s.nch →
    ∃ t, exec (.dmaRelease c) s = .next t ∧
      if ¬ ((s.slot c).inUse = true ∧ (s.slot c).mode = .dma) then OnlyResult .eState .release c s t
      else if (s.slot c).heldValid = false then OnlyResult .eNotHeld .release c s t
      else
        Finished .ok .none c t ∧
        (∀ i < 16, (t.slot c).ringAt i =
          if i = (s.slot c).heldIdx.toNat then .queuedEmpty else (s.slot c).ringAt i) ∧
        t.slot c = { s.slot c with heldValid := false, ring := (t.slot c).ring } ∧
        OtherSlotsSame c s t ∧ SameMemory s t ∧ NoRequest s t ∧ KeepsGlobals s t

/-- R192: `DMA_CANCEL`. -/
def Obligations.DmaCancelResult : Prop :=
  ∀ (s : State) (c : Chan), c.toNat < s.nch →
    ∃ t, exec (.dmaCancel c) s = .next t ∧
      if ¬ ((s.slot c).inUse = true ∧ (s.slot c).mode = .dma) then OnlyResult .eState .acquire c s t
      else if (s.slot c).acqPending = false then OnlyResult .ok .none c s t
      else
        Finished .ok .none c t ∧
        t.slot c = { s.slot c with acqPending := false, acqDone := true, acqCode := .eCancelled } ∧
        t.irqStatus = s.irqStatus ||| 0x08 ∧ t.awaiting = s.awaiting ∧ t.ret0 = s.ret0 ∧ t.ret1 = s.ret1 ∧
        KeepsHostSide s t ∧ OtherSlotsSame c s t ∧ SameMemory s t ∧ NoRequest s t

/-- R195 and R197: `DMA_TEARDOWN` clears the slot whatever the collaborator answers; a pending acquire leaves its
record in the freed slot and raises `ACQ` (answers: logs 3, 4). -/
def Obligations.DmaTeardownResult : Prop :=
  ∀ (s : State) (c : Chan), c.toNat < s.nch →
    ∃ t, exec (.dmaTeardown c) s = .next t ∧
      if ¬ ((s.slot c).inUse = true ∧ (s.slot c).mode = .dma) then OnlyResult .ok .none c s t
      else
        (if (s.slot c).acqPending then
          t.slot c = { Slot.reset with acqDone := true, acqCode := .eCancelled } ∧
          t.irqStatus = s.irqStatus ||| 0x08
        else t.slot c = Slot.reset ∧ t.irqStatus = s.irqStatus) ∧
        Sends [.dmaUnlisten c] s t ∧ t.awaiting = s.awaiting ∧ t.ret0 = s.ret0 ∧ t.ret1 = s.ret1 ∧
        KeepsHostSide s t ∧ OtherSlotsSame c s t ∧ SameMemory s t ∧
        if (s.answerTo (.dmaUnlisten c)).ok then Finished .ok .none c t else Finished .eDma .unlisten c t

/-- R180 with no acquire pending: the frame goes to slot `fill_idx`, which becomes `FilledPending`, and `fill_idx`
advances in ring order. Nothing is said of the slot's padding. -/
def Obligations.FillStoresFrame : Prop :=
  ∀ (s : State) (c : Chan) (f : List Byte) (k : Slot) (base : Nat), c.toNat < s.nch → k = s.slot c →
    k.inUse = true → k.mode = .dma → k.acqPending = false → 1 ≤ k.ringB.toNat → k.ringB.toNat ≤ 16 →
    k.ringAt k.fillIdx.toNat = .queuedEmpty → f.length = k.expected.toNat →
    base = k.ringBase.toNat + k.fillIdx.toNat * k.slotSize.toNat → k.expected.toNat ≤ k.slotSize.toNat →
    base + k.expected.toNat ≤ s.params.memBytes →
    ∃ t, exec (.fill c f) s = .next t ∧ PortEventFrame c s t ∧ t.irqStatus = s.irqStatus ∧
      t.awaiting = s.awaiting ∧
      (∀ i < 16, (t.slot c).ringAt i = if i = k.fillIdx.toNat then .filledPending else k.ringAt i) ∧
      (t.slot c).fillIdx.toNat = (k.fillIdx.toNat + 1) % k.ringB.toNat ∧
      t.slot c = { k with ring := (t.slot c).ring, fillIdx := (t.slot c).fillIdx } ∧
      t.readBytes base k.expected.toNat = f.map some ∧
      SameMemoryOutside base k.slotSize.toNat s t

/-- R188: a fill of a channel with an acquire pending hands the slot just filled over in the same event and raises
`ACQ`; `RESULT`, `RET0` and `RET1` stay. -/
def Obligations.FillCompletesPendingAcquire : Prop :=
  ∀ (s : State) (c : Chan) (f : List Byte) (k : Slot) (base : Nat), c.toNat < s.nch → k = s.slot c →
    k.isDma = true → RingInv s.params.memBytes k → k.acqPending = true → f.length = k.expected.toNat →
    base = k.ringBase.toNat + k.fillIdx.toNat * k.slotSize.toNat →
    ∃ t, exec (.fill c f) s = .next t ∧ PortEventFrame c s t ∧ t.irqStatus = s.irqStatus ||| 0x08 ∧
      t.awaiting = s.awaiting ∧
      (∀ i < 16, (t.slot c).ringAt i = if i = k.fillIdx.toNat then .handedToCaller else k.ringAt i) ∧
      (t.slot c).fillIdx.toNat = (k.fillIdx.toNat + 1) % k.ringB.toNat ∧
      t.slot c = { k with
        ring := (t.slot c).ring, fillIdx := (t.slot c).fillIdx, acqPending := false, heldValid := true,
        heldIdx := k.fillIdx, lastReturned := k.fillIdx, dest := (t.slot c).dest, lastN := 1,
        acqDone := true, acqCode := .ok } ∧
      (t.slot c).dest.toNat = base ∧
      t.readBytes base k.expected.toNat = f.map some ∧
      SameMemoryOutside base k.slotSize.toNat s t

/-- R181, R182 and the first line of R180: a fill that finds its slot not `QueuedEmpty` is discarded and recorded; one
for a channel with no ring is ignored; one of no channel raises `BADCH`. That such a fill never looks at its frame,
whatever its length, is read from the order of R180 (log 9). -/
def Obligations.FillWithoutRoom : Prop :=
  ∀ (s : State) (c : Chan) (f : List Byte),
    (s.nch ≤ c.toNat → ∃ t, exec (.fill c f) s = .next t ∧ PortEventFrame c s t ∧ t.slot c = s.slot c ∧
      t.irqStatus = s.irqStatus ||| 0x80 ∧ t.awaiting = s.awaiting ∧ SameMemory s t) ∧
    (c.toNat < s.nch → ¬ ((s.slot c).inUse = true ∧ (s.slot c).mode = .dma) →
      ∃ t, exec (.fill c f) s = .next t ∧ NothingChanges s t) ∧
    (c.toNat < s.nch → (s.slot c).inUse = true → (s.slot c).mode = .dma →
      (s.slot c).ringAt (s.slot c).fillIdx.toNat ≠ .queuedEmpty →
      ∃ t, exec (.fill c f) s = .next t ∧ PortEventFrame c s t ∧
        t.slot c = { s.slot c with ringOvr := true } ∧
        t.irqStatus = s.irqStatus ||| 0x10 ∧ t.awaiting = s.awaiting ∧ SameMemory s t)

/-! ### The packet event -/

/-- R121: a packet of no channel raises `BADCH` and changes nothing else; one whose channel is not both registered and
receiving changes nothing at all. -/
def Obligations.PacketNotDelivered : Prop :=
  ∀ (s : State) (i : Instr) (c : Chan) (len : Word) (p : List Byte), IsPacket i c len p →
    (s.nch ≤ c.toNat → ∃ t, exec i s = .next t ∧ PortEventFrame c s t ∧ t.slot c = s.slot c ∧
      t.irqStatus = s.irqStatus ||| 0x80 ∧ t.awaiting = s.awaiting ∧ SameMemory s t) ∧
    (c.toNat < s.nch → ¬ ((s.slot c).registered = true ∧ (s.slot c).receiving = true) →
      ∃ t, exec i s = .next t ∧ NothingChanges s t)

/-- R128: while a channel is `Complete`, a packet of either kind changes nothing. -/
def Obligations.CompleteGate : Prop :=
  ∀ (s : State) (i : Instr) (c : Chan) (len : Word) (p : List Byte), IsPacket i c len p → c.toNat < s.nch →
    (s.slot c).progress = .complete → ∃ t, exec i s = .next t ∧ NothingChanges s t

/-- R124 (a) and R130: a continuation packet while `Idle` stores nothing and is counted by the watchdog. -/
def Obligations.ContWhileIdleOnlyCounts : Prop :=
  ∀ (s : State) (c : Chan) (hdr len : Word) (p : List Byte), Delivered s c → (s.slot c).progress = .idle →
    ∃ t, exec (.pktCont c hdr len p) s = .next t ∧ PortEventFrame c s t ∧ t.awaiting = s.awaiting ∧
      SameMemory s t ∧
      (WatchdogFires (s.slot c) →
        t.slot c = { s.slot c with desync := true, progress := .idle, woff := 0, wdcnt := 0 } ∧
        t.irqStatus = s.irqStatus ||| 0x04) ∧
      (¬ WatchdogFires (s.slot c) →
        t.slot c = { s.slot c with wdcnt := BitVec.ofNat 32 (nextWdcnt (s.slot c)) } ∧
        t.irqStatus = s.irqStatus)

/-- R123, R124 and R125, a packet that is copied and neither completes the frame nor fires the watchdog: its payload
goes to the buffer at the frame's offset. -/
def Obligations.PacketCopied : Prop :=
  ∀ (s : State) (i : Instr) (c : Chan) (len : Word) (p : List Byte) (k : Slot) (off : Nat),
    IsPacket i c len p → Delivered s c → k = s.slot c → copyOffset i k = some off → p.length = len.toNat →
    k.dest.toNat + k.expected.toNat ≤ s.params.memBytes → off + len.toNat < k.expected.toNat →
    ¬ WatchdogFires k →
    ∃ t, exec i s = .next t ∧ PortEventFrame c s t ∧ t.awaiting = s.awaiting ∧ t.irqStatus = s.irqStatus ∧
      t.slot c = { k with
        progress := .inProgress, woff := BitVec.ofNat 32 (off + len.toNat),
        wdcnt := BitVec.ofNat 32 (nextWdcnt k) } ∧
      t.readBytes (k.dest.toNat + off) len.toNat = p.map some ∧
      SameMemoryOutside (k.dest.toNat + off) len.toNat s t

/-- R130 on a copied packet: at the limit the partial frame is abandoned and the channel waits for the next frame
start; the bytes already written stay. -/
def Obligations.WatchdogAbandonsFrame : Prop :=
  ∀ (s : State) (i : Instr) (c : Chan) (len : Word) (p : List Byte) (k : Slot) (off : Nat),
    IsPacket i c len p → Delivered s c → k = s.slot c → copyOffset i k = some off → p.length = len.toNat →
    k.dest.toNat + k.expected.toNat ≤ s.params.memBytes → off + len.toNat < k.expected.toNat →
    WatchdogFires k →
    ∃ t, exec i s = .next t ∧ PortEventFrame c s t ∧ t.awaiting = s.awaiting ∧
      t.irqStatus = s.irqStatus ||| 0x04 ∧
      t.slot c = { k with progress := .idle, woff := 0, wdcnt := 0, desync := true } ∧
      t.readBytes (k.dest.toNat + off) len.toNat = p.map some ∧
      SameMemoryOutside (k.dest.toNat + off) len.toNat s t

/-- R125 to R127: a packet that brings the frame to its expected size completes it. Only the bytes that fit are
stored, an excess sets `ovf` and `PAY_OVF`, `caplen` latches the size, and `awaiting` counts down to 0. -/
def Obligations.PacketCompletesFrame : Prop :=
  ∀ (s : State) (i : Instr) (c : Chan) (len : Word) (p : List Byte) (k : Slot) (off n : Nat),
    IsPacket i c len p → Delivered s c → k = s.slot c → copyOffset i k = some off → p.length = len.toNat →
    k.dest.toNat + k.expected.toNat ≤ s.params.memBytes → off ≤ k.expected.toNat →
    k.expected.toNat ≤ off + len.toNat → n = k.expected.toNat - off →
    ∃ t, exec i s = .next t ∧ PortEventFrame c s t ∧
      t.slot c = { k with
        progress := .complete, caplen := k.expected, woff := 0, wdcnt := 0,
        ovf := k.ovf || decide (n < len.toNat) } ∧
      t.awaiting.toNat = s.awaiting.toNat - 1 ∧
      t.irqStatus = s.irqStatus ||| 0x02 ||| (if n < len.toNat then 0x20 else 0x00) |||
        (if s.awaiting = 0 then 0x40 else if s.awaiting = 1 then 0x01 else 0x00) ∧
      t.readBytes (k.dest.toNat + off) n = (p.take n).map some ∧
      SameMemoryOutside (k.dest.toNat + off) n s t

/-- R101: bit 0 of the header word alone tells the two packet instructions apart, and no other bit changes
behaviour. -/
def Obligations.HeaderBitZeroDecides : Prop :=
  ∀ (s : State) (c : Chan) (hdr hdr' len : Word) (p : List Byte),
    (p.length = len.toNat → decodeInput (.packet c hdr len p) =
      .ok (if hdr.getLsbD 0 then .pktStart c hdr len p else .pktCont c hdr len p)) ∧
    exec (.pktStart c hdr len p) s = exec (.pktStart c hdr' len p) s ∧
    exec (.pktCont c hdr len p) s = exec (.pktCont c hdr' len p) s

/-! ### The host port -/

/-- R236: `SOFT_RESET` sets every state element to its reset value but `RESULT`, which becomes `0x80000000`; it sends
no request and writes no memory. The model's own fields stay (log 16). -/
def Obligations.SoftResetResult : Prop :=
  ∀ s : State, ∃ t, exec .softReset s = .next t ∧ t.result.word = 0x80000000 ∧
    t.arg0 = 0 ∧ t.arg1 = 0 ∧ t.arg2 = 0 ∧ t.ret0 = 0 ∧ t.ret1 = 0 ∧ t.awaiting = 0 ∧ t.irqStatus = 0 ∧
    t.irqEnable = 0 ∧ (∀ c, t.slot c = Slot.reset) ∧ SameMemory s t ∧ NoRequest s t ∧ t.params = s.params ∧
    t.events = s.events ∧ t.rdata = s.rdata ∧ t.memData = s.memData

/-- R230: a register read returns the register's value, in `rdata` (log 5), and has no side effect. -/
def Obligations.RegisterReadHasNoSideEffect : Prop :=
  ∀ (s : State) (addr : BitVec 16), ∃ t, exec (.regRd addr) s = .next t ∧
    t.rdata = some (readReg s addr) ∧ { t with rdata := s.rdata } = s

/-- R231, every address but that of `CMD`: the operand registers and `IRQ_ENABLE` take the word written,
`IRQ_STATUS` loses the bits written as 1, and nothing else is writable. -/
def Obligations.RegisterWriteResult : Prop :=
  ∀ (s : State) (addr : BitVec 16) (w : Word), addr ≠ 0x0014 → ∃ t, exec (.regWr addr w) s = .next t ∧
    t.arg0 = (if addr = 0x0008 then w else s.arg0) ∧
    t.arg1 = (if addr = 0x000C then w else s.arg1) ∧
    t.arg2 = (if addr = 0x0010 then w else s.arg2) ∧
    (∀ i < 8, t.irqStatus.getLsbD i = (s.irqStatus.getLsbD i && !(decide (addr = 0x002C) && w.getLsbD i))) ∧
    (∀ i < 8, t.irqEnable.getLsbD i = if addr = 0x0030 then w.getLsbD i else s.irqEnable.getLsbD i) ∧
    t.result = s.result ∧ t.ret0 = s.ret0 ∧ t.ret1 = s.ret1 ∧ t.awaiting = s.awaiting ∧ SameSlots s t ∧
    SameMemory s t ∧ NoRequest s t ∧ t.params = s.params ∧ t.events = s.events ∧ t.rdata = s.rdata ∧
    t.memData = s.memData

/-- R29 and R47: which register stands at which address. -/
def Obligations.RegisterMap : Prop :=
  ∀ s : State,
    (readReg s 0x0000 = s.params.idValue ∧ (readReg s 0x0004).toNat = s.nch + 16 * 2 ^ 8 + 2 ^ 24 ∧
      readReg s 0x0008 = s.arg0 ∧ readReg s 0x000C = s.arg1 ∧ readReg s 0x0010 = s.arg2 ∧
      readReg s 0x0018 = s.result.word ∧ readReg s 0x001C = s.ret0 ∧ readReg s 0x0020 = s.ret1 ∧
      readReg s 0x0024 = s.awaiting ∧ readReg s 0x0028 = (if s.awaiting = 0 then 1 else 0) ∧
      readReg s 0x002C = s.irqStatus.setWidth 32 ∧ readReg s 0x0030 = s.irqEnable.setWidth 32) ∧
    ∀ (c : Chan) (at_ : Nat → BitVec 16), c.toNat < s.nch →
      (∀ off, at_ off = BitVec.ofNat 16 (0x1000 + 0x40 * c.toNat + off)) →
      readReg s (at_ 0x00) = (s.slot c).statWord ∧ readReg s (at_ 0x04) = (s.slot c).dest ∧
      readReg s (at_ 0x08) = (s.slot c).woff ∧ readReg s (at_ 0x0C) = (s.slot c).expected ∧
      readReg s (at_ 0x10) = (s.slot c).caplen ∧ readReg s (at_ 0x14) = (s.slot c).wdcnt ∧
      readReg s (at_ 0x18) = (s.slot c).wdlim ∧ readReg s (at_ 0x20) = (s.slot c).ringBase ∧
      readReg s (at_ 0x24) = (s.slot c).slotSize ∧ readReg s (at_ 0x28) = (s.slot c).ptrWord ∧
      readReg s (at_ 0x2C) = (s.slot c).ringWord ∧ readReg s (at_ 0x30) = (s.slot c).acqWord

/-- R235: an address that R29 and R47 do not assign, and one that is not a multiple of 4, reads 0 and ignores
writes. -/
def Obligations.ReservedAddresses : Prop :=
  ∀ (s : State) (addr : BitVec 16) (w : Word),
    (addr.toNat % 4 ≠ 0 ∨ (0x0034 ≤ addr.toNat ∧ addr.toNat < 0x1000) ∨
      0x1000 + 0x40 * s.nch ≤ addr.toNat ∨
      (0x1000 ≤ addr.toNat ∧ (addr.toNat % 0x40 = 0x1C ∨ 0x34 ≤ addr.toNat % 0x40))) →
    readReg s addr = 0 ∧ exec (.regWr addr w) s = .next s

/-- The numbers of the result codes (R241), the step codes (R243), `progress`, `mode` and the slot states (R94), each
listed in the order of its table; and the packings of `RESULT` (R26), `CH_STAT` (R31), `RING_PTR` (R42), `RING_SLOTS` (R43) and `CH_ACQ` (R45). -/
def Obligations.PackedRegisterFields : Prop :=
  ([ResultCode.ok, .pending].map ResultCode.num = [0x00, 0x01] ∧
    [ResultCode.eBadOp, .eBadCh, .eArg, .eRange, .eBusy, .eState].map ResultCode.num =
      [0x10, 0x11, 0x12, 0x13, 0x14, 0x15] ∧
    [ResultCode.eXport, .eDma, .eHeld, .eNotHeld, .eCancelled, .eXsize].map ResultCode.num =
      [0x16, 0x17, 0x18, 0x19, 0x1A, 0x1B] ∧
    [StepCode.none, .decode, .bind, .register, .start, .stop, .deregister, .listen, .map, .unlisten, .acquire,
      .release].map StepCode.num = [0, 1, 2, 3, 4, 5, 6, 7, 8, 9, 10, 11] ∧
    [Progress.idle, .inProgress, .complete].map Progress.num = [0, 1, 2] ∧
    [Mode.software, .dma].map Mode.num = [0, 1] ∧
    [RingState.absent, .queuedEmpty, .filledPending, .handedToCaller].map RingState.num = [0, 1, 2, 3]) ∧
  (∀ r : CmdResult, r.word.extractLsb' 0 8 = r.code.num ∧ r.word.extractLsb' 8 4 = r.step.num ∧
    r.word.extractLsb' 12 4 = 0 ∧ r.word.extractLsb' 16 6 = r.chan ∧ r.word.extractLsb' 22 9 = 0 ∧
    r.word.getLsbD 31 = r.valid) ∧
  ∀ k : Slot,
    (k.statWord.extractLsb' 0 2 = k.progress.num ∧ k.statWord.getLsbD 2 = k.inUse ∧
      k.statWord.getLsbD 3 = decide (k.mode = .dma) ∧ k.statWord.getLsbD 4 = k.registered ∧
      k.statWord.getLsbD 5 = k.receiving ∧ k.statWord.getLsbD 6 = k.ovf ∧ k.statWord.getLsbD 7 = k.desync ∧
      k.statWord.getLsbD 8 = k.heldValid ∧ k.statWord.getLsbD 9 = k.acqPending ∧
      k.statWord.getLsbD 10 = k.ringOvr ∧ k.statWord.extractLsb' 11 21 = 0) ∧
    (k.ptrWord.extractLsb' 0 5 = k.ringB ∧ k.ptrWord.extractLsb' 5 3 = 0 ∧
      k.ptrWord.extractLsb' 8 4 = k.lastReturned ∧ k.ptrWord.extractLsb' 12 4 = 0 ∧
      k.ptrWord.extractLsb' 16 4 = k.fillIdx ∧ k.ptrWord.extractLsb' 20 4 = 0 ∧
      k.ptrWord.extractLsb' 24 4 = k.heldIdx ∧ k.ptrWord.extractLsb' 28 4 = 0) ∧
    (∀ i < 16, k.ringWord.extractLsb' (2 * i) 2 = (k.ringAt i).num) ∧
    (k.acqWord.extractLsb' 0 5 = k.lastN ∧ k.acqWord.extractLsb' 5 3 = 0 ∧
      k.acqWord.extractLsb' 8 8 = k.acqCode.num ∧ k.acqWord.getLsbD 16 = k.acqDone ∧
      k.acqWord.extractLsb' 17 15 = 0)

/-- R28: the line `irq` is 1 exactly when some source is both pending and enabled. -/
def Obligations.InterruptLine : Prop :=
  ∀ s : State, s.irq = true ↔ ∃ i < 8, s.irqStatus.getLsbD i = true ∧ s.irqEnable.getLsbD i = true

/-- R72 and R79: the host reads back what it wrote to frame memory, in `memData` (log 5), and its write touches no
other byte. -/
def Obligations.HostMemoryReadsBack : Prop :=
  ∀ (s : State) (addr : Nat) (v : List Byte) (rest : List Event),
    s.events = .hostMemWrite addr v :: .hostMemRead addr v.length :: rest →
    addr + v.length ≤ s.params.memBytes →
    ∃ t u, step s = .next t ∧ step t = .next u ∧ u.memData = some (v.map some) ∧ u.events = rest ∧
      SameMemoryOutside addr v.length s u ∧ SameSlots s u ∧ u.result = s.result ∧ NoRequest s u

/-! ### Invariants and whole-machine rules -/

/-- R48: every event keeps the invariants of the channel slots (a slot of no channel stays as reset: log 14). -/
def Obligations.StepKeepsChannelInvariants : Prop :=
  ∀ s t : State, ChannelsInv s → step s = .next t → ChannelsInv t

/-- R49: every event keeps the invariants of the rings. -/
def Obligations.StepKeepsRingInvariants : Prop :=
  ∀ s t : State, ChannelsInv s → RingsInv s → step s = .next t → RingsInv t

/-- Every event keeps frame memory in canonical form and inside its bounds (R70; the form is the model's, log 6). -/
def Obligations.StepKeepsMemoryForm : Prop :=
  ∀ s t : State, MemoryInv s → step s = .next t → MemoryInv t

/-- The invariants of R48 and R49 hold at reset, for the default parameters (log 1), and so does the model's own form
of memory (log 6). -/
def Obligations.InvariantsHoldAtReset : Prop :=
  ChannelsInv State.reset ∧ RingsInv State.reset ∧ MemoryInv State.reset

/-- R129: a packet changes no other channel's slot, no byte outside its channel's buffer, and of the registers none but
`AWAIT` and `IRQ_STATUS`. -/
def Obligations.PacketIsolation : Prop :=
  ∀ (s t : State) (i : Instr) (c : Chan) (len : Word) (p : List Byte), IsPacket i c len p → exec i s = .next t →
    PortEventFrame c s t ∧ SameMemoryOutside (s.slot c).dest.toNat (s.slot c).expected.toNat s t

/-- R78: a fill writes only the slot at `fill_idx`, and only when that slot is `QueuedEmpty`. -/
def Obligations.FillFootprint : Prop :=
  ∀ (s t : State) (c : Chan) (f : List Byte) (k : Slot), k = s.slot c → k.expected.toNat ≤ k.slotSize.toNat →
    exec (.fill c f) s = .next t →
    PortEventFrame c s t ∧
    SameMemoryOutside (k.ringBase.toNat + k.fillIdx.toNat * k.slotSize.toNat) k.slotSize.toNat s t ∧
    (k.ringAt k.fillIdx.toNat ≠ .queuedEmpty → SameMemory s t)

/-- R198 (b): while a slot is held, and no other channel's region overlaps its ring (R283), no event but the host's
own write to memory changes a byte of it. -/
def Obligations.HeldSlotNeverOverwritten : Prop :=
  ∀ (s t : State) (c : Chan) (k : Slot), ChannelsInv s → RingsInv s → k = s.slot c → k.isDma = true →
    k.heldValid = true →
    (∀ d a, d ≠ c → (s.slot d).inUse = true → inRegion k a → ¬ inRegion (s.slot d) a) →
    (∀ addr v rest, s.events ≠ .hostMemWrite addr v :: rest) → step s = .next t →
    ∀ base a, base = k.ringBase.toNat + k.heldIdx.toNat * k.slotSize.toNat →
      base ≤ a → a < base + k.slotSize.toNat → t.readByte a = s.readByte a

/-- R132: packets of one channel that start a frame and together carry exactly `expected` payload bytes leave the
frame complete, and the buffer holds their payloads joined in order. The packets stand one after another in the list
of waiting events (log 2). -/
def Obligations.ExactFrameAssembled : Prop :=
  ∀ (s : State) (c : Chan) (k : Slot) (ps : List (Word × List Byte)) (hdr : Word) (first : List Byte)
    (more : List (Word × List Byte)) (rest : List Event),
    Delivered s c → k = s.slot c → k.progress = .idle →
    k.dest.toNat + k.expected.toNat ≤ s.params.memBytes →
    ps = (hdr, first) :: more → hdr.getLsbD 0 = true → s.events = packetEvents c ps ++ rest →
    (joinPayloads ps).length = k.expected.toNat → (joinPayloads ps.dropLast).length < k.expected.toNat →
    (k.wdlim = 0 ∨ k.wdcnt.toNat + ps.length ≤ k.wdlim.toNat) →
    ∃ t : State, Sys2Proof.core.run ps.length s = .next t ∧
      t.slot c = { k with progress := .complete, caplen := k.expected, woff := 0, wdcnt := 0 } ∧
      t.awaiting.toNat = s.awaiting.toNat - 1 ∧
      t.irqStatus = s.irqStatus ||| 0x02 |||
        (if s.awaiting = 0 then 0x40 else if s.awaiting = 1 then 0x01 else 0x00) ∧
      t.readBytes k.dest.toNat k.expected.toNat = (joinPayloads ps).map some ∧
      SameMemoryOutside k.dest.toNat k.expected.toNat s t ∧ OtherSlotsSame c s t ∧ t.events = rest

/-- R19, "nothing in this block is undefined": from every state that meets the invariants, every event the spec
describes is taken and ends in a next state. Which events a host may present is read from R70, R100 and R102
(logs 8, 9). -/
def Obligations.EveryPresentableEventCompletes : Prop :=
  ∀ s : State, ChannelsInv s → RingsInv s → (∀ e ∈ s.events.head?, Presentable s e) → ∃ t, step s = .next t

/-- R26, R21 and R120: nothing but a command writes `RESULT`, `RET0` and `RET1` or sends a request. -/
def Obligations.OnlyCommandsWriteResult : Prop :=
  ∀ (s t : State) (e : Event) (rest : List Event), s.events = e :: rest → (∀ w, e ≠ .input (.command w)) →
    (∀ w, e ≠ .input (.access true 0x0014 w)) → step s = .next t →
    t.result = s.result ∧ t.ret0 = s.ret0 ∧ t.ret1 = s.ret1 ∧ NoRequest s t

/-- R271 (c): the parameters are fixed for a run. -/
def Obligations.ParametersNeverChange : Prop :=
  ∀ s t : State, step s = .next t → t.params = s.params

/-- R198 (a): an acquire right after a fill hands over exactly the slot just filled, whatever older frames wait, and
the view holds the frame just filled. -/
def Obligations.AcquireReturnsNewestFrame : Prop :=
  ∀ (s : State) (c : Chan) (f : List Byte) (k : Slot), c.toNat < s.nch → k = s.slot c → k.isDma = true →
    RingInv s.params.memBytes k → k.acqPending = false → k.heldValid = false →
    k.ringAt k.fillIdx.toNat = .queuedEmpty → f.length = k.expected.toNat →
    ∃ t u, exec (.fill c f) s = .next t ∧ exec (.dmaAcquire c) t = .next u ∧ Finished .ok .none c u ∧
      (u.slot c).heldValid = true ∧ (u.slot c).heldIdx = k.fillIdx ∧ u.ret0 = (u.slot c).dest ∧
      u.readBytes (u.slot c).dest.toNat k.expected.toNat = f.map some

/-- R104 and format X of R90: the request code and the operands of every request. -/
def Obligations.RequestWiresOfEveryRequest : Prop :=
  ∀ (c : Chan) (b size : Word),
    encodeRequest (.xpReg c) = { op := 1, ch := c, a := 0, b := 0 } ∧
    encodeRequest (.xpDereg c) = { op := 2, ch := c, a := 0, b := 0 } ∧
    encodeRequest (.xpStart c) = { op := 3, ch := c, a := 0, b := 0 } ∧
    encodeRequest (.xpStop c) = { op := 4, ch := c, a := 0, b := 0 } ∧
    encodeRequest (.dmaListen c b size) = { op := 5, ch := c, a := b, b := size } ∧
    encodeRequest (.dmaUnlisten c) = { op := 6, ch := c, a := 0, b := 0 }
end

