-- ==== Sys2Proof/Laws/Decode.lean ====
section
/-! SUPPORT. The fields of a command word, and the opcode map read in both directions (R91, R92). -/

namespace Sys2Proof

/-- When a frame-start packet is well-formed (R100, R101). -/
theorem pktStart_wf (c : Chan) (hdr len : Word) (p : List Byte) :
    (Instr.pktStart c hdr len p).WellFormed ↔ hdr.getLsbD 0 = true ∧ p.length = len.toNat := by
  show (if hdr.getLsbD 0 = false then some Malformed.startMarkerClear
      else if p.length ≠ len.toNat then some Malformed.payloadLength else none) = none ↔ _
  split
  · rename_i h; rw [h]; simp
  · rename_i h; rw [(Bool.not_eq_false _).mp h]; simp

/-- When a continuation packet is well-formed (R100, R101). -/
theorem pktCont_wf (c : Chan) (hdr len : Word) (p : List Byte) :
    (Instr.pktCont c hdr len p).WellFormed ↔ hdr.getLsbD 0 = false ∧ p.length = len.toNat := by
  show (if hdr.getLsbD 0 = true then some Malformed.contMarkerSet
      else if p.length ≠ len.toNat then some Malformed.payloadLength else none) = none ↔ _
  split
  · rename_i h; rw [h]; simp
  · rename_i h; rw [(Bool.not_eq_true _).mp h]; simp

/-- When a fill is well-formed (R102). -/
theorem fill_wf (c : Chan) (f : List Byte) : (Instr.fill c f).WellFormed ↔ f.length < 2 ^ 32 := by
  show (if 2 ^ 32 ≤ f.length then some Malformed.frameLength else none) = none ↔ _
  split
  · simp; omega
  · simp; omega

/-- The opcode of a command word. -/
@[simp] theorem opField_commandWord (op : BitVec 8) (c : Chan) : opField (commandWord op c) = op := by
  apply BitVec.eq_of_getLsbD_eq
  intro i hi
  change ((op ++ 0#18 ++ c : BitVec (8 + 18 + 6)).extractLsb' 24 8).getLsbD i = _
  rw [BitVec.getLsbD_extractLsb', BitVec.getLsbD_append, BitVec.getLsbD_append]
  have h1 : ¬ (24 + i < 6) := by omega
  have h2 : ¬ (24 + i - 6 < 18) := by omega
  have h3 : 24 + i - 6 - 18 = i := by omega
  simp [h1, h2, h3, hi]

/-- The reserved bits of a command word are 0. -/
@[simp] theorem rsvField_commandWord (op : BitVec 8) (c : Chan) : rsvField (commandWord op c) = 0#18 := by
  apply BitVec.eq_of_getLsbD_eq
  intro i hi
  change ((op ++ 0#18 ++ c : BitVec (8 + 18 + 6)).extractLsb' 6 18).getLsbD i = _
  rw [BitVec.getLsbD_extractLsb', BitVec.getLsbD_append, BitVec.getLsbD_append]
  have h1 : ¬ (6 + i < 6) := by omega
  simp [h1, hi]

/-- The channel of a command word. -/
@[simp] theorem chField_commandWord (op : BitVec 8) (c : Chan) : chField (commandWord op c) = c := by
  apply BitVec.eq_of_getLsbD_eq
  intro i hi
  change ((op ++ 0#18 ++ c : BitVec (8 + 18 + 6)).extractLsb' 0 6).getLsbD i = _
  rw [BitVec.getLsbD_extractLsb', BitVec.getLsbD_append]
  simp [hi]

/-- A word whose reserved bits are 0 is the command word of its own opcode and channel. -/
theorem commandWord_fields (w : Word) (h : rsvField w = 0#18) : commandWord (opField w) (chField w) = w := by
  apply BitVec.eq_of_getLsbD_eq
  intro i hi
  change ((opField w ++ 0#18 ++ chField w : BitVec (8 + 18 + 6))).getLsbD i = _
  rw [← h, BitVec.getLsbD_append, BitVec.getLsbD_append]
  by_cases h1 : i < 6
  · simp [h1, chField]
  · by_cases h2 : i - 6 < 18
    · have : 6 + (i - 6) = i := by omega
      simp [h1, h2, rsvField, this]
    · have : 24 + (i - 6 - 18) = i := by omega
      have h3 : i - 6 - 18 < 8 := by omega
      simp [h1, h2, opField, this, h3]

/-- All that the decoder of commands can accept: a row of the opcode map with its fields as R91 wants them. -/
theorem decodeCommand_ok {w : Word} {i : Instr} (h : decodeCommand w = .ok i) :
    rsvField w = 0#18 ∧
      ((commandRow (opField w) = some (.plain i) ∧ chField w = 0#6) ∨
        ∃ make, commandRow (opField w) = some (.channel make) ∧ i = make (chField w)) := by
  unfold decodeCommand at h
  split at h
  · cases h
  · rename_i row hrow
    split at h
    · cases h
    · rename_i hr
      refine ⟨Classical.not_not.1 hr, ?_⟩
      split at h
      · split at h
        · cases h
        · rename_i hc
          cases h
          exact .inl ⟨hrow, Classical.not_not.1 hc⟩
      · cases h
        exact .inr ⟨_, hrow, rfl⟩

/-- The decoder of commands refuses by `E_BADOP`'s three reasons only. -/
theorem decodeCommand_error {w : Word} {e : DecodeError} (h : decodeCommand w = .error e) :
    e = .badOpcode ∨ e = .reservedBits ∨ e = .channelBits := by
  unfold decodeCommand at h
  split at h
  · cases h; exact .inl rfl
  · split at h
    · cases h; exact .inr (.inl rfl)
    · split at h
      · split at h <;> cases h
        exact .inr (.inr rfl)
      · cases h

/-- A row of the opcode map encodes to its own opcode: a command with no channel. -/
theorem encode_plain {op : BitVec 8} {i : Instr} (h : commandRow op = some (.plain i)) :
    encode i = .command (commandWord op 0) ∧ i.WellFormed := by
  unfold commandRow at h
  have ho : op = BitVec.ofNat 8 op.toNat := by simp
  split at h <;> cases h <;> rename_i hn <;> rw [hn] at ho <;> subst ho <;> exact ⟨rfl, rfl⟩

/-- A row of the opcode map encodes to its own opcode: a command with a channel. -/
theorem encode_channel {op : BitVec 8} {make : Chan → Instr} (h : commandRow op = some (.channel make)) (c : Chan) :
    encode (make c) = .command (commandWord op c) ∧ (make c).WellFormed := by
  unfold commandRow at h
  have ho : op = BitVec.ofNat 8 op.toNat := by simp
  split at h <;> cases h <;> rename_i hn <;> rw [hn] at ho <;> subst ho <;> exact ⟨rfl, rfl⟩

/-- The command word of a row with no channel decodes to it. -/
theorem decodeCommand_plain {op : BitVec 8} {i : Instr} (h : commandRow op = some (.plain i)) :
    decodeCommand (commandWord op 0) = .ok i := by
  simp [decodeCommand, h]

/-- The command word of a row with a channel decodes to it. -/
theorem decodeCommand_channel {op : BitVec 8} {make : Chan → Instr} (h : commandRow op = some (.channel make))
    (c : Chan) : decodeCommand (commandWord op c) = .ok (make c) := by
  simp [decodeCommand, h]

end Sys2Proof
end

