-- ==== Sys2Proof/Laws/State.lean ====
section
/-! SUPPORT. The small lemmas of the state's updates: one per field per update, so that no proof unfolds a record
update. -/

namespace Sys2Proof.Machine

/-! ### `State.finish` -/

@[simp] theorem State.finish_arg0 (s : State) (code : ResultCode) (step : StepCode) (c : Chan) : (s.finish code step c).arg0 = s.arg0 := rfl
@[simp] theorem State.finish_arg1 (s : State) (code : ResultCode) (step : StepCode) (c : Chan) : (s.finish code step c).arg1 = s.arg1 := rfl
@[simp] theorem State.finish_arg2 (s : State) (code : ResultCode) (step : StepCode) (c : Chan) : (s.finish code step c).arg2 = s.arg2 := rfl
@[simp] theorem State.finish_ret0 (s : State) (code : ResultCode) (step : StepCode) (c : Chan) : (s.finish code step c).ret0 = s.ret0 := rfl
@[simp] theorem State.finish_ret1 (s : State) (code : ResultCode) (step : StepCode) (c : Chan) : (s.finish code step c).ret1 = s.ret1 := rfl
@[simp] theorem State.finish_awaiting (s : State) (code : ResultCode) (step : StepCode) (c : Chan) : (s.finish code step c).awaiting = s.awaiting := rfl
@[simp] theorem State.finish_irqStatus (s : State) (code : ResultCode) (step : StepCode) (c : Chan) : (s.finish code step c).irqStatus = s.irqStatus := rfl
@[simp] theorem State.finish_irqEnable (s : State) (code : ResultCode) (step : StepCode) (c : Chan) : (s.finish code step c).irqEnable = s.irqEnable := rfl
@[simp] theorem State.finish_slots (s : State) (code : ResultCode) (step : StepCode) (c : Chan) : (s.finish code step c).slots = s.slots := rfl
@[simp] theorem State.finish_mem (s : State) (code : ResultCode) (step : StepCode) (c : Chan) : (s.finish code step c).mem = s.mem := rfl
@[simp] theorem State.finish_params (s : State) (code : ResultCode) (step : StepCode) (c : Chan) : (s.finish code step c).params = s.params := rfl
@[simp] theorem State.finish_events (s : State) (code : ResultCode) (step : StepCode) (c : Chan) : (s.finish code step c).events = s.events := rfl
@[simp] theorem State.finish_answers (s : State) (code : ResultCode) (step : StepCode) (c : Chan) : (s.finish code step c).answers = s.answers := rfl
@[simp] theorem State.finish_requests (s : State) (code : ResultCode) (step : StepCode) (c : Chan) : (s.finish code step c).requests = s.requests := rfl
@[simp] theorem State.finish_rdata (s : State) (code : ResultCode) (step : StepCode) (c : Chan) : (s.finish code step c).rdata = s.rdata := rfl
@[simp] theorem State.finish_memData (s : State) (code : ResultCode) (step : StepCode) (c : Chan) : (s.finish code step c).memData = s.memData := rfl
@[simp] theorem State.finish_slot (s : State) (code : ResultCode) (step : StepCode) (c : Chan) (d : Chan) : (s.finish code step c).slot d = s.slot d := rfl
@[simp] theorem State.finish_readByte (s : State) (code : ResultCode) (step : StepCode) (c : Chan) (x : Nat) : (s.finish code step c).readByte x = s.readByte x := rfl
@[simp] theorem State.finish_nch (s : State) (code : ResultCode) (step : StepCode) (c : Chan) : (s.finish code step c).nch = s.nch := rfl
@[simp] theorem State.finish_answerTo (s : State) (code : ResultCode) (step : StepCode) (c : Chan) (q : Request) : (s.finish code step c).answerTo q = s.answerTo q := rfl

/-! ### `State.irqSet` -/

@[simp] theorem State.irqSet_arg0 (s : State) (b : Irq) : (s.irqSet b).arg0 = s.arg0 := rfl
@[simp] theorem State.irqSet_arg1 (s : State) (b : Irq) : (s.irqSet b).arg1 = s.arg1 := rfl
@[simp] theorem State.irqSet_arg2 (s : State) (b : Irq) : (s.irqSet b).arg2 = s.arg2 := rfl
@[simp] theorem State.irqSet_ret0 (s : State) (b : Irq) : (s.irqSet b).ret0 = s.ret0 := rfl
@[simp] theorem State.irqSet_ret1 (s : State) (b : Irq) : (s.irqSet b).ret1 = s.ret1 := rfl
@[simp] theorem State.irqSet_result (s : State) (b : Irq) : (s.irqSet b).result = s.result := rfl
@[simp] theorem State.irqSet_awaiting (s : State) (b : Irq) : (s.irqSet b).awaiting = s.awaiting := rfl
@[simp] theorem State.irqSet_irqEnable (s : State) (b : Irq) : (s.irqSet b).irqEnable = s.irqEnable := rfl
@[simp] theorem State.irqSet_slots (s : State) (b : Irq) : (s.irqSet b).slots = s.slots := rfl
@[simp] theorem State.irqSet_mem (s : State) (b : Irq) : (s.irqSet b).mem = s.mem := rfl
@[simp] theorem State.irqSet_params (s : State) (b : Irq) : (s.irqSet b).params = s.params := rfl
@[simp] theorem State.irqSet_events (s : State) (b : Irq) : (s.irqSet b).events = s.events := rfl
@[simp] theorem State.irqSet_answers (s : State) (b : Irq) : (s.irqSet b).answers = s.answers := rfl
@[simp] theorem State.irqSet_requests (s : State) (b : Irq) : (s.irqSet b).requests = s.requests := rfl
@[simp] theorem State.irqSet_rdata (s : State) (b : Irq) : (s.irqSet b).rdata = s.rdata := rfl
@[simp] theorem State.irqSet_memData (s : State) (b : Irq) : (s.irqSet b).memData = s.memData := rfl
@[simp] theorem State.irqSet_slot (s : State) (b : Irq) (d : Chan) : (s.irqSet b).slot d = s.slot d := rfl
@[simp] theorem State.irqSet_readByte (s : State) (b : Irq) (x : Nat) : (s.irqSet b).readByte x = s.readByte x := rfl
@[simp] theorem State.irqSet_nch (s : State) (b : Irq) : (s.irqSet b).nch = s.nch := rfl
@[simp] theorem State.irqSet_answerTo (s : State) (b : Irq) (q : Request) : (s.irqSet b).answerTo q = s.answerTo q := rfl

/-! ### `State.setRets` -/

@[simp] theorem State.setRets_arg0 (s : State) (r0 r1 : Word) : (s.setRets r0 r1).arg0 = s.arg0 := rfl
@[simp] theorem State.setRets_arg1 (s : State) (r0 r1 : Word) : (s.setRets r0 r1).arg1 = s.arg1 := rfl
@[simp] theorem State.setRets_arg2 (s : State) (r0 r1 : Word) : (s.setRets r0 r1).arg2 = s.arg2 := rfl
@[simp] theorem State.setRets_ret0 (s : State) (r0 r1 : Word) : (s.setRets r0 r1).ret0 = r0 := rfl
@[simp] theorem State.setRets_ret1 (s : State) (r0 r1 : Word) : (s.setRets r0 r1).ret1 = r1 := rfl
@[simp] theorem State.setRets_result (s : State) (r0 r1 : Word) : (s.setRets r0 r1).result = s.result := rfl
@[simp] theorem State.setRets_awaiting (s : State) (r0 r1 : Word) : (s.setRets r0 r1).awaiting = s.awaiting := rfl
@[simp] theorem State.setRets_irqStatus (s : State) (r0 r1 : Word) : (s.setRets r0 r1).irqStatus = s.irqStatus := rfl
@[simp] theorem State.setRets_irqEnable (s : State) (r0 r1 : Word) : (s.setRets r0 r1).irqEnable = s.irqEnable := rfl
@[simp] theorem State.setRets_slots (s : State) (r0 r1 : Word) : (s.setRets r0 r1).slots = s.slots := rfl
@[simp] theorem State.setRets_mem (s : State) (r0 r1 : Word) : (s.setRets r0 r1).mem = s.mem := rfl
@[simp] theorem State.setRets_params (s : State) (r0 r1 : Word) : (s.setRets r0 r1).params = s.params := rfl
@[simp] theorem State.setRets_events (s : State) (r0 r1 : Word) : (s.setRets r0 r1).events = s.events := rfl
@[simp] theorem State.setRets_answers (s : State) (r0 r1 : Word) : (s.setRets r0 r1).answers = s.answers := rfl
@[simp] theorem State.setRets_requests (s : State) (r0 r1 : Word) : (s.setRets r0 r1).requests = s.requests := rfl
@[simp] theorem State.setRets_rdata (s : State) (r0 r1 : Word) : (s.setRets r0 r1).rdata = s.rdata := rfl
@[simp] theorem State.setRets_memData (s : State) (r0 r1 : Word) : (s.setRets r0 r1).memData = s.memData := rfl
@[simp] theorem State.setRets_slot (s : State) (r0 r1 : Word) (d : Chan) : (s.setRets r0 r1).slot d = s.slot d := rfl
@[simp] theorem State.setRets_readByte (s : State) (r0 r1 : Word) (x : Nat) : (s.setRets r0 r1).readByte x = s.readByte x := rfl
@[simp] theorem State.setRets_nch (s : State) (r0 r1 : Word) : (s.setRets r0 r1).nch = s.nch := rfl
@[simp] theorem State.setRets_answerTo (s : State) (r0 r1 : Word) (q : Request) : (s.setRets r0 r1).answerTo q = s.answerTo q := rfl

/-! ### `State.setAwaiting` -/

@[simp] theorem State.setAwaiting_arg0 (s : State) (n : Word) : (s.setAwaiting n).arg0 = s.arg0 := rfl
@[simp] theorem State.setAwaiting_arg1 (s : State) (n : Word) : (s.setAwaiting n).arg1 = s.arg1 := rfl
@[simp] theorem State.setAwaiting_arg2 (s : State) (n : Word) : (s.setAwaiting n).arg2 = s.arg2 := rfl
@[simp] theorem State.setAwaiting_ret0 (s : State) (n : Word) : (s.setAwaiting n).ret0 = s.ret0 := rfl
@[simp] theorem State.setAwaiting_ret1 (s : State) (n : Word) : (s.setAwaiting n).ret1 = s.ret1 := rfl
@[simp] theorem State.setAwaiting_result (s : State) (n : Word) : (s.setAwaiting n).result = s.result := rfl
@[simp] theorem State.setAwaiting_awaiting (s : State) (n : Word) : (s.setAwaiting n).awaiting = n := rfl
@[simp] theorem State.setAwaiting_irqStatus (s : State) (n : Word) : (s.setAwaiting n).irqStatus = s.irqStatus := rfl
@[simp] theorem State.setAwaiting_irqEnable (s : State) (n : Word) : (s.setAwaiting n).irqEnable = s.irqEnable := rfl
@[simp] theorem State.setAwaiting_slots (s : State) (n : Word) : (s.setAwaiting n).slots = s.slots := rfl
@[simp] theorem State.setAwaiting_mem (s : State) (n : Word) : (s.setAwaiting n).mem = s.mem := rfl
@[simp] theorem State.setAwaiting_params (s : State) (n : Word) : (s.setAwaiting n).params = s.params := rfl
@[simp] theorem State.setAwaiting_events (s : State) (n : Word) : (s.setAwaiting n).events = s.events := rfl
@[simp] theorem State.setAwaiting_answers (s : State) (n : Word) : (s.setAwaiting n).answers = s.answers := rfl
@[simp] theorem State.setAwaiting_requests (s : State) (n : Word) : (s.setAwaiting n).requests = s.requests := rfl
@[simp] theorem State.setAwaiting_rdata (s : State) (n : Word) : (s.setAwaiting n).rdata = s.rdata := rfl
@[simp] theorem State.setAwaiting_memData (s : State) (n : Word) : (s.setAwaiting n).memData = s.memData := rfl
@[simp] theorem State.setAwaiting_slot (s : State) (n : Word) (d : Chan) : (s.setAwaiting n).slot d = s.slot d := rfl
@[simp] theorem State.setAwaiting_readByte (s : State) (n : Word) (x : Nat) : (s.setAwaiting n).readByte x = s.readByte x := rfl
@[simp] theorem State.setAwaiting_nch (s : State) (n : Word) : (s.setAwaiting n).nch = s.nch := rfl
@[simp] theorem State.setAwaiting_answerTo (s : State) (n : Word) (q : Request) : (s.setAwaiting n).answerTo q = s.answerTo q := rfl

/-! ### `State.setSlot` -/

@[simp] theorem State.setSlot_arg0 (s : State) (c : Chan) (k : Slot) : (s.setSlot c k).arg0 = s.arg0 := rfl
@[simp] theorem State.setSlot_arg1 (s : State) (c : Chan) (k : Slot) : (s.setSlot c k).arg1 = s.arg1 := rfl
@[simp] theorem State.setSlot_arg2 (s : State) (c : Chan) (k : Slot) : (s.setSlot c k).arg2 = s.arg2 := rfl
@[simp] theorem State.setSlot_ret0 (s : State) (c : Chan) (k : Slot) : (s.setSlot c k).ret0 = s.ret0 := rfl
@[simp] theorem State.setSlot_ret1 (s : State) (c : Chan) (k : Slot) : (s.setSlot c k).ret1 = s.ret1 := rfl
@[simp] theorem State.setSlot_result (s : State) (c : Chan) (k : Slot) : (s.setSlot c k).result = s.result := rfl
@[simp] theorem State.setSlot_awaiting (s : State) (c : Chan) (k : Slot) : (s.setSlot c k).awaiting = s.awaiting := rfl
@[simp] theorem State.setSlot_irqStatus (s : State) (c : Chan) (k : Slot) : (s.setSlot c k).irqStatus = s.irqStatus := rfl
@[simp] theorem State.setSlot_irqEnable (s : State) (c : Chan) (k : Slot) : (s.setSlot c k).irqEnable = s.irqEnable := rfl
@[simp] theorem State.setSlot_mem (s : State) (c : Chan) (k : Slot) : (s.setSlot c k).mem = s.mem := rfl
@[simp] theorem State.setSlot_params (s : State) (c : Chan) (k : Slot) : (s.setSlot c k).params = s.params := rfl
@[simp] theorem State.setSlot_events (s : State) (c : Chan) (k : Slot) : (s.setSlot c k).events = s.events := rfl
@[simp] theorem State.setSlot_answers (s : State) (c : Chan) (k : Slot) : (s.setSlot c k).answers = s.answers := rfl
@[simp] theorem State.setSlot_requests (s : State) (c : Chan) (k : Slot) : (s.setSlot c k).requests = s.requests := rfl
@[simp] theorem State.setSlot_rdata (s : State) (c : Chan) (k : Slot) : (s.setSlot c k).rdata = s.rdata := rfl
@[simp] theorem State.setSlot_memData (s : State) (c : Chan) (k : Slot) : (s.setSlot c k).memData = s.memData := rfl
@[simp] theorem State.setSlot_readByte (s : State) (c : Chan) (k : Slot) (x : Nat) : (s.setSlot c k).readByte x = s.readByte x := rfl
@[simp] theorem State.setSlot_nch (s : State) (c : Chan) (k : Slot) : (s.setSlot c k).nch = s.nch := rfl
@[simp] theorem State.setSlot_answerTo (s : State) (c : Chan) (k : Slot) (q : Request) : (s.setSlot c k).answerTo q = s.answerTo q := rfl

/-! ### `State.updSlot` -/

@[simp] theorem State.updSlot_arg0 (s : State) (c : Chan) (f : Slot → Slot) : (s.updSlot c f).arg0 = s.arg0 := rfl
@[simp] theorem State.updSlot_arg1 (s : State) (c : Chan) (f : Slot → Slot) : (s.updSlot c f).arg1 = s.arg1 := rfl
@[simp] theorem State.updSlot_arg2 (s : State) (c : Chan) (f : Slot → Slot) : (s.updSlot c f).arg2 = s.arg2 := rfl
@[simp] theorem State.updSlot_ret0 (s : State) (c : Chan) (f : Slot → Slot) : (s.updSlot c f).ret0 = s.ret0 := rfl
@[simp] theorem State.updSlot_ret1 (s : State) (c : Chan) (f : Slot → Slot) : (s.updSlot c f).ret1 = s.ret1 := rfl
@[simp] theorem State.updSlot_result (s : State) (c : Chan) (f : Slot → Slot) : (s.updSlot c f).result = s.result := rfl
@[simp] theorem State.updSlot_awaiting (s : State) (c : Chan) (f : Slot → Slot) : (s.updSlot c f).awaiting = s.awaiting := rfl
@[simp] theorem State.updSlot_irqStatus (s : State) (c : Chan) (f : Slot → Slot) : (s.updSlot c f).irqStatus = s.irqStatus := rfl
@[simp] theorem State.updSlot_irqEnable (s : State) (c : Chan) (f : Slot → Slot) : (s.updSlot c f).irqEnable = s.irqEnable := rfl
@[simp] theorem State.updSlot_mem (s : State) (c : Chan) (f : Slot → Slot) : (s.updSlot c f).mem = s.mem := rfl
@[simp] theorem State.updSlot_params (s : State) (c : Chan) (f : Slot → Slot) : (s.updSlot c f).params = s.params := rfl
@[simp] theorem State.updSlot_events (s : State) (c : Chan) (f : Slot → Slot) : (s.updSlot c f).events = s.events := rfl
@[simp] theorem State.updSlot_answers (s : State) (c : Chan) (f : Slot → Slot) : (s.updSlot c f).answers = s.answers := rfl
@[simp] theorem State.updSlot_requests (s : State) (c : Chan) (f : Slot → Slot) : (s.updSlot c f).requests = s.requests := rfl
@[simp] theorem State.updSlot_rdata (s : State) (c : Chan) (f : Slot → Slot) : (s.updSlot c f).rdata = s.rdata := rfl
@[simp] theorem State.updSlot_memData (s : State) (c : Chan) (f : Slot → Slot) : (s.updSlot c f).memData = s.memData := rfl
@[simp] theorem State.updSlot_readByte (s : State) (c : Chan) (f : Slot → Slot) (x : Nat) : (s.updSlot c f).readByte x = s.readByte x := rfl
@[simp] theorem State.updSlot_nch (s : State) (c : Chan) (f : Slot → Slot) : (s.updSlot c f).nch = s.nch := rfl
@[simp] theorem State.updSlot_answerTo (s : State) (c : Chan) (f : Slot → Slot) (q : Request) : (s.updSlot c f).answerTo q = s.answerTo q := rfl

/-! ### `State.sent` -/

@[simp] theorem State.sent_arg0 (s : State) (r : Request) : (s.sent r).arg0 = s.arg0 := rfl
@[simp] theorem State.sent_arg1 (s : State) (r : Request) : (s.sent r).arg1 = s.arg1 := rfl
@[simp] theorem State.sent_arg2 (s : State) (r : Request) : (s.sent r).arg2 = s.arg2 := rfl
@[simp] theorem State.sent_ret0 (s : State) (r : Request) : (s.sent r).ret0 = s.ret0 := rfl
@[simp] theorem State.sent_ret1 (s : State) (r : Request) : (s.sent r).ret1 = s.ret1 := rfl
@[simp] theorem State.sent_result (s : State) (r : Request) : (s.sent r).result = s.result := rfl
@[simp] theorem State.sent_awaiting (s : State) (r : Request) : (s.sent r).awaiting = s.awaiting := rfl
@[simp] theorem State.sent_irqStatus (s : State) (r : Request) : (s.sent r).irqStatus = s.irqStatus := rfl
@[simp] theorem State.sent_irqEnable (s : State) (r : Request) : (s.sent r).irqEnable = s.irqEnable := rfl
@[simp] theorem State.sent_slots (s : State) (r : Request) : (s.sent r).slots = s.slots := rfl
@[simp] theorem State.sent_mem (s : State) (r : Request) : (s.sent r).mem = s.mem := rfl
@[simp] theorem State.sent_params (s : State) (r : Request) : (s.sent r).params = s.params := rfl
@[simp] theorem State.sent_events (s : State) (r : Request) : (s.sent r).events = s.events := rfl
@[simp] theorem State.sent_rdata (s : State) (r : Request) : (s.sent r).rdata = s.rdata := rfl
@[simp] theorem State.sent_memData (s : State) (r : Request) : (s.sent r).memData = s.memData := rfl
@[simp] theorem State.sent_slot (s : State) (r : Request) (d : Chan) : (s.sent r).slot d = s.slot d := rfl
@[simp] theorem State.sent_readByte (s : State) (r : Request) (x : Nat) : (s.sent r).readByte x = s.readByte x := rfl
@[simp] theorem State.sent_nch (s : State) (r : Request) : (s.sent r).nch = s.nch := rfl

/-! ### `State.forget` -/

@[simp] theorem State.forget_arg0 (s : State) (a n : Nat) : (s.forget a n).arg0 = s.arg0 := rfl
@[simp] theorem State.forget_arg1 (s : State) (a n : Nat) : (s.forget a n).arg1 = s.arg1 := rfl
@[simp] theorem State.forget_arg2 (s : State) (a n : Nat) : (s.forget a n).arg2 = s.arg2 := rfl
@[simp] theorem State.forget_ret0 (s : State) (a n : Nat) : (s.forget a n).ret0 = s.ret0 := rfl
@[simp] theorem State.forget_ret1 (s : State) (a n : Nat) : (s.forget a n).ret1 = s.ret1 := rfl
@[simp] theorem State.forget_result (s : State) (a n : Nat) : (s.forget a n).result = s.result := rfl
@[simp] theorem State.forget_awaiting (s : State) (a n : Nat) : (s.forget a n).awaiting = s.awaiting := rfl
@[simp] theorem State.forget_irqStatus (s : State) (a n : Nat) : (s.forget a n).irqStatus = s.irqStatus := rfl
@[simp] theorem State.forget_irqEnable (s : State) (a n : Nat) : (s.forget a n).irqEnable = s.irqEnable := rfl
@[simp] theorem State.forget_slots (s : State) (a n : Nat) : (s.forget a n).slots = s.slots := rfl
@[simp] theorem State.forget_params (s : State) (a n : Nat) : (s.forget a n).params = s.params := rfl
@[simp] theorem State.forget_events (s : State) (a n : Nat) : (s.forget a n).events = s.events := rfl
@[simp] theorem State.forget_answers (s : State) (a n : Nat) : (s.forget a n).answers = s.answers := rfl
@[simp] theorem State.forget_requests (s : State) (a n : Nat) : (s.forget a n).requests = s.requests := rfl
@[simp] theorem State.forget_rdata (s : State) (a n : Nat) : (s.forget a n).rdata = s.rdata := rfl
@[simp] theorem State.forget_memData (s : State) (a n : Nat) : (s.forget a n).memData = s.memData := rfl
@[simp] theorem State.forget_slot (s : State) (a n : Nat) (d : Chan) : (s.forget a n).slot d = s.slot d := rfl
@[simp] theorem State.forget_nch (s : State) (a n : Nat) : (s.forget a n).nch = s.nch := rfl
@[simp] theorem State.forget_answerTo (s : State) (a n : Nat) (q : Request) : (s.forget a n).answerTo q = s.answerTo q := rfl

/-! ### What an update writes -/

@[simp] theorem State.finish_result (s : State) (code : ResultCode) (step : StepCode) (c : Chan) :
    (s.finish code step c).result = { valid := true, chan := c, step := step, code := code } := rfl
@[simp] theorem State.irqSet_irqStatus (s : State) (b : Irq) : (s.irqSet b).irqStatus = s.irqStatus ||| b.bit := rfl
@[simp] theorem State.sent_requests (s : State) (r : Request) : (s.sent r).requests = s.requests ++ [r] := rfl
@[simp] theorem State.sent_answers (s : State) (r : Request) : (s.sent r).answers = s.answers.tail := rfl
@[simp] theorem State.forget_mem (s : State) (a n : Nat) : (s.forget a n).mem = s.mem.forget a n := rfl

/-- Writing a slot changes that slot and no other. -/
theorem State.slot_setSlot (s : State) (c d : Chan) (k : Slot) :
    (s.setSlot c k).slot d = if d = c then k else s.slot d := by
  unfold State.slot State.setSlot
  by_cases h : d = c
  · subst h; simp
  · have : c.toNat ≠ d.toNat := fun e => h (BitVec.eq_of_toNat_eq e.symm)
    simp [h, this]

@[simp] theorem State.slot_setSlot_same (s : State) (c : Chan) (k : Slot) : (s.setSlot c k).slot c = k := by
  simp [State.slot_setSlot]

@[simp] theorem State.slot_setSlot_ne (s : State) (c d : Chan) (k : Slot) (h : d ≠ c) :
    (s.setSlot c k).slot d = s.slot d := by
  simp [State.slot_setSlot, h]

/-- Changing a slot changes that slot and no other. -/
theorem State.slot_updSlot (s : State) (c d : Chan) (f : Slot → Slot) :
    (s.updSlot c f).slot d = if d = c then f (s.slot c) else s.slot d :=
  State.slot_setSlot s c d _

@[simp] theorem State.slot_updSlot_same (s : State) (c : Chan) (f : Slot → Slot) :
    (s.updSlot c f).slot c = f (s.slot c) := State.slot_setSlot_same s c _

@[simp] theorem State.slot_updSlot_ne (s : State) (c d : Chan) (f : Slot → Slot) (h : d ≠ c) :
    (s.updSlot c f).slot d = s.slot d := State.slot_setSlot_ne s c d _ h

/-- Two changes of one slot are one. -/
theorem State.setSlot_setSlot (s : State) (c : Chan) (k l : Slot) : (s.setSlot c k).setSlot c l = s.setSlot c l := by
  unfold State.setSlot
  simp

theorem State.updSlot_updSlot (s : State) (c : Chan) (f g : Slot → Slot) :
    (s.updSlot c f).updSlot c g = s.updSlot c fun k => g (f k) := by
  unfold State.updSlot
  rw [State.slot_setSlot_same, State.setSlot_setSlot]

/-- Every channel slot is at its reset value after a clear. -/
@[simp] theorem State.clearBlock_slot (s : State) (c : Chan) : s.clearBlock.slot c = Slot.reset := by
  simp [State.slot, State.clearBlock]

/-- Every channel slot is at its reset value after reset. -/
@[simp] theorem State.reset_slot (c : Chan) : State.reset.slot c = Slot.reset := by
  simp [State.slot, State.reset]

/-! ### Slot states of a ring -/

@[simp] theorem Slot.setRing_progress (k : Slot) (i : Nat) (st : RingState) : (k.setRing i st).progress = k.progress := rfl
@[simp] theorem Slot.setRing_inUse (k : Slot) (i : Nat) (st : RingState) : (k.setRing i st).inUse = k.inUse := rfl
@[simp] theorem Slot.setRing_mode (k : Slot) (i : Nat) (st : RingState) : (k.setRing i st).mode = k.mode := rfl
@[simp] theorem Slot.setRing_registered (k : Slot) (i : Nat) (st : RingState) : (k.setRing i st).registered = k.registered := rfl
@[simp] theorem Slot.setRing_receiving (k : Slot) (i : Nat) (st : RingState) : (k.setRing i st).receiving = k.receiving := rfl
@[simp] theorem Slot.setRing_ovf (k : Slot) (i : Nat) (st : RingState) : (k.setRing i st).ovf = k.ovf := rfl
@[simp] theorem Slot.setRing_desync (k : Slot) (i : Nat) (st : RingState) : (k.setRing i st).desync = k.desync := rfl
@[simp] theorem Slot.setRing_ringOvr (k : Slot) (i : Nat) (st : RingState) : (k.setRing i st).ringOvr = k.ringOvr := rfl
@[simp] theorem Slot.setRing_heldValid (k : Slot) (i : Nat) (st : RingState) : (k.setRing i st).heldValid = k.heldValid := rfl
@[simp] theorem Slot.setRing_acqPending (k : Slot) (i : Nat) (st : RingState) : (k.setRing i st).acqPending = k.acqPending := rfl
@[simp] theorem Slot.setRing_dest (k : Slot) (i : Nat) (st : RingState) : (k.setRing i st).dest = k.dest := rfl
@[simp] theorem Slot.setRing_woff (k : Slot) (i : Nat) (st : RingState) : (k.setRing i st).woff = k.woff := rfl
@[simp] theorem Slot.setRing_expected (k : Slot) (i : Nat) (st : RingState) : (k.setRing i st).expected = k.expected := rfl
@[simp] theorem Slot.setRing_caplen (k : Slot) (i : Nat) (st : RingState) : (k.setRing i st).caplen = k.caplen := rfl
@[simp] theorem Slot.setRing_wdcnt (k : Slot) (i : Nat) (st : RingState) : (k.setRing i st).wdcnt = k.wdcnt := rfl
@[simp] theorem Slot.setRing_wdlim (k : Slot) (i : Nat) (st : RingState) : (k.setRing i st).wdlim = k.wdlim := rfl
@[simp] theorem Slot.setRing_ringBase (k : Slot) (i : Nat) (st : RingState) : (k.setRing i st).ringBase = k.ringBase := rfl
@[simp] theorem Slot.setRing_slotSize (k : Slot) (i : Nat) (st : RingState) : (k.setRing i st).slotSize = k.slotSize := rfl
@[simp] theorem Slot.setRing_ringB (k : Slot) (i : Nat) (st : RingState) : (k.setRing i st).ringB = k.ringB := rfl
@[simp] theorem Slot.setRing_lastReturned (k : Slot) (i : Nat) (st : RingState) : (k.setRing i st).lastReturned = k.lastReturned := rfl
@[simp] theorem Slot.setRing_fillIdx (k : Slot) (i : Nat) (st : RingState) : (k.setRing i st).fillIdx = k.fillIdx := rfl
@[simp] theorem Slot.setRing_heldIdx (k : Slot) (i : Nat) (st : RingState) : (k.setRing i st).heldIdx = k.heldIdx := rfl
@[simp] theorem Slot.setRing_lastN (k : Slot) (i : Nat) (st : RingState) : (k.setRing i st).lastN = k.lastN := rfl
@[simp] theorem Slot.setRing_acqCode (k : Slot) (i : Nat) (st : RingState) : (k.setRing i st).acqCode = k.acqCode := rfl
@[simp] theorem Slot.setRing_acqDone (k : Slot) (i : Nat) (st : RingState) : (k.setRing i st).acqDone = k.acqDone := rfl

/-- Writing a slot state changes that one and no other. -/
theorem Slot.ringAt_setRing (k : Slot) (i j : Nat) (st : RingState) :
    (k.setRing i st).ringAt j = if j = i ∧ j < 16 then st else k.ringAt j := by
  unfold Slot.ringAt Slot.setRing
  by_cases hj : j < 16
  · by_cases h : j = i
    · subst h; simp [hj]
    · have : i ≠ j := fun e => h e.symm
      simp [hj, h, this]
  · simp [hj]

end Sys2Proof.Machine
end

