-- ==== Sys2Proof/Laws/Memory.lean ====
section
/-! SUPPORT. Frame memory: what a read sees after a write, and that every memory operation keeps the canonical
form. -/

namespace Sys2Proof.Machine

/-! ### Reading -/

theorem Memory.read?_append (m n : Memory) (a : Nat) :
    Memory.read? (m ++ n) a = (Memory.read? m a).or (Memory.read? n a) := by
  induction m with
  | nil => simp [Memory.read?]
  | cons x m ih =>
    simp only [List.cons_append, Memory.read?]
    split <;> simp_all

theorem Memory.read?_filter (m : Memory) (p : Nat → Bool) (a : Nat) :
    Memory.read? (m.filter fun x => p x.1) a = if p a then Memory.read? m a else none := by
  induction m with
  | nil => simp [Memory.read?]
  | cons x m ih =>
    by_cases hx : p x.1
    · simp only [List.filter_cons, hx, if_true, Memory.read?]
      by_cases hxa : x.1 = a
      · subst hxa; simp [hx]
      · simp [hxa, ih]
    · simp only [List.filter_cons, hx, Memory.read?]
      by_cases hxa : x.1 = a
      · subst hxa; simp [hx, ih]
      · simp [hxa, ih]

theorem read?_cellsAt (bs : List Byte) (base a : Nat) :
    Memory.read? (cellsAt base bs) a = if base ≤ a then bs[a - base]? else none := by
  induction bs generalizing base with
  | nil => simp [cellsAt, Memory.read?]
  | cons b bs ih =>
    simp only [cellsAt, Memory.read?]
    by_cases h : base = a
    · subst h; simp
    · rw [if_neg h, ih]
      by_cases hle : base ≤ a
      · have h1 : base + 1 ≤ a := by omega
        have h2 : a - base = (a - (base + 1)) + 1 := by omega
        simp [hle, h1, h2]
      · have h1 : ¬ base + 1 ≤ a := by omega
        simp [hle, h1]

/-- A read after a write sees the written bytes where they were written and the old bytes elsewhere (R72). -/
theorem Memory.read?_write (m : Memory) (base : Nat) (bs : List Byte) (a : Nat) :
    (m.write base bs).read? a = if base ≤ a ∧ a < base + bs.length then bs[a - base]? else m.read? a := by
  unfold Memory.write
  rw [Memory.read?_append, Memory.read?_append,
    Memory.read?_filter m (fun i => decide (i < base)), read?_cellsAt,
    Memory.read?_filter m (fun i => decide (base + bs.length ≤ i))]
  by_cases h1 : a < base
  · have h2 : ¬ base ≤ a := by omega
    have h3 : ¬ base + bs.length ≤ a := by omega
    simp [h1, h2, h3]
  · have h2 : base ≤ a := by omega
    by_cases h3 : a < base + bs.length
    · have h4 : a - base < bs.length := by omega
      have h5 : ¬ base + bs.length ≤ a := by omega
      simp [h1, h2, h3, h5]
    · have h4 : bs[a - base]? = none := by simp; omega
      have h5 : base + bs.length ≤ a := by omega
      simp [h1, h2, h3, h4, h5]

/-- A forgotten byte holds no known value; every other byte stays. -/
theorem Memory.read?_forget (m : Memory) (base n a : Nat) :
    (m.forget base n).read? a = if base ≤ a ∧ a < base + n then none else m.read? a := by
  unfold Memory.forget
  rw [Memory.read?_filter m (fun i => decide (i < base) || decide (base + n ≤ i))]
  by_cases h1 : a < base
  · have h2 : ¬ base ≤ a := by omega
    simp [h1, h2]
  · by_cases h3 : a < base + n
    · have h4 : ¬ base + n ≤ a := by omega
      have h2 : base ≤ a := by omega
      simp [h1, h2, h3, h4]
    · have h4 : base + n ≤ a := by omega
      simp [h1, h3, h4]

/-- A state's byte after a padding forget. -/
theorem State.readByte_forget (s : State) (base n a : Nat) :
    (s.forget base n).readByte a = if base ≤ a ∧ a < base + n then none else s.readByte a :=
  Memory.read?_forget s.mem base n a

/-! ### The canonical form -/

theorem mem_cellsAt (bs : List Byte) (base : Nat) (x : Host.Cell) (h : x ∈ cellsAt base bs) :
    base ≤ x.1 ∧ x.1 < base + bs.length := by
  induction bs generalizing base with
  | nil => simp [cellsAt] at h
  | cons b bs ih =>
    simp only [cellsAt, List.mem_cons] at h
    rcases h with rfl | h
    · simp
    · have := ih (base + 1) h
      simp only [List.length_cons]
      omega

theorem wf_cellsAt (bs : List Byte) (base : Nat) : Memory.wf (cellsAt base bs) := by
  induction bs generalizing base with
  | nil => exact List.Pairwise.nil
  | cons b bs ih =>
    refine List.Pairwise.cons (fun x hx => ?_) (ih (base + 1))
    have := mem_cellsAt bs (base + 1) x hx
    show base < x.1
    omega

/-- A write keeps the canonical form. -/
theorem Memory.wf_write (m : Memory) (base : Nat) (bs : List Byte) (h : m.wf) : (m.write base bs).wf := by
  unfold Memory.write
  refine List.pairwise_append.2 ⟨h.filter _, List.pairwise_append.2 ⟨wf_cellsAt bs base, h.filter _, ?_⟩, ?_⟩
  · intro x hx y hy
    have hx' := mem_cellsAt bs base x hx
    have hy' := of_decide_eq_true (List.mem_filter.1 hy).2
    omega
  · intro x hx y hy
    have hx' := of_decide_eq_true (List.mem_filter.1 hx).2
    rcases List.mem_append.1 hy with hy | hy
    · have := mem_cellsAt bs base y hy; omega
    · have := of_decide_eq_true (List.mem_filter.1 hy).2; omega

/-- A forget keeps the canonical form. -/
theorem Memory.wf_forget (m : Memory) (base n : Nat) (h : m.wf) : (m.forget base n).wf := h.filter _

/-- Every listed byte of a written memory was listed or has just been written. -/
theorem Memory.bound_write (m : Memory) (base : Nat) (bs : List Byte) (limit : Nat)
    (h : ∀ x ∈ m, x.1 < limit) (hb : base + bs.length ≤ limit) : ∀ x ∈ m.write base bs, x.1 < limit := by
  intro x hx
  simp only [Memory.write, List.mem_append, List.mem_filter] at hx
  rcases hx with hx | hx | hx
  · exact h x hx.1
  · have := mem_cellsAt bs base x hx; omega
  · exact h x hx.1

/-- Every listed byte of a memory with forgotten bytes was listed. -/
theorem Memory.bound_forget (m : Memory) (base n limit : Nat) (h : ∀ x ∈ m, x.1 < limit) :
    ∀ x ∈ m.forget base n, x.1 < limit := fun x hx => h x (List.mem_filter.1 hx).1

/-! ### `memWrite` -/

/-- All that `memWrite` can do when it goes on. -/
theorem memWrite_next {s t : State} {base : Nat} {bs : List Byte} (h : memWrite s base bs = .next t) :
    (bs = [] ∨ base + bs.length ≤ s.params.memBytes) ∧ t = { s with mem := t.mem } ∧
      (t.mem = s.mem ∧ bs = [] ∨ t.mem = s.mem.write base bs) := by
  unfold memWrite at h
  split at h
  · cases h; simp_all
  · split at h
    · cases h; simp_all
    · cases h

/-- A write inside frame memory goes on, and a read sees it (R72). -/
theorem memWrite_inside (s : State) (base : Nat) (bs : List Byte) (h : base + bs.length ≤ s.params.memBytes) :
    ∃ t, memWrite s base bs = .next t ∧ t = { s with mem := t.mem } ∧
      (∀ a, t.readByte a = if base ≤ a ∧ a < base + bs.length then bs[a - base]? else s.readByte a) := by
  unfold memWrite
  by_cases he : bs = []
  · refine ⟨s, by simp [he], rfl, fun a => ?_⟩
    rw [if_neg (by simp [he])]
  · refine ⟨{ s with mem := s.mem.write base bs }, by simp [he, h], rfl, fun a => ?_⟩
    exact Memory.read?_write s.mem base bs a

/-- `memWrite` keeps the canonical form. -/
theorem memWrite_wf {s t : State} {base : Nat} {bs : List Byte} (h : memWrite s base bs = .next t)
    (hw : s.mem.wf) : t.mem.wf := by
  rcases (memWrite_next h).2.2 with ⟨e, -⟩ | e <;> rw [e]
  · exact hw
  · exact Memory.wf_write _ _ _ hw

/-- `memWrite` lists no byte outside frame memory. -/
theorem memWrite_bound {s t : State} {base : Nat} {bs : List Byte} (h : memWrite s base bs = .next t)
    (hb : ∀ x ∈ s.mem, x.1 < s.params.memBytes) : ∀ x ∈ t.mem, x.1 < s.params.memBytes := by
  obtain ⟨hr, -, ⟨e, -⟩ | e⟩ := memWrite_next h <;> rw [e]
  · exact hb
  · rcases hr with he | hr
    · subst he
      intro x hx
      simp only [Memory.write, cellsAt, List.nil_append, List.mem_append, List.mem_filter] at hx
      rcases hx with hx | hx <;> exact hb x hx.1
    · exact Memory.bound_write _ _ _ _ hb hr

/-- The memory right after reset has the canonical form. -/
theorem reset_mem_wf : State.reset.mem.wf := List.Pairwise.nil

end Sys2Proof.Machine
end

