-- ==== Sys2Proof/Laws/Ops.lean ====
section
/-! SUPPORT. The shared operations: what each can do, said once; and the frames of Safety.lean, which the
statements use. -/

namespace Sys2Proof.Machine

/-! ### Sequencing and channel checks -/

@[simp] theorem andThen_next (s : State) (f : State → StepOutcome) : andThen (.next s) f = f s := rfl

/-- A sequence answers a next state only through one. -/
theorem andThen_eq_next {o : StepOutcome} {f : State → StepOutcome} {t : State} (h : andThen o f = .next t) :
    ∃ s, o = .next s ∧ f s = .next t := by
  cases o with
  | next s => exact ⟨s, rfl, h⟩
  | fault r => cases h
  | refused r => cases h

/-- A command on an existing channel runs its own rule. -/
theorem onChannel_lt {c : Chan} {s : State} (body : State → State) (h : c.toNat < s.nch) :
    onChannel c s body = .next (body s) := if_neg (Nat.not_le.2 h)

/-- A command on a channel that does not exist is `E_BADCH` (R91). -/
theorem onChannel_ge {c : Chan} {s : State} (body : State → State) (h : s.nch ≤ c.toNat) :
    onChannel c s body = .next (s.finish .eBadCh .decode c) := if_pos h

/-- All that a command on a channel can do. -/
theorem onChannel_next {c : Chan} {s t : State} {body : State → State} (h : onChannel c s body = .next t) :
    t = s.finish .eBadCh .decode c ∨ c.toNat < s.nch ∧ t = body s := by
  unfold onChannel at h
  split at h <;> cases h
  · exact .inl rfl
  · exact .inr ⟨Nat.lt_of_not_le ‹_›, rfl⟩

/-- A slot write of the slot that is there changes nothing. -/
theorem State.setSlot_slot (s : State) (c : Chan) : s.setSlot c (s.slot c) = s := by
  have : s.slots.set c.toNat (s.slot c) c.isLt = s.slots := by
    apply Vector.ext
    intro i hi
    by_cases h : c.toNat = i
    · subst h; simp [State.slot]
    · simp [h]
  unfold State.setSlot
  rw [this]

/-! ### `isSoftware` and `isDma` -/

theorem Slot.isSoftware_iff (k : Slot) : k.isSoftware = true ↔ k.inUse = true ∧ k.mode = .software := by
  simp [Slot.isSoftware]

theorem Slot.isDma_iff (k : Slot) : k.isDma = true ↔ k.inUse = true ∧ k.mode = .dma := by
  simp [Slot.isDma]

/-! ### Frames -/

/-- What a refused command does (R246). -/
theorem OnlyResult.of_finish (s : State) (code : ResultCode) (step : StepCode) (c : Chan) :
    OnlyResult code step c s (s.finish code step c) where
  result := rfl
  slots := fun _ => rfl
  memory := fun _ => rfl
  requests := ⟨rfl, rfl⟩
  globals := ⟨⟨rfl, rfl, rfl, rfl, rfl, rfl, rfl, rfl⟩, rfl, rfl, rfl, rfl⟩

theorem NothingChanges.refl (s : State) : NothingChanges s s where
  result := rfl
  slots := fun _ => rfl
  memory := fun _ => rfl
  requests := ⟨rfl, rfl⟩
  globals := ⟨⟨rfl, rfl, rfl, rfl, rfl, rfl, rfl, rfl⟩, rfl, rfl, rfl, rfl⟩

theorem KeepsHostSide.refl (s : State) : KeepsHostSide s s := ⟨rfl, rfl, rfl, rfl, rfl, rfl, rfl, rfl⟩

theorem KeepsHostSide.trans {s t u : State} (h : KeepsHostSide s t) (g : KeepsHostSide t u) : KeepsHostSide s u :=
  ⟨g.arg0.trans h.arg0, g.arg1.trans h.arg1, g.arg2.trans h.arg2, g.irqEnable.trans h.irqEnable,
    g.params.trans h.params, g.events.trans h.events, g.rdata.trans h.rdata, g.memData.trans h.memData⟩

theorem KeepsGlobals.refl (s : State) : KeepsGlobals s s := ⟨.refl s, rfl, rfl, rfl, rfl⟩

theorem KeepsGlobals.trans {s t u : State} (h : KeepsGlobals s t) (g : KeepsGlobals t u) : KeepsGlobals s u :=
  ⟨h.toKeepsHostSide.trans g.toKeepsHostSide, g.ret0.trans h.ret0, g.ret1.trans h.ret1,
    g.awaiting.trans h.awaiting, g.irqStatus.trans h.irqStatus⟩

/-- The updates a command makes to its slot, its requests and `RESULT` keep every global register. -/
theorem KeepsGlobals.finish (s : State) (code : ResultCode) (step : StepCode) (c : Chan) :
    KeepsGlobals s (s.finish code step c) := (OnlyResult.of_finish s code step c).globals

theorem KeepsGlobals.setSlot (s : State) (c : Chan) (k : Slot) : KeepsGlobals s (s.setSlot c k) :=
  ⟨⟨rfl, rfl, rfl, rfl, rfl, rfl, rfl, rfl⟩, rfl, rfl, rfl, rfl⟩

theorem KeepsGlobals.updSlot (s : State) (c : Chan) (f : Slot → Slot) : KeepsGlobals s (s.updSlot c f) :=
  .setSlot s c _

theorem KeepsGlobals.sent (s : State) (r : Request) : KeepsGlobals s (s.sent r) :=
  ⟨⟨rfl, rfl, rfl, rfl, rfl, rfl, rfl, rfl⟩, rfl, rfl, rfl, rfl⟩

theorem PortEventFrame.refl (c : Chan) (s : State) : PortEventFrame c s s :=
  ⟨rfl, rfl, rfl, ⟨rfl, rfl⟩, .refl s, fun _ _ => rfl⟩

theorem PortEventFrame.trans {c : Chan} {s t u : State} (h : PortEventFrame c s t) (g : PortEventFrame c t u) :
    PortEventFrame c s u :=
  ⟨g.result.trans h.result, g.ret0.trans h.ret0, g.ret1.trans h.ret1,
    ⟨g.requests.1.trans h.requests.1, g.requests.2.trans h.requests.2⟩, h.host.trans g.host,
    fun d hd => (g.slots d hd).trans (h.slots d hd)⟩

theorem PortEventFrame.irqSet (c : Chan) (s : State) (b : Irq) : PortEventFrame c s (s.irqSet b) :=
  ⟨rfl, rfl, rfl, ⟨rfl, rfl⟩, ⟨rfl, rfl, rfl, rfl, rfl, rfl, rfl, rfl⟩, fun _ _ => rfl⟩

theorem PortEventFrame.setSlot (c : Chan) (s : State) (k : Slot) : PortEventFrame c s (s.setSlot c k) :=
  ⟨rfl, rfl, rfl, ⟨rfl, rfl⟩, ⟨rfl, rfl, rfl, rfl, rfl, rfl, rfl, rfl⟩, fun d hd => State.slot_setSlot_ne s c d k hd⟩

theorem PortEventFrame.updSlot (c : Chan) (s : State) (f : Slot → Slot) : PortEventFrame c s (s.updSlot c f) :=
  .setSlot c s _

theorem PortEventFrame.forget (c : Chan) (s : State) (a n : Nat) : PortEventFrame c s (s.forget a n) :=
  ⟨rfl, rfl, rfl, ⟨rfl, rfl⟩, ⟨rfl, rfl, rfl, rfl, rfl, rfl, rfl, rfl⟩, fun _ _ => rfl⟩

theorem PortEventFrame.memWrite {c : Chan} {s t : State} {base : Nat} {bs : List Byte}
    (h : memWrite s base bs = .next t) : PortEventFrame c s t := by
  rw [(memWrite_next h).2.1]
  exact ⟨rfl, rfl, rfl, ⟨rfl, rfl⟩, ⟨rfl, rfl, rfl, rfl, rfl, rfl, rfl, rfl⟩, fun _ _ => rfl⟩

/-! ### The answers to requests in order -/

/-- An answer depends on the answers waiting and on the requests sent, and on nothing else (R12). -/
theorem State.answerTo_congr {s t : State} (hr : t.requests = s.requests) (ha : t.answers = s.answers)
    (q : Request) : t.answerTo q = s.answerTo q := by
  unfold State.answerTo
  rw [hr, ha]

theorem State.answersTo_congr {s t : State} (hr : t.requests = s.requests) (ha : t.answers = s.answers)
    (qs : List Request) : t.answersTo qs = s.answersTo qs := by
  induction qs generalizing s t with
  | nil => rfl
  | cons q qs ih =>
    have := ih (s := s.sent q) (t := t.sent q) (by simp [State.sent, hr]) (by simp [State.sent, ha])
    simp only [State.answersTo, State.answerTo_congr hr ha, this]

@[simp] theorem State.setAwaiting_answersTo (s : State) (n : Word) (qs : List Request) :
    (s.setAwaiting n).answersTo qs = s.answersTo qs :=
  State.answersTo_congr (s := s) (t := s.setAwaiting n) rfl rfl qs

@[simp] theorem State.answersTo_nil (s : State) : s.answersTo [] = [] := rfl

@[simp] theorem State.answersTo_cons (s : State) (r : Request) (rs : List Request) :
    s.answersTo (r :: rs) = s.answerTo r :: (s.sent r).answersTo rs := rfl

theorem State.answersTo_append (s : State) (rs qs : List Request) :
    s.answersTo (rs ++ qs) = s.answersTo rs ++ (s.sentAll rs).answersTo qs := by
  induction rs generalizing s with
  | nil => rfl
  | cons r rs ih => simp only [List.cons_append, State.answersTo_cons, ih]; rfl

@[simp] theorem State.answersTo_length (s : State) (rs : List Request) : (s.answersTo rs).length = rs.length := by
  induction rs generalizing s with
  | nil => rfl
  | cons r rs ih => simp [ih]

theorem State.sentAll_sends (s : State) (rs : List Request) : Sends rs s (s.sentAll rs) := by
  induction rs generalizing s with
  | nil => exact ⟨by simp [State.sentAll], by simp [State.sentAll]⟩
  | cons r rs ih =>
    obtain ⟨h1, h2⟩ := ih (s.sent r)
    exact ⟨h1.trans (by simp [State.sent]), h2.trans (by simp [State.sent])⟩

/-- A state that is reached by sending requests answers as their sending alone would have it (R12). -/
theorem Sends.answerTo {rs : List Request} {s t : State} (h : Sends rs s t) (q : Request) :
    t.answerTo q = (s.sentAll rs).answerTo q :=
  State.answerTo_congr (h.1.trans (s.sentAll_sends rs).1.symm) (h.2.trans (s.sentAll_sends rs).2.symm) q

theorem Sends.answersTo {rs : List Request} {s t : State} (h : Sends rs s t) (qs : List Request) :
    t.answersTo qs = (s.sentAll rs).answersTo qs :=
  State.answersTo_congr (h.1.trans (s.sentAll_sends rs).1.symm) (h.2.trans (s.sentAll_sends rs).2.symm) qs

/-- A read of a range whose bytes are known one by one. -/
theorem State.readBytes_eq {s : State} {base n : Nat} {bs : List Byte} (hn : bs.length = n)
    (h : ∀ i < n, s.readByte (base + i) = bs[i]?) : s.readBytes base n = bs.map some := by
  subst hn
  apply List.ext_getElem
  · simp [State.readBytes]
  · intro i h1 h2
    have hi : i < bs.length := by simpa using h2
    simp [State.readBytes, h i hi, hi]

end Sys2Proof.Machine
end

