-- ==== Sys2Proof/Laws/Session.lean ====
section
/-! SUPPORT. The tear-down steps that `UNBIND`, `DEREGISTER`, `STOP` and `GRP_STOP` share (R156, R205). -/

namespace Sys2Proof.Machine

/-- The slot after both tear-down steps (R156). -/
def Slot.tornTransport (k : Slot) : Slot :=
  { (if k.receiving then Slot.abandon { k with receiving := false } else k) with registered := false }

theorem Slot.abandon_receiving (k : Slot) : k.abandon.receiving = k.receiving := by
  unfold Slot.abandon; split <;> rfl

theorem Slot.abandon_registered (k : Slot) : k.abandon.registered = k.registered := by
  unfold Slot.abandon; split <;> rfl

/-- A slot that is not registered is as a deregistration leaves it. -/
theorem Slot.unregistered {k : Slot} (h : k.registered = false) : { k with registered := false } = k := by
  cases k; simp_all

/-- What a tear-down step leaves: the other slots, the memory, the global registers and `RESULT` as they were, and
its requests sent in order. -/
structure TearFrame (c : Chan) (rs : List Request) (s t : State) : Prop where
  others : OtherSlotsSame c s t
  memory : t.mem = s.mem
  globals : KeepsGlobals s t
  result : t.result = s.result
  sends : Sends rs s t

theorem TearFrame.refl (c : Chan) (s : State) : TearFrame c [] s s :=
  ⟨fun _ _ => rfl, rfl, .refl s, rfl, by simp, by simp⟩

theorem TearFrame.trans {c : Chan} {rs qs : List Request} {s t u : State} (h : TearFrame c rs s t)
    (g : TearFrame c qs t u) : TearFrame c (rs ++ qs) s u :=
  ⟨fun d hd => (g.others d hd).trans (h.others d hd), g.memory.trans h.memory, h.globals.trans g.globals,
    g.result.trans h.result, by rw [g.sends.1, h.sends.1, List.append_assoc],
    by rw [g.sends.2, h.sends.2, List.drop_drop, List.length_append]⟩

theorem TearFrame.request (c : Chan) (r : Request) (f : Slot → Slot) (s : State) :
    TearFrame c [r] s ((s.sent r).updSlot c f) :=
  ⟨fun d hd => by simp [State.slot_updSlot_ne, hd], rfl, (KeepsGlobals.sent s _).trans (.updSlot _ c _), rfl, rfl,
    List.drop_one.symm⟩

/-- The stop step (R156). -/
theorem tearStop_frame (c : Chan) (first : Option Failure) (s : State) :
    TearFrame c (if (s.slot c).receiving then [.xpStop c] else []) s (tearStop c first s).2 ∧
      (tearStop c first s).2.slot c =
        if (s.slot c).receiving then Slot.abandon { s.slot c with receiving := false } else s.slot c := by
  unfold tearStop
  by_cases h : (s.slot c).receiving = true
  · rw [if_pos h, if_pos h, if_pos h]
    dsimp only
    exact ⟨.request c _ _ s, State.slot_updSlot_same _ _ _⟩
  · rw [if_neg h, if_neg h, if_neg h]
    exact ⟨.refl c s, rfl⟩

/-- The deregister step (R156). -/
theorem tearDeregister_frame (c : Chan) (first : Option Failure) (s : State) :
    TearFrame c (if (s.slot c).registered then [.xpDereg c] else []) s (tearDeregister c first s).2 ∧
      (tearDeregister c first s).2.slot c = { s.slot c with registered := false } := by
  unfold tearDeregister
  by_cases h : (s.slot c).registered = true
  · rw [if_pos h, if_pos h]
    dsimp only
    exact ⟨.request c _ _ s, State.slot_updSlot_same _ _ _⟩
  · rw [if_neg h, if_neg h]
    exact ⟨.refl c s, (Slot.unregistered (by simpa using h)).symm⟩

/-- Both steps (R156). -/
theorem tearTransport_frame (c : Chan) (first : Option Failure) (s : State) :
    TearFrame c (tearRequests (s.slot c) c) s (tearTransport c first s).2 ∧
      (tearTransport c first s).2.slot c = (s.slot c).tornTransport := by
  obtain ⟨h1, h2⟩ := tearStop_frame c first s
  obtain ⟨g1, g2⟩ := tearDeregister_frame c (tearStop c first s).1 (tearStop c first s).2
  have hr : ((tearStop c first s).2.slot c).registered = (s.slot c).registered := by
    rw [h2]
    split
    · rw [Slot.abandon_registered]
    · rfl
  rw [hr] at g1
  refine ⟨h1.trans g1, ?_⟩
  show (tearDeregister c _ _).2.slot c = _
  rw [g2, h2]
  rfl

/-- The outcome a failed request of a tear-down reports (R156, R205); no other request is one of a tear-down. -/
def failureOf : Request → Failure
  | .xpStop c => (.eXport, .stop, c)
  | .xpDereg c => (.eXport, .deregister, c)
  | .xpReg c => (.eXport, .register, c)
  | .xpStart c => (.eXport, .start, c)
  | .dmaListen c _ _ => (.eDma, .listen, c)
  | .dmaUnlisten c => (.eDma, .unlisten, c)

/-- The first failed request of a list, when the answers come in order (R156). -/
def firstFailure : List Request → List Answer → Option Failure
  | [], _ => none
  | _ :: _, [] => none
  | r :: rs, a :: as => if a.ok then firstFailure rs as else some (failureOf r)

theorem firstFailure_append (rs qs : List Request) (as bs : List Answer) (h : as.length = rs.length) :
    firstFailure (rs ++ qs) (as ++ bs) = (firstFailure rs as).or (firstFailure qs bs) := by
  induction rs generalizing as with
  | nil => cases as with
    | nil => simp [firstFailure]
    | cons a as => simp at h
  | cons r rs ih => cases as with
    | nil => simp at h
    | cons a as =>
      simp only [List.cons_append, firstFailure]
      split
      · exact ih as (by simpa using h)
      · simp

/-- Where every answer is positive nothing failed. -/
theorem firstFailure_of_ok (rs : List Request) (as : List Answer) (h : ∀ a ∈ as, a.ok = true) :
    firstFailure rs as = none := by
  induction rs generalizing as with
  | nil => rfl
  | cons r rs ih => cases as with
    | nil => rfl
    | cons a as =>
      rw [firstFailure, if_pos (h a (by simp))]
      exact ih as fun b hb => h b (by simp [hb])

/-- The first request whose answer is negative is the one reported. -/
theorem firstFailure_of_first (rs : List Request) (as : List Answer) (n : Nat) (r : Request) (a : Answer)
    (hr : rs[n]? = some r) (ha : as[n]? = some a) (hno : a.ok = false)
    (hbefore : ∀ j < n, ∀ b, as[j]? = some b → b.ok = true) : firstFailure rs as = some (failureOf r) := by
  induction rs generalizing as n with
  | nil => simp at hr
  | cons q rs ih => cases as with
    | nil => simp at ha
    | cons b as => cases n with
      | zero =>
        obtain rfl : q = r := by simpa using hr
        obtain rfl : b = a := by simpa using ha
        simp [firstFailure, hno]
      | succ n =>
        rw [firstFailure, if_pos (hbefore 0 (by omega) b (by simp))]
        exact ih as n (by simpa using hr) (by simpa using ha) fun j hj c hc =>
          hbefore (j + 1) (by omega) c (by simpa using hc)

/-- What a tear-down of one channel reports: an earlier failure first, then its own first (R156). -/
theorem tearTransport_failure (c : Chan) (first : Option Failure) (s : State) :
    (tearTransport c first s).1 =
      first.or (firstFailure (tearRequests (s.slot c) c) (s.answersTo (tearRequests (s.slot c) c))) := by
  unfold tearTransport tearStop tearDeregister tearRequests
  by_cases h1 : (s.slot c).receiving = true <;> by_cases h2 : (s.slot c).registered = true <;>
    simp only [h1, h2, if_true, State.slot_updSlot_same, Slot.abandon_registered, State.sent_slot,
      State.updSlot_answerTo, Bool.false_eq_true, if_false, List.cons_append, List.nil_append, State.answersTo_cons,
      State.answersTo_nil]
  · cases h3 : (s.answerTo (.xpStop c)).ok <;> cases h4 : ((s.sent (.xpStop c)).answerTo (.xpDereg c)).ok <;>
      cases first <;> simp [noteFailure, firstFailure, failureOf, h3, h4]
  · cases h3 : (s.answerTo (.xpStop c)).ok <;> cases first <;> simp [noteFailure, firstFailure, failureOf, h3]
  · cases h3 : (s.answerTo (.xpDereg c)).ok <;> cases first <;> simp [noteFailure, firstFailure, failureOf, h3]
  · simp [firstFailure]

end Sys2Proof.Machine
end

