-- ==== Sys2Proof/Laws/Monitor.lean ====
section
/-! SUPPORT. The member loops of the group commands: what one member's turn does, and the frames of the loops
(R154 to R156). -/

namespace Sys2Proof.Machine

/-- What a loop over group members leaves: the slots of no member, the memory, the global registers and `RESULT` as
they were, and its requests sent in order. -/
structure GroupFrame (group : List Chan) (rs : List Request) (s t : State) : Prop where
  others : ∀ d, d ∉ group → t.slot d = s.slot d
  memory : t.mem = s.mem
  globals : KeepsGlobals s t
  result : t.result = s.result
  sends : Sends rs s t

theorem GroupFrame.refl (s : State) : GroupFrame [] [] s s :=
  ⟨fun _ _ => rfl, rfl, .refl s, rfl, by simp, by simp⟩

theorem GroupFrame.trans {g h : List Chan} {rs qs : List Request} {s t u : State} (a : GroupFrame g rs s t)
    (b : GroupFrame h qs t u) : GroupFrame (g ++ h) (rs ++ qs) s u :=
  ⟨fun d hd => by
      simp only [List.mem_append, not_or] at hd
      exact (b.others d hd.2).trans (a.others d hd.1),
    b.memory.trans a.memory, a.globals.trans b.globals, b.result.trans a.result,
    by rw [b.sends.1, a.sends.1, List.append_assoc], by rw [b.sends.2, a.sends.2, List.drop_drop, List.length_append]⟩

theorem GroupFrame.of_tear {c : Chan} {rs : List Request} {s t : State} (h : TearFrame c rs s t) :
    GroupFrame [c] rs s t :=
  ⟨fun d hd => h.others d (by simpa using hd), h.memory, h.globals, h.result, h.sends⟩

theorem GroupFrame.request (c : Chan) (r : Request) (f : Slot → Slot) (s : State) :
    GroupFrame [c] [r] s ((s.sent r).updSlot c f) := .of_tear (.request c r f s)

/-- The members a loop may touch can only be stated more generously. -/
theorem GroupFrame.mono {g h : List Chan} {rs : List Request} {s t : State} (a : GroupFrame g rs s t)
    (hg : ∀ d, d ∈ g → d ∈ h) : GroupFrame h rs s t :=
  ⟨fun d hd => a.others d (fun m => hd (hg d m)), a.memory, a.globals, a.result, a.sends⟩

/-! ### `GRP_STOP` -/

/-- The member loop of `GRP_STOP` over distinct members (R156). -/
theorem groupStop_frame (group : List Chan) : ∀ (first : Option Failure) (s : State), group.Nodup →
    GroupFrame group (group.flatMap fun c => tearRequests (s.slot c) c) s (groupStop group first s).2 ∧
      ∀ c ∈ group, (groupStop group first s).2.slot c = (s.slot c).tornTransport := by
  induction group with
  | nil => intro first s _; exact ⟨.refl s, nofun⟩
  | cons c group ih =>
    intro first s hn
    obtain ⟨hc, hn⟩ := List.nodup_cons.1 hn
    obtain ⟨h1, h2⟩ := tearTransport_frame c first s
    obtain ⟨g1, g2⟩ := ih (tearTransport c first s).1 (tearTransport c first s).2 hn
    have hne : ∀ d ∈ group, (tearTransport c first s).2.slot d = s.slot d := fun d hd =>
      h1.others d (fun e => hc (e ▸ hd))
    have hrs : (group.flatMap fun c' => tearRequests ((tearTransport c first s).2.slot c') c') =
        group.flatMap fun c' => tearRequests (s.slot c') c' := by
      rw [← List.flatMap_congr]
      exact fun d hd => by rw [hne d hd]
    rw [hrs] at g1
    refine ⟨(GroupFrame.of_tear h1).trans g1, fun d hd => ?_⟩
    show (groupStop group _ _).2.slot d = _
    rcases List.mem_cons.1 hd with rfl | hd
    · rw [g1.others d hc, h2]
    · rw [g2 d hd, hne d hd]

/-- The failure `GRP_STOP`'s loop reports (R156). -/
theorem groupStop_failure (group : List Chan) : ∀ (first : Option Failure) (s : State), group.Nodup →
    (groupStop group first s).1 =
      first.or (firstFailure (group.flatMap fun c => tearRequests (s.slot c) c)
        (s.answersTo (group.flatMap fun c => tearRequests (s.slot c) c))) := by
  induction group with
  | nil => intro first s _; simp [groupStop, firstFailure]
  | cons c group ih =>
    intro first s hn
    obtain ⟨hc, hn⟩ := List.nodup_cons.1 hn
    obtain ⟨h1, -⟩ := tearTransport_frame c first s
    have hrs : (group.flatMap fun c' => tearRequests ((tearTransport c first s).2.slot c') c') =
        group.flatMap fun c' => tearRequests (s.slot c') c' := by
      rw [← List.flatMap_congr]
      exact fun d hd => by rw [h1.others d (fun e => hc (e ▸ hd))]
    show (groupStop group _ _).1 = _
    rw [ih _ _ hn, hrs, tearTransport_failure, List.flatMap_cons, Option.or_assoc, State.answersTo_append,
      h1.sends.answersTo, firstFailure_append _ _ _ _ (State.answersTo_length _ _)]

/-! ### `GRP_START` -/

/-- A member's slot once it is started (R154). -/
def Slot.started (k : Slot) : Slot := { k.rearm with registered := true, receiving := true }

/-- The state after a member is started (R154). -/
def startMember (c : Chan) (s : State) : State :=
  ((((s.updSlot c Slot.rearm).sent (.xpReg c)).updSlot c fun k => { k with registered := true }).sent
    (.xpStart c)).updSlot c fun k => { k with receiving := true }

theorem startMember_frame (c : Chan) (s : State) :
    GroupFrame [c] [.xpReg c, .xpStart c] s (startMember c s) ∧ (startMember c s).slot c = (s.slot c).started := by
  refine ⟨⟨fun d hd => ?_, by simp [startMember], ?_, by simp [startMember], ?_, ?_⟩, ?_⟩
  · have hd' : d ≠ c := by simpa using hd
    simp [startMember, State.slot_updSlot_ne, hd']
  · exact ((((KeepsGlobals.updSlot s c _).trans (.sent _ _)).trans (.updSlot _ c _)).trans (.sent _ _)).trans
      (.updSlot _ c _)
  · simp [startMember, State.sent, State.updSlot, State.setSlot]
  · simp [startMember, State.sent, State.updSlot, State.setSlot, ← List.drop_one]
  · simp [startMember, Slot.started]

theorem not_startable_iff (k : Slot) : (!k.isSoftware || k.registered) = true ↔ ¬ Startable k := by
  cases h1 : k.inUse <;> cases h2 : k.mode <;> cases h3 : k.registered <;>
    simp [Slot.isSoftware, Startable, h1, h2, h3]

/-- A member that cannot be bound (R154). -/
theorem groupStart_bind {started rest : List Chan} {c : Chan} {s : State} (h : ¬ Startable (s.slot c)) :
    groupStart started (c :: rest) s = (rollback started s).finish .eState .bind c :=
  if_pos ((not_startable_iff _).2 h)

/-- A member whose registration fails (R154). -/
theorem groupStart_register {started rest : List Chan} {c : Chan} {s : State} (h : Startable (s.slot c))
    (hr : (s.answerTo (.xpReg c)).ok = false) : groupStart started (c :: rest) s =
      (rollback started ((s.updSlot c Slot.rearm).sent (.xpReg c))).finish .eXport .register c := by
  unfold groupStart
  rw [if_neg (fun e => (not_startable_iff _).1 e h)]
  exact if_pos (by simp [hr])

/-- A member whose start fails is deregistered again (R154). -/
theorem groupStart_start {started rest : List Chan} {c : Chan} {s : State} (h : Startable (s.slot c))
    (hr : (s.answerTo (.xpReg c)).ok = true)
    (hs : (((s.updSlot c Slot.rearm).sent (.xpReg c)).answerTo (.xpStart c)).ok = false) :
    ∃ u, groupStart started (c :: rest) s = (rollback started u).finish .eXport .start c ∧
      GroupFrame [c] [.xpReg c, .xpStart c, .xpDereg c] s u ∧ u.slot c = (s.slot c).rearm := by
  refine ⟨(((((s.updSlot c Slot.rearm).sent (.xpReg c)).updSlot c fun k => { k with registered := true }).sent
    (.xpStart c)).sent (.xpDereg c)).updSlot c fun k => { k with registered := false }, ?_, ⟨fun d hd => ?_, by simp, ?_, by simp, ?_, ?_⟩, ?_⟩
  · unfold groupStart
    rw [if_neg (fun e => (not_startable_iff _).1 e h)]
    dsimp only
    rw [if_neg (by simp [hr])]
    exact if_pos (by
      show (!(((s.updSlot c Slot.rearm).sent (.xpReg c)).answerTo (.xpStart c)).ok) = true
      rw [hs]; rfl)
  · have hd' : d ≠ c := by simpa using hd
    simp [State.slot_updSlot_ne, hd']
  · exact (((((KeepsGlobals.updSlot s c _).trans (.sent _ _)).trans (.updSlot _ c _)).trans (.sent _ _)).trans
      (.sent _ _)).trans (.updSlot _ c _)
  · simp [State.sent, State.updSlot, State.setSlot]
  · simp [State.sent, State.updSlot, State.setSlot, ← List.drop_one]
  · simp only [State.slot_updSlot_same, State.sent_slot]
    exact Slot.unregistered (k := (s.slot c).rearm) h.2.2

/-- A member that starts (R154). -/
theorem groupStart_member {started rest : List Chan} {c : Chan} {s : State} (h : Startable (s.slot c))
    (hr : (s.answerTo (.xpReg c)).ok = true)
    (hs : (((s.updSlot c Slot.rearm).sent (.xpReg c)).answerTo (.xpStart c)).ok = true) :
    groupStart started (c :: rest) s = groupStart (c :: started) rest (startMember c s) := by
  conv => lhs; unfold groupStart
  rw [if_neg (fun e => (not_startable_iff _).1 e h)]
  dsimp only
  rw [if_neg (by simp [hr])]
  exact if_neg (by
    show ¬ (!(((s.updSlot c Slot.rearm).sent (.xpReg c)).answerTo (.xpStart c)).ok) = true
    rw [hs]; simp)

/-- The part of `GRP_START`'s loop in which every member starts (R154). -/
theorem groupStart_started (group : List Chan) : ∀ (started tail : List Chan) (u : State), group.Nodup →
    (∀ c ∈ group, Startable (u.slot c)) → (∀ a ∈ u.answersTo (startRequests group), a.ok = true) →
    ∃ v, groupStart started (group ++ tail) u = groupStart (group.reverse ++ started) tail v ∧
      GroupFrame group (startRequests group) u v ∧ ∀ c ∈ group, v.slot c = (u.slot c).started := by
  induction group with
  | nil => intro started tail u _ _ _; exact ⟨u, rfl, .refl u, nofun⟩
  | cons c group ih =>
    intro started tail u hn hst hok
    obtain ⟨hc, hn⟩ := List.nodup_cons.1 hn
    obtain ⟨hf, hs⟩ := startMember_frame c u
    have hother : ∀ d ∈ group, (startMember c u).slot d = u.slot d := fun d hd =>
      hf.others d (fun m => hc ((List.mem_singleton.1 m) ▸ hd))
    have happ : startRequests (c :: group) = [.xpReg c, .xpStart c] ++ startRequests group := rfl
    rw [happ, State.answersTo_append] at hok
    obtain ⟨v, hv, hvf, hvs⟩ := ih (c :: started) tail (startMember c u) hn
      (fun d hd => by rw [hother d hd]; exact hst d (by simp [hd]))
      (fun a ha => hok a (List.mem_append_right _ (by rwa [← hf.sends.answersTo])))
    refine ⟨v, ?_, hf.trans hvf, fun d hd => ?_⟩
    · rw [List.cons_append, groupStart_member (hst c (by simp)) (hok _ (by simp))
        (hok ((u.sent (.xpReg c)).answerTo (.xpStart c)) (by simp)), hv]
      simp
    · rcases List.mem_cons.1 hd with rfl | hd
      · rw [hvf.others d hc, hs]
      · rw [hvs d hd, hother d hd]

/-- The roll-back of distinct members (R155). -/
theorem rollback_frame (group : List Chan) : ∀ s : State, group.Nodup →
    GroupFrame group (undoRequests group) s (rollback group s) ∧
      ∀ c ∈ group, (rollback group s).slot c = { s.slot c with registered := false, receiving := false } := by
  induction group with
  | nil => intro s _; exact ⟨.refl s, nofun⟩
  | cons c group ih =>
    intro s hn
    obtain ⟨hc, hn⟩ := List.nodup_cons.1 hn
    have h1 := GroupFrame.request c (.xpStop c) (fun k => { k with receiving := false }) s
    have h2 := GroupFrame.request c (.xpDereg c) (fun k => { k with registered := false })
      ((s.sent (.xpStop c)).updSlot c fun k => { k with receiving := false })
    obtain ⟨g1, g2⟩ := ih ((((s.sent (.xpStop c)).updSlot c fun k => { k with receiving := false }).sent
      (.xpDereg c)).updSlot c fun k => { k with registered := false }) hn
    have h12 := (h1.trans h2).mono (h := [c]) (by simp)
    refine ⟨(h12.trans g1), fun d hd => ?_⟩
    show (rollback group _).slot d = _
    rcases List.mem_cons.1 hd with rfl | hd
    · rw [g1.others d hc]; simp
    · rw [g2 d hd, h12.others d (by simp; exact fun e => hc (e ▸ hd))]

end Sys2Proof.Machine
end

