-- ==== Sys2Proof/Laws/Operands.lean ====
section
/-! SUPPORT. The members of a group (R153). -/

namespace Sys2Proof.Machine

/-- The members of a group are distinct. -/
theorem members_nodup (mask : BitVec 64) : (members mask).Nodup := by
  unfold members maskBits
  refine List.Nodup.map_on (fun a ha b hb e => ?_) (List.nodup_range.filter _)
  have ha' := List.mem_range.1 (List.mem_filter.1 ha).1
  have hb' := List.mem_range.1 (List.mem_filter.1 hb).1
  have := congrArg BitVec.toNat e
  rwa [BitVec.toNat_ofNat, BitVec.toNat_ofNat, Nat.mod_eq_of_lt ha', Nat.mod_eq_of_lt hb'] at this

/-- The members of a mask that passes the check exist (R153). -/
theorem members_lt {mask : BitVec 64} {n : Nat} (h : lowestBadMember mask n = none) : ∀ c ∈ members mask, c.toNat < n := by
  intro c hc
  unfold members at hc
  obtain ⟨i, hi, rfl⟩ := List.mem_map.1 hc
  unfold lowestBadMember at h
  rw [Option.map_eq_none_iff, List.find?_eq_none] at h
  have h1 := h i hi
  have h2 := List.mem_range.1 (List.mem_filter.1 hi).1
  rw [BitVec.toNat_ofNat, Nat.mod_eq_of_lt h2]
  simpa using h1

/-- A group of existing channels has at most as many members as there are channels. -/
theorem members_length_le {mask : BitVec 64} {n : Nat} (h : lowestBadMember mask n = none) :
    (members mask).length ≤ n := by
  have h1 : ((members mask).map BitVec.toNat).Nodup :=
    (members_nodup mask).map (fun a b e => BitVec.eq_of_toNat_eq e)
  have h2 : (members mask).map BitVec.toNat ⊆ List.range n := fun x hx => by
    obtain ⟨c, hc, rfl⟩ := List.mem_map.1 hx
    exact List.mem_range.2 (members_lt h c hc)
  have h3 := (h1.subperm h2).length_le
  simpa using h3

/-- A group command: a refusal, or its own rule over members that exist (R153). -/
theorem onGroup_effect (P : State → State → Prop) {s : State} {body : List Chan → State → State}
    (hbad : ∀ c, P s (s.finish .eBadCh .decode c))
    (h : (∀ c ∈ members s.groupMask, c.toNat < s.nch) → (members s.groupMask).length ≤ s.nch →
      P s (body (members s.groupMask) s)) : ∃ t, onGroup s body = .next t ∧ P s t := by
  unfold onGroup
  split
  · exact ⟨_, rfl, hbad _⟩
  · rename_i hn
    exact ⟨_, rfl, h (members_lt hn) (members_length_le hn)⟩

end Sys2Proof.Machine
end

