-- ==== Sys2Proof/Laws/Packet.lean ====
section
/-! SUPPORT. The packet event's operations: what copy, completion test and watchdog do together, said once. -/

namespace Sys2Proof.Machine

/-- The copy never runs past the frame (R125). -/
theorem copyCount_le (k : Slot) (len : Word) : k.woff.toNat + copyCount k len ≤ max k.woff.toNat k.expected.toNat := by
  unfold copyCount; omega

/-- The offset after a copy does not wrap (R36, R125). -/
theorem copyOffset_toNat (k : Slot) (len : Word) :
    (k.woff + BitVec.ofNat 32 (copyCount k len)).toNat = k.woff.toNat + copyCount k len := by
  have h1 := copyCount_le k len
  have h2 := k.woff.isLt
  have h3 := k.expected.isLt
  simp only [BitVec.toNat_add, BitVec.toNat_ofNat]
  have h4 : copyCount k len < 2 ^ 32 := by omega
  rw [Nat.mod_eq_of_lt h4, Nat.mod_eq_of_lt (by omega)]

/-- `wdcnt` after one more packet, as a number (R130). -/
theorem bumpWatchdog_toNat (w : Word) : (bumpWatchdog w).toNat = min (w.toNat + 1) (2 ^ 32 - 1) := by
  simp only [bumpWatchdog, BitVec.toNat_ofNat]
  exact Nat.mod_eq_of_lt (by omega)

/-- The watchdog's test on the bumped counter (R130). -/
theorem watchdogDue_iff (k : Slot) (w : Word) :
    watchdogDue { k with wdcnt := bumpWatchdog w } = true ↔ k.wdlim ≠ 0 ∧ k.wdlim.toNat ≤ min (w.toNat + 1) (2 ^ 32 - 1) := by
  simp only [watchdogDue, Bool.and_eq_true, decide_eq_true_eq, BitVec.le_def, bumpWatchdog_toNat]

/-- The two parts of R127's counter rule in one: what `countCompletion` does. -/
theorem countCompletion_eq (s : State) : countCompletion s =
    { s with
      awaiting := if s.awaiting = 0 then 0 else s.awaiting - 1
      irqStatus := s.irqStatus |||
        (if s.awaiting = 0 then Irq.awaitUf.bit else if s.awaiting = 1 then Irq.allDone.bit else 0) } := by
  have h1 : s.awaiting - 1 = 0 ↔ s.awaiting = 1 := by
    constructor <;> intro h
    · bv_omega
    · rw [h]; rfl
  unfold countCompletion
  by_cases h : s.awaiting = 0
  · rw [if_pos h, if_pos h, if_pos h, ← h]; rfl
  · rw [if_neg h, if_neg h, if_neg h]
    dsimp only
    rw [State.setAwaiting_awaiting]
    by_cases h2 : s.awaiting = 1
    · rw [if_pos h2, if_pos (h1.2 h2)]; rfl
    · rw [if_neg h2, if_neg (mt h1.1 h2)]
      show _ = { s with awaiting := s.awaiting - 1, irqStatus := s.irqStatus ||| 0#8 }
      rw [BitVec.or_zero]
      rfl

/-- A number counts down and stops at 0 (R127). -/
theorem countDown_toNat (w : Word) : (if w = 0 then 0 else w - 1).toNat = w.toNat - 1 := by
  split
  · rename_i h; rw [h]; rfl
  · rename_i h; bv_omega

/-! ### Frames -/

theorem PortEventFrame.countCompletion (c : Chan) (s : State) : PortEventFrame c s (countCompletion s) := by
  rw [countCompletion_eq]
  exact ⟨rfl, rfl, rfl, ⟨rfl, rfl⟩, ⟨rfl, rfl, rfl, rfl, rfl, rfl, rfl, rfl⟩, fun _ _ => rfl⟩

theorem PortEventFrame.overflow (c : Chan) (s : State) : PortEventFrame c s (overflow c s) :=
  (PortEventFrame.updSlot c s _).trans (.irqSet c _ _)

theorem PortEventFrame.completeFrame (c : Chan) (s : State) : PortEventFrame c s (completeFrame c s) :=
  (((PortEventFrame.updSlot c s _).trans (.countCompletion c _)).trans (.updSlot c _ _)).trans (.irqSet c _ _)

theorem PortEventFrame.watchdog (c : Chan) (b : Bool) (s : State) : PortEventFrame c s (watchdog c b s) := by
  unfold Machine.watchdog
  split
  · exact .refl c s
  · dsimp only
    split
    · exact ((PortEventFrame.updSlot c s _).trans (.updSlot c _ _)).trans (.irqSet c _ _)
    · exact .updSlot c s _

theorem PortEventFrame.completionTest (c : Chan) (s : State) : PortEventFrame c s (completionTest c s).2 := by
  unfold Machine.completionTest
  split
  · exact .completeFrame c s
  · exact .refl c s

theorem completionTest_mem (c : Chan) (s : State) : (completionTest c s).2.mem = s.mem := by
  unfold completionTest
  split
  · simp [completeFrame, countCompletion_eq]
  · rfl

theorem watchdog_mem (c : Chan) (b : Bool) (s : State) : (watchdog c b s).mem = s.mem := by
  unfold watchdog
  split
  · rfl
  · dsimp only
    split <;> rfl

/-! ### A packet that is not dropped -/

/-- The slot of a channel after a frame is completed (R127). -/
theorem completeFrame_slot (c : Chan) (s : State) : (completeFrame c s).slot c =
    { s.slot c with caplen := (s.slot c).woff, progress := .complete, woff := 0, wdcnt := 0 } := by
  simp [completeFrame, countCompletion_eq, State.slot, State.updSlot, State.setSlot]

/-- The counter after a frame is completed (R127). -/
theorem completeFrame_awaiting (c : Chan) (s : State) :
    (completeFrame c s).awaiting = if s.awaiting = 0 then 0 else s.awaiting - 1 := by
  show (countCompletion (s.updSlot c _)).awaiting = _
  rw [countCompletion_eq]; rfl

/-- The interrupt bits a completion sets (R127). -/
theorem completeFrame_irqStatus (c : Chan) (s : State) : (completeFrame c s).irqStatus = s.irqStatus |||
    (if s.awaiting = 0 then Irq.awaitUf.bit else if s.awaiting = 1 then Irq.allDone.bit else 0) ||| Irq.frame.bit := by
  show (countCompletion (s.updSlot c _)).irqStatus ||| _ = _
  rw [countCompletion_eq]; rfl

/-- What is left of a packet after its bytes are stored: offset, overflow, completion, watchdog. -/
def afterStore (c : Chan) (len : Word) (s : State) : State :=
  let n := copyCount (s.slot c) len
  let s2 := s.updSlot c fun k => { k with woff := k.woff + BitVec.ofNat 32 n }
  let s3 := if n < len.toNat then overflow c s2 else s2
  let t := completionTest c s3
  watchdog c t.1 t.2

/-- A packet that is not dropped stores the bytes that fit and then does the rest. -/
theorem takePayload_eq (c : Chan) (len : Word) (p : List Byte) (s : State) :
    takePayload c len p s =
      andThen (memWrite s ((s.slot c).dest.toNat + (s.slot c).woff.toNat) (p.take (copyCount (s.slot c) len)))
        fun s1 => .next (afterStore c len s1) := by
  unfold takePayload copyPayload
  cases h : memWrite s ((s.slot c).dest.toNat + (s.slot c).woff.toNat) (p.take (copyCount (s.slot c) len)) with
  | next s1 =>
    have hs : s1.slot c = s.slot c := by rw [(memWrite_next h).2.1]; rfl
    simp only [h, andThen_next, afterStore, hs]
  | fault r => simp only [h]; rfl
  | refused r => simp only [h]; rfl

/-- The port event frame of what follows the store. -/
theorem afterStore_frame (c : Chan) (len : Word) (s : State) : PortEventFrame c s (afterStore c len s) := by
  unfold afterStore
  refine PortEventFrame.trans (t := (completionTest c _).2) ?_ (.watchdog c _ _)
  refine PortEventFrame.trans (t := if copyCount (s.slot c) len < len.toNat then
    overflow c (s.updSlot c fun k => { k with woff := k.woff + BitVec.ofNat 32 (copyCount (s.slot c) len) })
    else s.updSlot c fun k => { k with woff := k.woff + BitVec.ofNat 32 (copyCount (s.slot c) len) }) ?_ ?_
  · split
    · exact (PortEventFrame.updSlot c s _).trans (.overflow c _)
    · exact .updSlot c s _
  · exact .completionTest c _

/-- What follows the store touches no memory. -/
theorem afterStore_mem (c : Chan) (len : Word) (s : State) : (afterStore c len s).mem = s.mem := by
  unfold afterStore
  dsimp only
  rw [watchdog_mem, completionTest_mem]
  split <;> rfl

/-- A packet that brings the frame to its expected size completes it (R126, R127). -/
theorem afterStore_complete {c : Chan} {len : Word} {s : State} {n : Nat} (hn : n = copyCount (s.slot c) len)
    (h : (s.slot c).expected.toNat ≤ (s.slot c).woff.toNat + n) :
    (afterStore c len s).slot c =
        { s.slot c with
          progress := .complete, caplen := (s.slot c).woff + BitVec.ofNat 32 n, woff := 0, wdcnt := 0
          ovf := (s.slot c).ovf || decide (n < len.toNat) } ∧
      (afterStore c len s).awaiting = (if s.awaiting = 0 then 0 else s.awaiting - 1) ∧
      (afterStore c len s).irqStatus = s.irqStatus ||| (if n < len.toNat then Irq.payOvf.bit else 0) |||
        (if s.awaiting = 0 then Irq.awaitUf.bit else if s.awaiting = 1 then Irq.allDone.bit else 0) |||
        Irq.frame.bit := by
  subst hn
  have hw : (s.slot c).expected ≤ (s.slot c).woff + BitVec.ofNat 32 (copyCount (s.slot c) len) := by
    rw [BitVec.le_def, copyOffset_toNat]; exact h
  unfold afterStore
  by_cases ho : copyCount (s.slot c) len < len.toNat
  · simp only [ho, if_true, completionTest, overflow, State.irqSet_slot, State.slot_updSlot_same, hw, watchdog,
      decide_true, Bool.or_true]
    refine ⟨?_, ?_, ?_⟩
    · rw [completeFrame_slot]; simp
    · rw [completeFrame_awaiting]; rfl
    · rw [completeFrame_irqStatus]; rfl
  · simp only [ho, if_false, completionTest, State.slot_updSlot_same, hw, if_true, watchdog,
      decide_false, Bool.or_false]
    refine ⟨?_, ?_, ?_⟩
    · rw [completeFrame_slot]; simp
    · rw [completeFrame_awaiting]; rfl
    · have hz : s.irqStatus ||| (0 : BitVec 8) = s.irqStatus := BitVec.or_zero
      rw [completeFrame_irqStatus, hz]; rfl

/-- A packet that leaves its frame short is counted, and the watchdog abandons the frame at its limit (R130). -/
theorem afterStore_short {c : Chan} {len : Word} {s : State} {n : Nat} (hn : n = copyCount (s.slot c) len)
    (h : (s.slot c).woff.toNat + n < (s.slot c).expected.toNat) :
    n = len.toNat ∧ (afterStore c len s).awaiting = s.awaiting ∧
      (if WatchdogFires (s.slot c) then
        (afterStore c len s).slot c = { s.slot c with desync := true, progress := .idle, woff := 0, wdcnt := 0 } ∧
        (afterStore c len s).irqStatus = s.irqStatus ||| Irq.desync.bit
      else
        (afterStore c len s).slot c =
          { s.slot c with woff := (s.slot c).woff + BitVec.ofNat 32 n, wdcnt := bumpWatchdog (s.slot c).wdcnt } ∧
        (afterStore c len s).irqStatus = s.irqStatus) := by
  have hl : n = len.toNat := by unfold copyCount at hn; omega
  refine ⟨hl, ?_⟩
  subst hn
  have hw : ¬ (s.slot c).expected ≤ (s.slot c).woff + BitVec.ofNat 32 (copyCount (s.slot c) len) := by
    rw [BitVec.le_def, copyOffset_toNat]; omega
  have ho : ¬ copyCount (s.slot c) len < len.toNat := by omega
  unfold afterStore
  simp only [ho, if_false, completionTest, State.slot_updSlot_same, hw, watchdog, Bool.false_eq_true]
  have hd : watchdogDue { s.slot c with
      woff := (s.slot c).woff + BitVec.ofNat 32 (copyCount (s.slot c) len),
      wdcnt := bumpWatchdog (s.slot c).wdcnt } = true ↔ WatchdogFires (s.slot c) :=
    watchdogDue_iff { s.slot c with woff := (s.slot c).woff + BitVec.ofNat 32 (copyCount (s.slot c) len) } _
  by_cases hf : WatchdogFires (s.slot c)
  · rw [if_pos (hd.2 hf), if_pos hf]
    refine ⟨rfl, by simp, rfl⟩
  · rw [if_neg (mt hd.1 hf), if_neg hf]
    refine ⟨rfl, by simp, rfl⟩

/-- The watchdog alone (R124 (a), R130). -/
theorem watchdog_short (c : Chan) (s : State) :
    PortEventFrame c s (watchdog c false s) ∧ (watchdog c false s).mem = s.mem ∧
      (watchdog c false s).awaiting = s.awaiting ∧
      (if WatchdogFires (s.slot c) then
        (watchdog c false s).slot c = { s.slot c with desync := true, progress := .idle, woff := 0, wdcnt := 0 } ∧
        (watchdog c false s).irqStatus = s.irqStatus ||| Irq.desync.bit
      else
        (watchdog c false s).slot c = { s.slot c with wdcnt := bumpWatchdog (s.slot c).wdcnt } ∧
        (watchdog c false s).irqStatus = s.irqStatus) := by
  refine ⟨.watchdog c false s, ?_⟩
  simp only [watchdog, State.slot_updSlot_same, Bool.false_eq_true, if_false]
  have hd : watchdogDue { s.slot c with wdcnt := bumpWatchdog (s.slot c).wdcnt } = true ↔ WatchdogFires (s.slot c) :=
    watchdogDue_iff (s.slot c) _
  by_cases hf : WatchdogFires (s.slot c)
  · rw [if_pos (hd.2 hf), if_pos hf]
    refine ⟨rfl, rfl, by simp, rfl⟩
  · rw [if_neg (mt hd.1 hf), if_neg hf]
    refine ⟨rfl, rfl, by simp, rfl⟩

/-! ### The two packet instructions -/

/-- A packet of a channel that exists and takes packets is delivered (R121). -/
theorem deliver_of {s : State} {c : Chan} (h : Delivered s c) (body : State → StepOutcome) :
    deliver c s body = body s := by
  unfold deliver
  rw [if_neg (Nat.not_le.2 h.1), h.2.1, h.2.2]
  rfl

/-- All that the delivery of a packet can do (R121). -/
theorem deliver_next {s t : State} {c : Chan} {body : State → StepOutcome} (h : deliver c s body = .next t) :
    (s.nch ≤ c.toNat ∧ t = s.irqSet .badCh) ∨
      (c.toNat < s.nch ∧ ¬ ((s.slot c).registered = true ∧ (s.slot c).receiving = true) ∧ t = s) ∨
      (Delivered s c ∧ body s = .next t) := by
  unfold deliver at h
  split at h
  · cases h; exact .inl ⟨‹_›, rfl⟩
  · have hc : c.toNat < s.nch := Nat.lt_of_not_le ‹_›
    split at h
    · rename_i hr
      simp only [Bool.and_eq_true] at hr
      exact .inr (.inr ⟨⟨hc, hr.1, hr.2⟩, h⟩)
    · rename_i hr
      simp only [Bool.and_eq_true] at hr
      cases h
      exact .inr (.inl ⟨hc, hr, rfl⟩)

/-- The state a packet copies into: the frame in progress, at the offset the copy starts at (R122 to R124). -/
def atOffset (s : State) (c : Chan) (off : Nat) : State :=
  s.updSlot c fun k => { k with woff := BitVec.ofNat 32 off, progress := .inProgress }

theorem slot_inProgress {k : Slot} (h : k.progress = .inProgress) :
    { k with woff := BitVec.ofNat 32 k.woff.toNat, progress := .inProgress } = k := by
  cases k; simp_all

/-- A packet that is copied into a buffer inside frame memory: which bytes it stores, and the state the rest of its
work starts from. -/
theorem takePayload_inside (s : State) (c : Chan) (off : Nat) (len : Word) (p : List Byte) (k : Slot) (hk : k = s.slot c)
   (hl : p.length = len.toNat) (hm : k.dest.toNat + k.expected.toNat ≤ s.params.memBytes) (ho : off ≤ k.expected.toNat) (n : Nat)
   (hn : n = min len.toNat (k.expected.toNat - off)) :
   ∃ t, takePayload c len p (atOffset s c off) = .next t ∧ t.readBytes (k.dest.toNat + off) n = (p.take n).map some ∧
     SameMemoryOutside (k.dest.toNat + off) n s t ∧ PortEventFrame c s t ∧
     ∃ u, t = afterStore c len u ∧ (u.slot c = { k with woff := BitVec.ofNat 32 off, progress := .inProgress }) ∧
       u.awaiting = s.awaiting ∧ u.irqStatus = s.irqStatus ∧ copyCount (u.slot c) len = n ∧ (u.slot c).woff.toNat = off := by
  have hoff : (BitVec.ofNat 32 off).toNat = off := by
    simp only [BitVec.toNat_ofNat]; exact Nat.mod_eq_of_lt (by have := k.expected.isLt; omega)
  have hslot : (atOffset s c off).slot c = { k with woff := BitVec.ofNat 32 off, progress := .inProgress } := by
    subst hk; simp [atOffset]
  have hcnt : copyCount ((atOffset s c off).slot c) len = n := by
    rw [hslot, hn]; unfold copyCount; dsimp only; rw [hoff]
  have hlen : (p.take n).length = n := by simp; omega
  obtain ⟨u, hu, hue, hur⟩ := memWrite_inside (atOffset s c off) (k.dest.toNat + off) (p.take n)
    (by show _ ≤ s.params.memBytes; omega)
  have hus : u.slot c = (atOffset s c off).slot c := by rw [hue]; rfl
  refine ⟨afterStore c len u, ?_, ?_, ?_, ?_, u, rfl, hus.trans hslot, by rw [hue]; rfl, by rw [hue]; rfl, by rw [hus]; exact hcnt, by rw [hus, hslot]; exact hoff⟩
  · rw [takePayload_eq, hcnt, hslot]; dsimp only; rw [hoff, hu]; rfl
  · apply State.readBytes_eq hlen
    intro j hj
    show (afterStore c len u).mem.read? _ = _
    rw [afterStore_mem]
    show u.readByte _ = _
    rw [hur, if_pos (by omega)]
    congr 1; omega
  · intro a ha
    show (afterStore c len u).mem.read? _ = _
    rw [afterStore_mem]
    show u.readByte _ = _
    rw [hur, hlen, if_neg ha]; rfl
  · exact ((PortEventFrame.updSlot c s _).trans (.memWrite hu)).trans (afterStore_frame c len u)

/-- A delivered packet that has a place in its frame is copied there (R123, R124). -/
theorem exec_packet_copied {s : State} {i : Instr} {c : Chan} {len : Word} {p : List Byte} {off : Nat}
    (hi : IsPacket i c len p) (hd : Delivered s c) (ho : copyOffset i (s.slot c) = some off) :
    exec i s = takePayload c len p (atOffset s c off) := by
  have keep : (s.slot c).progress = .inProgress → atOffset s c (s.slot c).woff.toNat = s := fun h => by
    unfold atOffset State.updSlot
    dsimp only
    rw [slot_inProgress h, State.setSlot_slot]
  obtain ⟨hdr, rfl | rfl⟩ := hi
  · show execPktStart c hdr len p s = _
    unfold execPktStart
    rw [deliver_of hd]
    cases hp : (s.slot c).progress <;> simp only [copyOffset, hp] at ho <;> cases ho
    · rfl
    · dsimp only; rw [keep hp]
  · show execPktCont c hdr len p s = _
    unfold execPktCont
    rw [deliver_of hd]
    cases hp : (s.slot c).progress <;> simp only [copyOffset, hp] at ho <;> cases ho
    dsimp only; rw [keep hp]

/-- All that a packet can do: it names no channel; it is dropped; it is counted by the watchdog alone; it is
copied. -/
theorem exec_packet_next {s t : State} {i : Instr} {c : Chan} {len : Word} {p : List Byte} (hi : IsPacket i c len p)
    (h : exec i s = .next t) :
    (s.nch ≤ c.toNat ∧ t = s.irqSet .badCh) ∨
      (c.toNat < s.nch ∧ t = s) ∨
      (Delivered s c ∧ (s.slot c).progress = .idle ∧ t = watchdog c false s) ∨
      ∃ off, Delivered s c ∧ copyOffset i (s.slot c) = some off ∧
        takePayload c len p (atOffset s c off) = .next t := by
  have hi' := hi
  have h' := h
  have hcopy : ∀ off, Delivered s c → copyOffset i (s.slot c) = some off →
      takePayload c len p (atOffset s c off) = .next t := fun off hd ho => by
    rw [← exec_packet_copied hi hd ho]; exact h'
  obtain ⟨hdr, rfl | rfl⟩ := hi
  · change execPktStart c hdr len p s = _ at h
    unfold execPktStart at h
    rcases deliver_next h with h | h | ⟨hd, h⟩
    · exact .inl h
    · exact .inr (.inl ⟨h.1, h.2.2⟩)
    · cases hp : (s.slot c).progress
      · exact .inr (.inr (.inr ⟨0, hd, by simp [copyOffset, hp], hcopy _ hd (by simp [copyOffset, hp])⟩))
      · exact .inr (.inr (.inr ⟨(s.slot c).woff.toNat, hd, by simp [copyOffset, hp], hcopy _ hd (by simp [copyOffset, hp])⟩))
      · simp only [hp] at h; cases h; exact .inr (.inl ⟨hd.1, rfl⟩)
  · change execPktCont c hdr len p s = _ at h
    unfold execPktCont at h
    rcases deliver_next h with h | h | ⟨hd, h⟩
    · exact .inl h
    · exact .inr (.inl ⟨h.1, h.2.2⟩)
    · cases hp : (s.slot c).progress
      · simp only [hp] at h; cases h; exact .inr (.inr (.inl ⟨hd, rfl, rfl⟩))
      · exact .inr (.inr (.inr ⟨(s.slot c).woff.toNat, hd, by simp [copyOffset, hp], hcopy _ hd (by simp [copyOffset, hp])⟩))
      · simp only [hp] at h; cases h; exact .inr (.inl ⟨hd.1, rfl⟩)

end Sys2Proof.Machine
end

