-- ==== Sys2Proof/Laws/Ring.lean ====
section
/-! SUPPORT. The operations of the DMA ring: the run of filled slots, the re-queue and the hand-over. -/

namespace Sys2Proof.Machine

/-- A run of filled slots that ends after `n` slots has length `n` (R172). -/
theorem Slot.filledRun_eq (k : Slot) {n : Nat} : ∀ {fuel i : Nat}, n ≤ fuel →
    (∀ j < n, k.ringAt ((i + j) % k.ringB.toNat) = .filledPending) →
    (n < fuel → k.ringAt ((i + n) % k.ringB.toNat) ≠ .filledPending) → k.filledRun fuel i = n := by
  induction n with
  | zero =>
    intro fuel i _ _ hstop
    cases fuel with
    | zero => rfl
    | succ fuel => exact if_neg (hstop (Nat.zero_lt_succ _))
  | succ n ih =>
    intro fuel i hn hfill hstop
    cases fuel with
    | zero => omega
    | succ fuel =>
      have h1 := ih (fuel := fuel) (i := i + 1) (by omega)
        (fun j hj => by have := hfill (j + 1) (by omega); rwa [show i + (j + 1) = i + 1 + j by omega] at this)
        (fun hl => by have := hstop (by omega); rwa [show i + (n + 1) = i + 1 + n by omega] at this)
      have h0 := hfill 0 (by omega)
      simp only [Slot.filledRun, h1]
      rw [if_pos (by simpa using h0)]
      omega

/-- What a run's length says of the slots. -/
theorem Slot.filledRun_spec (k : Slot) : ∀ (fuel i : Nat), k.filledRun fuel i ≤ fuel ∧
    (∀ j < k.filledRun fuel i, k.ringAt ((i + j) % k.ringB.toNat) = .filledPending) ∧
    (k.filledRun fuel i < fuel → k.ringAt ((i + k.filledRun fuel i) % k.ringB.toNat) ≠ .filledPending) := by
  intro fuel
  induction fuel with
  | zero => intro i; exact ⟨Nat.le_refl _, fun j hj => absurd hj (Nat.not_lt_zero j), fun h => absurd h (Nat.lt_irrefl _)⟩
  | succ fuel ih =>
    intro i
    obtain ⟨h1, h2, h3⟩ := ih (i + 1)
    simp only [Slot.filledRun]
    split
    · rename_i h
      refine ⟨by omega, fun j hj => ?_, fun hl => ?_⟩
      · cases j with
        | zero => exact h
        | succ j => have := h2 j (by omega); rwa [show i + 1 + j = i + (j + 1) by omega] at this
      · have := h3 (by omega)
        rwa [show i + 1 + k.filledRun fuel (i + 1) = i + (1 + k.filledRun fuel (i + 1)) by omega] at this
    · rename_i h
      exact ⟨Nat.zero_le _, fun j hj => absurd hj (Nat.not_lt_zero j), fun _ => h⟩

theorem Slot.filledRun_congr {k l : Slot} (hr : k.ring = l.ring) (hb : k.ringB = l.ringB) :
    ∀ fuel i, k.filledRun fuel i = l.filledRun fuel i := by
  intro fuel
  have hra : ∀ i, k.ringAt i = l.ringAt i := fun i => by unfold Slot.ringAt; rw [hr]
  induction fuel with
  | zero => intro i; rfl
  | succ fuel ih => intro i; simp only [Slot.filledRun, hra, hb, ih]

/-- `n_filled` and `newest` depend on the ring, its size and `last_returned` alone (R172). -/
theorem Slot.nFilled_congr {k l : Slot} (hr : k.ring = l.ring) (hb : k.ringB = l.ringB)
    (hl : k.lastReturned = l.lastReturned) : k.nFilled = l.nFilled ∧ k.newest = l.newest := by
  have h : k.nFilled = l.nFilled := by
    simp only [Slot.nFilled, Slot.nextExpected, hb, hl, Slot.filledRun_congr hr hb]
  exact ⟨h, by simp only [Slot.newest, h, Slot.nextExpected, hb, hl]⟩

/-- A slot write replaces the ring only. -/
theorem Slot.setRing_eq (k : Slot) (i : Nat) (st : RingState) : k.setRing i st = { k with ring := (k.setRing i st).ring } :=
  rfl

/-- A re-queue replaces the ring only. -/
theorem Slot.requeue_eq (k : Slot) (start n : Nat) : k.requeue start n = { k with ring := (k.requeue start n).ring } := by
  induction n with
  | zero => rfl
  | succ n ih =>
    show (k.requeue start n).setRing _ _ = _
    rw [ih]; rfl

/-- The slots a re-queue makes empty (R186). -/
theorem Slot.ringAt_requeue (k : Slot) (start n i : Nat) (hi : i < 16) : (k.requeue start n).ringAt i =
    if ∃ j < n, i = (start + j) % k.ringB.toNat then .queuedEmpty else k.ringAt i := by
  induction n with
  | zero => simp [Slot.requeue]
  | succ n ih =>
    show ((k.requeue start n).setRing _ _).ringAt i = _
    rw [Slot.ringAt_setRing, ih]
    by_cases h : i = (start + n) % k.ringB.toNat
    · rw [if_pos ⟨h, hi⟩, if_pos ⟨n, Nat.lt_succ_self n, h⟩]
    · rw [if_neg (fun e => h e.1)]
      have e : (∃ j < n, i = (start + j) % k.ringB.toNat) ↔ ∃ j < n + 1, i = (start + j) % k.ringB.toNat :=
        ⟨fun ⟨j, hj, e⟩ => ⟨j, by omega, e⟩, fun ⟨j, hj, e⟩ => ⟨j, by
          rcases Nat.lt_succ_iff_lt_or_eq.1 hj with h' | h'
          · exact h'
          · subst h'; exact absurd e h, e⟩⟩
      simp only [e]

/-- All that a hand-over does (R186). -/
theorem Slot.handOver_eq (k : Slot) : k.handOver =
    { k with
      ring := k.handOver.ring, heldValid := true, heldIdx := BitVec.ofNat 4 k.newest,
      lastReturned := BitVec.ofNat 4 k.newest, dest := BitVec.ofNat 32 (k.slotAddr k.newest),
      lastN := BitVec.ofNat 5 k.nFilled, acqDone := true, acqCode := .ok } := by
  unfold Slot.handOver
  dsimp only
  rw [Slot.requeue_eq]
  rfl

/-- The slots after a hand-over (R186). -/
theorem Slot.ringAt_handOver (k : Slot) (i : Nat) (hi : i < 16) : k.handOver.ringAt i =
    if i = k.newest then .handedToCaller
    else if ∃ j < k.nFilled - 1, i = (k.nextExpected + j) % k.ringB.toNat then .queuedEmpty else k.ringAt i := by
  show ((k.requeue k.nextExpected (k.nFilled - 1)).setRing k.newest .handedToCaller).ringAt i = _
  rw [Slot.ringAt_setRing, Slot.ringAt_requeue _ _ _ _ hi]
  simp only [hi, and_true]

/-- The slot state a fill writes (R180). -/
theorem Slot.ringAt_markFilled (k : Slot) (i : Nat) (hi : i < 16) : k.markFilled.ringAt i =
    if i = k.fillIdx.toNat then .filledPending else k.ringAt i := by
  show (k.setRing k.fillIdx.toNat .filledPending).ringAt i = _
  rw [Slot.ringAt_setRing]
  simp only [hi, and_true]

/-- All that marking a slot filled does (R180). -/
theorem Slot.markFilled_eq (k : Slot) : k.markFilled =
    { k with
      ring := k.markFilled.ring, fillIdx := BitVec.ofNat 4 ((k.fillIdx.toNat + 1) % k.ringB.toNat) } := rfl

/-- An index of a ring of at most 16 slots fits in its 4 bits (R42). -/
theorem ringIndex_toNat {b i : Nat} (h1 : 1 ≤ b) (h2 : b ≤ 16) : (BitVec.ofNat 4 (i % b)).toNat = i % b := by
  have := Nat.mod_lt i (show 0 < b by omega)
  simp only [BitVec.toNat_ofNat]
  exact Nat.mod_eq_of_lt (by omega)

/-- An accepted acquire that finds no filled slot pends (R187). -/
theorem execDmaAcquire_pends {s : State} {c : Chan} (hc : c.toNat < s.nch) (hd : (s.slot c).isDma = true)
    (hp : (s.slot c).acqPending = false) (hh : (s.slot c).heldValid = false) (hn : (s.slot c).nFilled = 0) :
    execDmaAcquire c s =
      .next ((s.updSlot c fun k => { k.freshAcquire with acqPending := true }).finish .pending .none c) := by
  have hn' : (s.slot c).freshAcquire.nFilled = 0 := by
    rw [(Slot.nFilled_congr (k := (s.slot c).freshAcquire) (l := s.slot c) rfl rfl rfl).1]; exact hn
  unfold execDmaAcquire
  rw [onChannel_lt _ hc, hd, hp, hh]
  simp only [Bool.not_true, Bool.false_eq_true, if_false, State.slot_updSlot_same]
  rw [if_neg (show ¬ 1 ≤ (s.slot c).freshAcquire.nFilled by omega)]
  simp only [State.updSlot_updSlot]

/-- An accepted acquire that finds a filled slot hands the newest one over (R186). -/
theorem execDmaAcquire_hands {s : State} {c : Chan} (hc : c.toNat < s.nch) (hd : (s.slot c).isDma = true)
    (hp : (s.slot c).acqPending = false) (hh : (s.slot c).heldValid = false) (hn : 1 ≤ (s.slot c).nFilled)
    {k : Slot} (hk : k = (s.slot c).freshAcquire.handOver) :
    execDmaAcquire c s = .next
      (((s.setSlot c k).setRets k.dest (acquireReturn k.heldIdx k.lastN)).finish .ok .none c) := by
  have hn' : 1 ≤ (s.slot c).freshAcquire.nFilled := by
    rw [(Slot.nFilled_congr (k := (s.slot c).freshAcquire) (l := s.slot c) rfl rfl rfl).1]; exact hn
  unfold execDmaAcquire
  rw [onChannel_lt _ hc, hd, hp, hh]
  simp only [Bool.not_true, Bool.false_eq_true, if_false, State.slot_updSlot_same]
  rw [if_pos (show 1 ≤ (s.slot c).freshAcquire.nFilled from hn')]
  simp only [State.updSlot_updSlot]
  subst hk
  rfl

/-- What a teardown leaves in the slot: nothing but the record of a cancelled acquire (R195, R197). -/
def Slot.tornDown (k : Slot) : Slot :=
  if k.acqPending then { Slot.reset with acqDone := true, acqCode := .eCancelled } else Slot.reset

/-- A teardown of a ring (R195, R197). -/
theorem execDmaTeardown_ring {s : State} {c : Chan} (hc : c.toNat < s.nch) (hd : (s.slot c).isDma = true) :
    ∃ code step, execDmaTeardown c s = .next
        ((if (s.slot c).acqPending then ((s.sent (.dmaUnlisten c)).setSlot c (s.slot c).tornDown).irqSet .acq
          else (s.sent (.dmaUnlisten c)).setSlot c (s.slot c).tornDown).finish code step c) ∧
      (if (s.answerTo (.dmaUnlisten c)).ok then code = .ok ∧ step = .none else code = .eDma ∧ step = .unlisten) := by
  unfold execDmaTeardown Slot.tornDown
  rw [onChannel_lt _ hc, hd]
  simp only [Bool.not_true, Bool.false_eq_true, if_false]
  by_cases ha : (s.answerTo (.dmaUnlisten c)).ok = true
  · refine ⟨_, _, ?_, by rw [if_pos ha]; exact ⟨rfl, rfl⟩⟩
    rw [if_pos ha]
    by_cases hp : (s.slot c).acqPending = true
    · simp only [if_pos hp, State.updSlot, State.setSlot_setSlot, State.slot_setSlot_same]
    · simp only [if_neg hp]
  · refine ⟨_, _, ?_, by rw [if_neg ha]; exact ⟨rfl, rfl⟩⟩
    rw [if_neg ha]
    by_cases hp : (s.slot c).acqPending = true
    · simp only [if_pos hp, State.updSlot, State.setSlot_setSlot, State.slot_setSlot_same]
    · simp only [if_neg hp]

/-- The ring `DMA_SETUP` leaves (R175). -/
theorem ringAt_freshRing (k : Slot) (b i : Nat) (hi : i < 16) : ({ k with ring := freshRing b } : Slot).ringAt i =
    if i < b then .queuedEmpty else .absent := by
  simp [Slot.ringAt, freshRing, hi]

/-- All that the store of a fill can do when it goes on. -/
theorem storeFrame_next {k : Slot} {f : List Byte} {s t : State} (h : storeFrame k f s = .next t) :
    ∃ u, memWrite s (k.slotAddr k.fillIdx.toNat) f = .next u ∧
      t = u.forget (k.slotAddr k.fillIdx.toNat + k.expected.toNat) (k.slotSize.toNat - k.expected.toNat) := by
  obtain ⟨u, hu, h⟩ := andThen_eq_next h
  cases h
  exact ⟨u, hu, rfl⟩

/-- A fill whose ring slot lies in frame memory goes on: its frame is in the slot, and no byte outside the slot
changes (R180). -/
theorem storeFrame_inside {k : Slot} {f : List Byte} {s : State} {base : Nat}
    (hbase : base = k.ringBase.toNat + k.fillIdx.toNat * k.slotSize.toNat) (hf : f.length = k.expected.toNat)
    (hs : k.expected.toNat ≤ k.slotSize.toNat) (hm : base + k.expected.toNat ≤ s.params.memBytes) :
    ∃ t, storeFrame k f s = .next t ∧ t = { s with mem := t.mem } ∧
      t.readBytes base k.expected.toNat = f.map some ∧ SameMemoryOutside base k.slotSize.toNat s t := by
  obtain ⟨u, hu, hue, hur⟩ := memWrite_inside s base f (by omega)
  have hb : k.slotAddr k.fillIdx.toNat = base := hbase.symm
  refine ⟨u.forget (base + k.expected.toNat) (k.slotSize.toNat - k.expected.toNat), ?_, ?_, ?_, ?_⟩
  · simp only [storeFrame, hb, hu, andThen_next]
  · rw [hue]; rfl
  · refine State.readBytes_eq hf fun i hi => ?_
    rw [State.readByte_forget, if_neg (by omega), hur, if_pos (by omega)]
    congr 1; omega
  · intro a ha
    rw [State.readByte_forget, if_neg (by omega), hur, if_neg (by omega)]

/-! ### The fill -/

/-- What a fill does once its frame is stored: the slot is marked, and a pending acquire is completed (R180, R188). -/
def afterFill (c : Chan) (s : State) : State :=
  if (s.slot c).acqPending then (s.updSlot c fun k => { k.markFilled with acqPending := false }.handOver).irqSet .acq
  else s.updSlot c Slot.markFilled

/-- A fill that finds a free slot stores its frame and then does the rest (R180). -/
theorem execFill_stores {s : State} {c : Chan} {f : List Byte} (hc : c.toNat < s.nch) (hd : (s.slot c).isDma = true)
    (hq : (s.slot c).ringAt (s.slot c).fillIdx.toNat = .queuedEmpty) (hf : f.length = (s.slot c).expected.toNat) :
    execFill c f s = andThen (storeFrame (s.slot c) f s) fun s1 => .next (afterFill c s1) := by
  unfold execFill
  rw [if_neg (Nat.not_le.2 hc)]
  dsimp only
  rw [hd, hq, hf]
  simp only [Bool.not_true, Bool.false_eq_true, if_false, ne_eq, not_true]
  congr 1
  funext u
  have hp : ((u.updSlot c Slot.markFilled).slot c).acqPending = (u.slot c).acqPending := by
    rw [State.slot_updSlot_same]; rfl
  unfold afterFill
  rw [hp]
  by_cases h : (u.slot c).acqPending = true
  · rw [if_pos h, if_pos h]
    unfold completeAcquire
    rw [State.updSlot_updSlot]
  · rw [if_neg h, if_neg h]

/-- All that a fill can do (R180 to R182). -/
theorem execFill_next {s t : State} {c : Chan} {f : List Byte} (h : execFill c f s = .next t) :
    (s.nch ≤ c.toNat ∧ t = s.irqSet .badCh) ∨
      (c.toNat < s.nch ∧ (s.slot c).isDma = false ∧ t = s) ∨
      (c.toNat < s.nch ∧ (s.slot c).isDma = true ∧ (s.slot c).ringAt (s.slot c).fillIdx.toNat ≠ .queuedEmpty ∧
        t = overrun c s) ∨
      (c.toNat < s.nch ∧ (s.slot c).isDma = true ∧ (s.slot c).ringAt (s.slot c).fillIdx.toNat = .queuedEmpty ∧
        f.length = (s.slot c).expected.toNat ∧
        ∃ u, storeFrame (s.slot c) f s = .next u ∧ t = afterFill c u) := by
  by_cases hc : c.toNat < s.nch
  swap
  · unfold execFill at h
    rw [if_pos (Nat.not_lt.1 hc)] at h
    cases h; exact .inl ⟨Nat.not_lt.1 hc, rfl⟩
  refine .inr ?_
  have h' := h
  unfold execFill at h
  rw [if_neg (Nat.not_le.2 hc)] at h
  dsimp only at h
  cases hd : (s.slot c).isDma
  · rw [hd] at h; cases h; exact .inl ⟨hc, rfl, rfl⟩
  refine .inr ?_
  rw [hd] at h
  simp only [Bool.not_true, Bool.false_eq_true, if_false] at h
  by_cases hq : (s.slot c).ringAt (s.slot c).fillIdx.toNat = .queuedEmpty
  swap
  · rw [if_pos hq] at h; cases h; exact .inl ⟨hc, rfl, hq, rfl⟩
  refine .inr ?_
  rw [if_neg (not_not.2 hq)] at h
  by_cases hf : f.length = (s.slot c).expected.toNat
  swap
  · rw [if_pos hf] at h; cases h
  rw [execFill_stores hc hd hq hf] at h'
  obtain ⟨u, hu, h'⟩ := andThen_eq_next h'
  cases h'
  exact ⟨hc, rfl, hq, hf, u, hu, rfl⟩

/-- What a fill never touches. -/
theorem afterFill_frame (c : Chan) (s : State) : PortEventFrame c s (afterFill c s) := by
  unfold afterFill
  split
  · exact (PortEventFrame.updSlot c s _).trans (.irqSet c _ _)
  · exact .updSlot c s _

theorem afterFill_mem (c : Chan) (s : State) : (afterFill c s).mem = s.mem := by
  unfold afterFill
  split <;> rfl

/-- What the store of a fill never touches. -/
theorem storeFrame_frame {k : Slot} {f : List Byte} {s t : State} (c : Chan) (h : storeFrame k f s = .next t) :
    PortEventFrame c s t := by
  obtain ⟨u, hu, rfl⟩ := storeFrame_next h
  exact (PortEventFrame.memWrite hu).trans (.forget c u _ _)

end Sys2Proof.Machine
end

