-- ==== Sys2Proof/Laws/Moves.lean ====
section
/-! SUPPORT. All that one event can do to a channel slot, said once: the moves of a slot, and that every instruction
makes one of them in every slot. -/

namespace Sys2Proof.Machine

/-- The moves of a channel slot in a machine with `M` bytes of frame memory: what the rules of spec/40 to spec/43 do
to it, each with the conditions under which its rule does it. -/
inductive SlotMove (M : Nat) (k : Slot) : Slot → Prop where
  | keep : SlotMove M k k
  | clear : SlotMove M k Slot.reset
  | bindSoftware (dest expected wdlim : Word) (free : k.inUse = false) (he : ¬ expected = 0)
      (hm : ¬ M < dest.toNat + expected.toNat) : SlotMove M k (k.bindSoftware dest expected wdlim)
  | register (h : Startable k) : SlotMove M k { k with registered := true }
  | deregister (h : k.receiving = false) : SlotMove M k { k with registered := false }
  | start (h : k.registered = true) : SlotMove M k { k with receiving := true }
  | stop : SlotMove M k (Slot.abandon { k with receiving := false })
  | tear : SlotMove M k k.tornTransport
  | rearm (h : k.isSoftware = true) : SlotMove M k k.rearm
  | groupStart (h : Startable k) : SlotMove M k k.started
  | groupUndo (h : Startable k) : SlotMove M k { k.started with registered := false, receiving := false }
  | bindRing (base size b granted : Word) (free : k.inUse = false) (hb : ¬ (b.toNat < 1 ∨ 16 < b.toNat))
      (hs : ¬ size = 0) (hg : ¬ granted.toNat < size.toNat) (hm : ¬ M < base.toNat + b.toNat * granted.toNat) :
      SlotMove M k (k.bindRing base size b granted)
  | pend (hd : k.isDma = true) (hh : k.heldValid = false) (hn : k.nFilled = 0) :
      SlotMove M k { k.freshAcquire with acqPending := true }
  | handOver (hd : k.isDma = true) (hp : k.acqPending = false) (hh : k.heldValid = false) (hn : 1 ≤ k.nFilled) :
      SlotMove M k k.freshAcquire.handOver
  | release (hd : k.isDma = true) (hh : k.heldValid = true) :
      SlotMove M k { k.setRing k.heldIdx.toNat .queuedEmpty with heldValid := false }
  | cancel (hd : k.isDma = true) :
      SlotMove M k { k with acqPending := false, acqDone := true, acqCode := .eCancelled }
  | tornDown (hd : k.isDma = true) : SlotMove M k k.tornDown
  | overrun (hd : k.isDma = true) : SlotMove M k { k with ringOvr := true }
  | fill (hd : k.isDma = true) (hp : k.acqPending = false) (hq : k.ringAt k.fillIdx.toNat = .queuedEmpty) :
      SlotMove M k k.markFilled
  | fillHandOver (hd : k.isDma = true) (hp : k.acqPending = true) (hq : k.ringAt k.fillIdx.toNat = .queuedEmpty) :
      SlotMove M k (Slot.handOver { k.markFilled with acqPending := false })
  | abandonFrame (hr : k.registered = true) (hv : k.receiving = true) :
      SlotMove M k { k with desync := true, progress := .idle, woff := 0, wdcnt := 0 }
  | count (hr : k.registered = true) (hv : k.receiving = true) (w : Word) : SlotMove M k { k with wdcnt := w }
  | copy (hr : k.registered = true) (hv : k.receiving = true) (off cnt : Word) (ho : off.toNat < k.expected.toNat) :
      SlotMove M k { k with progress := .inProgress, woff := off, wdcnt := cnt }
  | complete (hr : k.registered = true) (hv : k.receiving = true) (o : Bool) (size : Word)
      (hs : k.woff.toNat ≤ k.expected.toNat → size = k.expected) :
      SlotMove M k { k with progress := .complete, caplen := size, woff := 0, wdcnt := 0, ovf := o }

/-- Every existing slot makes a move; a slot of no channel stays or is cleared. -/
structure SlotsMove (s t : State) : Prop where
  move : ∀ c : Chan, c.toNat < s.nch → SlotMove s.params.memBytes (s.slot c) (t.slot c)
  none : ∀ c : Chan, s.nch ≤ c.toNat → t.slot c = s.slot c ∨ t.slot c = Slot.reset

theorem SlotsMove.of_same {s t : State} (h : SameSlots s t) : SlotsMove s t :=
  ⟨fun c _ => by rw [h c]; exact .keep, fun c _ => .inl (h c)⟩

theorem SlotsMove.of_one {s t : State} {c : Chan} (hc : c.toNat < s.nch) (ho : OtherSlotsSame c s t)
    (h : SlotMove s.params.memBytes (s.slot c) (t.slot c)) : SlotsMove s t := by
  refine ⟨fun d _ => ?_, fun d hd => .inl (ho d (fun e => ?_))⟩
  · by_cases e : d = c
    · subst e; exact h
    · rw [ho d e]; exact .keep
  · subst e; omega

/-- A slot move keeps to its slot through what a command does after it. -/
theorem SlotsMove.of_slots {s t u : State} (h : SlotsMove s t) (e : u.slots = t.slots) : SlotsMove s u := by
  have hs : ∀ d, u.slot d = t.slot d := fun d => by unfold State.slot; simp only [e]
  exact ⟨fun c hc => by rw [hs]; exact h.move c hc, fun c hc => by rw [hs]; exact h.none c hc⟩

theorem SlotsMove.upd {s : State} {c : Chan} (hc : c.toNat < s.nch) (t : State) (f : Slot → Slot)
    (ht : SameSlots s t) (h : SlotMove s.params.memBytes (s.slot c) (f (s.slot c))) : SlotsMove s (t.updSlot c f) :=
  .of_one hc (fun d hd => by rw [State.slot_updSlot_ne _ _ _ _ hd, ht d]) (by
    rw [State.slot_updSlot_same, ht c]; exact h)

/-! ### Commands -/

/-- What every command leaves alone, `SOFT_RESET` included. -/
structure CommandFrame (s t : State) : Prop where
  memory : t.mem = s.mem
  params : t.params = s.params
  events : t.events = s.events
  rdata : t.rdata = s.rdata
  memData : t.memData = s.memData

theorem CommandFrame.of_globals {s t : State} (h : KeepsHostSide s t) (hm : t.mem = s.mem) : CommandFrame s t :=
  ⟨hm, h.params, h.events, h.rdata, h.memData⟩

/-- All that a command can do. -/
structure CommandEffect (s t : State) : Prop where
  frame : CommandFrame s t
  slots : SlotsMove s t
  awaiting : t.awaiting = s.awaiting ∨ t.awaiting.toNat ≤ s.nch

theorem CommandEffect.finish (s : State) (code : ResultCode) (step : StepCode) (c : Chan) :
    CommandEffect s (s.finish code step c) :=
  ⟨⟨rfl, rfl, rfl, rfl, rfl⟩, .of_same fun _ => rfl, .inl rfl⟩

/-- An effect is not changed by the outcome, the requests and the registers written after it. -/
theorem CommandEffect.after {s t u : State} (h : CommandEffect s t) (hs : u.slots = t.slots) (hm : u.mem = t.mem)
    (hp : u.params = t.params) (he : u.events = t.events) (hr : u.rdata = t.rdata) (hd : u.memData = t.memData)
    (ha : u.awaiting = t.awaiting) : CommandEffect s u :=
  ⟨⟨hm.trans h.frame.memory, hp.trans h.frame.params, he.trans h.frame.events, hr.trans h.frame.rdata,
    hd.trans h.frame.memData⟩, h.slots.of_slots hs, by rw [ha]; exact h.awaiting⟩

theorem CommandEffect.upd {s : State} {c : Chan} (hc : c.toNat < s.nch) (t : State) (f : Slot → Slot)
    (ht : CommandFrame s t) (hs : SameSlots s t) (ha : t.awaiting = s.awaiting)
    (h : SlotMove s.params.memBytes (s.slot c) (f (s.slot c))) : CommandEffect s (t.updSlot c f) :=
  ⟨⟨ht.memory, ht.params, ht.events, ht.rdata, ht.memData⟩, .upd hc t f hs h, .inl ha⟩

theorem CommandEffect.set {s : State} {c : Chan} (hc : c.toNat < s.nch) (t : State) (k : Slot)
    (ht : CommandFrame s t) (hs : SameSlots s t) (ha : t.awaiting = s.awaiting)
    (h : SlotMove s.params.memBytes (s.slot c) k) : CommandEffect s (t.setSlot c k) :=
  CommandEffect.upd hc t (fun _ => k) ht hs ha h

theorem CommandEffect.finishFirst {s t : State} (h : CommandEffect s t) (f : Option Failure) (c : Chan) :
    CommandEffect s (t.finishFirst f c) := by
  cases f <;> exact h.after rfl rfl rfl rfl rfl rfl rfl

theorem CommandEffect.result {s t : State} (h : CommandEffect s t) (code : ResultCode) (step : StepCode) (c : Chan) :
    CommandEffect s (t.finish code step c) := h.after rfl rfl rfl rfl rfl rfl rfl

theorem CommandFrame.refl (s : State) : CommandFrame s s := ⟨rfl, rfl, rfl, rfl, rfl⟩

theorem CommandFrame.sent (s : State) (r : Request) : CommandFrame s (s.sent r) := ⟨rfl, rfl, rfl, rfl, rfl⟩

/-- A command on a channel: a refusal, or its own rule. -/
theorem onChannel_effect {c : Chan} {s : State} {body : State → State}
    (h : c.toNat < s.nch → CommandEffect s (body s)) : ∃ t, onChannel c s body = .next t ∧ CommandEffect s t := by
  by_cases hc : c.toNat < s.nch
  · exact ⟨_, onChannel_lt _ hc, h hc⟩
  · exact ⟨_, onChannel_ge _ (by omega), .finish s _ _ _⟩

theorem execSwBind_effect (c : Chan) (s : State) : ∃ t, execSwBind c s = .next t ∧ CommandEffect s t := by
  refine onChannel_effect fun hc => ?_
  split
  · exact .finish s _ _ _
  split
  · exact .finish s _ _ _
  split
  · exact .finish s _ _ _
  · rename_i h1 h2 h3
    exact (CommandEffect.upd hc s _ (.refl s) (fun _ => rfl) rfl
      (.bindSoftware _ _ _ (by simpa using h1) h2 h3)).result _ _ _

theorem execRegister_effect (c : Chan) (s : State) : ∃ t, execRegister c s = .next t ∧ CommandEffect s t := by
  refine onChannel_effect fun hc => ?_
  split
  · exact .finish s _ _ _
  rename_i h
  have hS : Startable (s.slot c) := Classical.not_not.1 (mt (not_startable_iff _).2 h)
  split
  · exact (CommandEffect.upd hc (s.sent _) _ (.sent s _) (fun _ => rfl) rfl (.register hS)).result _ _ _
  · exact (CommandEffect.finish s .ok .none c).after rfl rfl rfl rfl rfl rfl rfl

theorem execStart_effect (c : Chan) (s : State) : ∃ t, execStart c s = .next t ∧ CommandEffect s t := by
  refine onChannel_effect fun hc => ?_
  split
  · exact .finish s _ _ _
  rename_i h
  have hr : (s.slot c).registered = true := by
    cases hk : (s.slot c).registered <;> simp [hk] at h ⊢
  split
  · exact (CommandEffect.upd hc (s.sent _) _ (.sent s _) (fun _ => rfl) rfl (.start hr)).result _ _ _
  · exact (CommandEffect.finish s .ok .none c).after rfl rfl rfl rfl rfl rfl rfl

theorem CommandEffect.of_tear {s t : State} {c : Chan} {rs : List Request} (hc : c.toNat < s.nch)
    (h : TearFrame c rs s t) (hm : SlotMove s.params.memBytes (s.slot c) (t.slot c)) : CommandEffect s t :=
  ⟨.of_globals h.globals.toKeepsHostSide h.memory, .of_one hc h.others hm, .inl h.globals.awaiting⟩

theorem execUnbind_effect (c : Chan) (s : State) : ∃ t, execUnbind c s = .next t ∧ CommandEffect s t := by
  refine onChannel_effect fun hc => ?_
  dsimp only
  split
  · exact .finish s _ _ _
  split
  · exact .finish s _ _ _
  · obtain ⟨h, -⟩ := tearTransport_frame c none s
    have he : CommandEffect s ((tearTransport c none s).2.setSlot c Slot.reset) :=
      ⟨.of_globals (h.globals.toKeepsHostSide.trans (KeepsGlobals.setSlot _ c _).toKeepsHostSide) h.memory,
        .of_one hc (fun d hd => by rw [State.slot_setSlot_ne _ _ _ _ hd]; exact h.others d hd) (by
          rw [State.slot_setSlot_same]; exact .clear), .inl h.globals.awaiting⟩
    exact he.finishFirst _ _

theorem execDeregister_effect (c : Chan) (s : State) : ∃ t, execDeregister c s = .next t ∧ CommandEffect s t := by
  refine onChannel_effect fun hc => ?_
  dsimp only
  split
  · exact .finish s _ _ _
  split
  · exact .finish s _ _ _
  · rename_i h
    obtain ⟨hf, hs⟩ := tearDeregister_frame c none s
    exact (CommandEffect.of_tear hc hf (by rw [hs]; exact .deregister (by simpa using h))).finishFirst _ _

theorem execStop_effect (c : Chan) (s : State) : ∃ t, execStop c s = .next t ∧ CommandEffect s t := by
  refine onChannel_effect fun hc => ?_
  obtain ⟨hf, hs⟩ := tearStop_frame c none s
  refine (CommandEffect.of_tear hc hf ?_).finishFirst _ _
  rw [hs]
  split
  · exact .stop
  · exact .keep

theorem execRearm_effect (c : Chan) (s : State) : ∃ t, execRearm c s = .next t ∧ CommandEffect s t := by
  refine onChannel_effect fun hc => ?_
  split
  · exact .finish s _ _ _
  · rename_i h
    exact (CommandEffect.upd hc s _ (.refl s) (fun _ => rfl) rfl (.rearm (by simpa using h))).result _ _ _

theorem execDmaSetup_effect (c : Chan) (s : State) : ∃ t, execDmaSetup c s = .next t ∧ CommandEffect s t := by
  refine onChannel_effect fun hc => ?_
  have asked : CommandEffect s (s.sent (.dmaListen c s.arg2 s.arg1)) :=
    (CommandEffect.finish s .ok .none c).after rfl rfl rfl rfl rfl rfl rfl
  dsimp only
  split
  · exact .finish s _ _ _
  split
  · exact .finish s _ _ _
  split
  · exact .finish s _ _ _
  split
  · exact asked.result _ _ _
  split
  · exact asked.after rfl rfl rfl rfl rfl rfl rfl
  split
  · exact asked.after rfl rfl rfl rfl rfl rfl rfl
  · rename_i h1 h2 h3 h4 h5 h6
    have he := CommandEffect.upd hc (s.sent (.dmaListen c s.arg2 s.arg1))
      (fun k => k.bindRing s.arg0 s.arg1 s.arg2 (s.answerTo (.dmaListen c s.arg2 s.arg1)).size) (.sent s _)
      (fun _ => rfl) rfl
      (.bindRing s.arg0 s.arg1 s.arg2 _ (by simpa using h1) h2 h3 (fun e => h5 (BitVec.lt_def.2 e)) h6)
    exact he.after rfl rfl rfl rfl rfl rfl rfl

theorem execDmaAcquire_effect (c : Chan) (s : State) : ∃ t, execDmaAcquire c s = .next t ∧ CommandEffect s t := by
  by_cases hc : c.toNat < s.nch
  swap
  · exact ⟨_, onChannel_ge _ (by omega), .finish s _ _ _⟩
  by_cases hd : (s.slot c).isDma = true
  swap
  · refine ⟨_, (onChannel_lt _ hc).trans (congrArg _ (if_pos (by simpa using hd))), .finish s _ _ _⟩
  by_cases hp : (s.slot c).acqPending = true
  · exact ⟨_, (onChannel_lt _ hc).trans (congrArg _ ((if_neg (by simp [hd])).trans (if_pos hp))), .finish s _ _ _⟩
  by_cases hh : (s.slot c).heldValid = true
  · exact ⟨_, (onChannel_lt _ hc).trans (congrArg _ ((if_neg (by simp [hd])).trans ((if_neg hp).trans (if_pos hh)))),
      .finish s _ _ _⟩
  have hp' : (s.slot c).acqPending = false := by simpa using hp
  have hh' : (s.slot c).heldValid = false := by simpa using hh
  by_cases hn : 1 ≤ (s.slot c).nFilled
  · exact ⟨_, execDmaAcquire_hands hc hd hp' hh' hn rfl,
      (CommandEffect.set hc s _ (.refl s) (fun _ => rfl) rfl (.handOver hd hp' hh' hn)).after rfl rfl rfl rfl rfl rfl rfl⟩
  · exact ⟨_, execDmaAcquire_pends hc hd hp' hh' (by omega),
      (CommandEffect.upd hc s _ (.refl s) (fun _ => rfl) rfl (.pend hd hh' (by omega))).result _ _ _⟩

theorem execDmaRelease_effect (c : Chan) (s : State) : ∃ t, execDmaRelease c s = .next t ∧ CommandEffect s t := by
  refine onChannel_effect fun hc => ?_
  split
  · exact .finish s _ _ _
  split
  · exact .finish s _ _ _
  · rename_i h1 h2
    exact (CommandEffect.upd hc s _ (.refl s) (fun _ => rfl) rfl
      (.release (by simpa using h1) (by simpa using h2))).result _ _ _

theorem execDmaCancel_effect (c : Chan) (s : State) : ∃ t, execDmaCancel c s = .next t ∧ CommandEffect s t := by
  refine onChannel_effect fun hc => ?_
  split
  · exact .finish s _ _ _
  split
  · rename_i h1 _
    have he := CommandEffect.upd hc s
      (fun k => { k with acqPending := false, acqDone := true, acqCode := .eCancelled }) (.refl s) (fun _ => rfl) rfl
      (.cancel (by simpa using h1))
    exact he.after rfl rfl rfl rfl rfl rfl rfl
  · exact .finish s _ _ _

theorem execDmaTeardown_effect (c : Chan) (s : State) : ∃ t, execDmaTeardown c s = .next t ∧ CommandEffect s t := by
  by_cases hc : c.toNat < s.nch
  swap
  · exact ⟨_, onChannel_ge _ (by omega), .finish s _ _ _⟩
  by_cases hd : (s.slot c).isDma = true
  swap
  · exact ⟨_, (onChannel_lt _ hc).trans (congrArg _ (if_pos (by simpa using hd))), .finish s _ _ _⟩
  obtain ⟨code, step, he, -⟩ := execDmaTeardown_ring hc hd
  refine ⟨_, he, CommandEffect.result ?_ _ _ _⟩
  have h := CommandEffect.set hc (s.sent (.dmaUnlisten c)) (s.slot c).tornDown (.sent s _) (fun _ => rfl) rfl
    (.tornDown hd)
  split
  · exact h.after rfl rfl rfl rfl rfl rfl rfl
  · exact h

theorem execAwaitSet_effect (s : State) : ∃ t, execAwaitSet s = .next t ∧ CommandEffect s t := by
  unfold execAwaitSet
  split
  · exact ⟨_, rfl, .finish s _ _ _⟩
  · rename_i h
    exact ⟨_, rfl, ⟨⟨rfl, rfl, rfl, rfl, rfl⟩, .of_same fun _ => rfl, .inr (Nat.not_lt.1 h)⟩⟩

theorem execSoftReset_effect (s : State) : ∃ t, execSoftReset s = .next t ∧ CommandEffect s t :=
  ⟨_, rfl, ⟨⟨rfl, rfl, rfl, rfl, rfl⟩, ⟨fun c _ => by
    rw [State.finish_slot, State.clearBlock_slot]; exact .clear, fun c _ => .inr (by
    rw [State.finish_slot, State.clearBlock_slot])⟩, .inr (Nat.zero_le _)⟩⟩

/-- A loop over existing, distinct members that moves each of them. -/
theorem CommandEffect.of_group {s t : State} {group : List Chan} {rs : List Request} (h : GroupFrame group rs s t)
    (hc : ∀ c ∈ group, c.toNat < s.nch) (hm : ∀ c ∈ group, SlotMove s.params.memBytes (s.slot c) (t.slot c)) :
    CommandEffect s t := by
  refine ⟨.of_globals h.globals.toKeepsHostSide h.memory, ⟨fun c _ => ?_, fun c hn => .inl ?_⟩, .inl h.globals.awaiting⟩
  · by_cases m : c ∈ group
    · exact hm c m
    · rw [h.others c m]; exact .keep
  · exact h.others c (fun m => absurd (hc c m) (by omega))

theorem execGrpStop_effect (s : State) : ∃ t, execGrpStop s = .next t ∧ CommandEffect s t := by
  refine onGroup_effect (fun s t => CommandEffect s t) (fun c => .finish s _ _ c) fun hc _ => ?_
  obtain ⟨hf, hs⟩ := groupStop_frame (members s.groupMask) none s (members_nodup _)
  exact (CommandEffect.of_group hf hc fun c m => by rw [hs c m]; exact .tear).finishFirst _ _

/-- The member loop of `GRP_START` from a state in which the members before are started: every slot is as it was or
makes one of the two moves of a group start. -/
theorem groupStart_moves {s : State} (group : List Chan) : ∀ (started : List Chan) (u : State), group.Nodup →
    started.Nodup → (∀ d ∈ started, d ∉ group) →
    (∀ d ∈ started, Startable (s.slot d) ∧ u.slot d = (s.slot d).started) →
    (∀ d, d ∉ started → u.slot d = s.slot d) → u.mem = s.mem → KeepsGlobals s u →
    (groupStart started group u).mem = s.mem ∧ KeepsGlobals s (groupStart started group u) ∧
      ∀ d, (groupStart started group u).slot d = s.slot d ∨ (d ∈ started ++ group ∧ Startable (s.slot d) ∧
        ((groupStart started group u).slot d = (s.slot d).started ∨
          (groupStart started group u).slot d = (s.slot d).rearm ∨
          (groupStart started group u).slot d = { (s.slot d).started with registered := false, receiving := false })) := by
  induction group with
  | nil =>
    intro started u _ _ _ h1 h2 hm hg
    refine ⟨hm, hg.trans (.finish u _ _ _), fun d => ?_⟩
    show u.slot d = _ ∨ (_ ∧ _ ∧ (u.slot d = _ ∨ u.slot d = _ ∨ u.slot d = _))
    by_cases hd : d ∈ started
    · exact .inr ⟨by simp [hd], (h1 d hd).1, .inl (h1 d hd).2⟩
    · exact .inl (h2 d hd)
  | cons c group ih =>
    intro started u hn hsn hdis h1 h2 hm hg
    obtain ⟨hc, hn⟩ := List.nodup_cons.1 hn
    have hcs : c ∉ started := fun h => hdis c h (by simp)
    have hus : u.slot c = s.slot c := h2 c hcs
    have back : ∀ (w : State) (qs : List Request) (code : ResultCode) (step : StepCode), GroupFrame [c] qs u w →
        (w.slot c = s.slot c ∨ (Startable (s.slot c) ∧ w.slot c = (s.slot c).rearm)) →
        ((rollback started w).finish code step c).mem = s.mem ∧
        KeepsGlobals s ((rollback started w).finish code step c) ∧
        ∀ d, ((rollback started w).finish code step c).slot d = s.slot d ∨ (d ∈ started ++ c :: group ∧
          Startable (s.slot d) ∧
          (((rollback started w).finish code step c).slot d = (s.slot d).started ∨
            ((rollback started w).finish code step c).slot d = (s.slot d).rearm ∨
            ((rollback started w).finish code step c).slot d =
              { (s.slot d).started with registered := false, receiving := false })) := by
      intro w qs code step hw hwc
      obtain ⟨rf, rs⟩ := rollback_frame started w hsn
      refine ⟨by rw [State.finish_mem, rf.memory, hw.memory, hm],
        ((hg.trans hw.globals).trans rf.globals).trans (.finish _ _ _ _), fun d => ?_⟩
      rw [State.finish_slot]
      by_cases hd : d ∈ started
      · obtain ⟨e1, e2⟩ := h1 d hd
        refine .inr ⟨by simp [hd], e1, .inr (.inr ?_)⟩
        rw [rs d hd, hw.others d (by simpa using fun e : d = c => hcs (e ▸ hd)), e2]
      · rw [rf.others d hd]
        by_cases hdc : d = c
        · subst hdc
          rcases hwc with e | ⟨hS, e⟩
          · exact .inl e
          · exact .inr ⟨by simp, hS, .inr (.inl e)⟩
        · exact .inl (by rw [hw.others d (by simpa using hdc), h2 d hd])
    by_cases hS : Startable (u.slot c)
    swap
    · rw [groupStart_bind hS]
      exact back u [] _ _ (GroupFrame.mono (.refl u) (by simp)) (.inl hus)
    have hS' : Startable (s.slot c) := hus ▸ hS
    cases hr : (u.answerTo (.xpReg c)).ok
    · rw [groupStart_register hS hr]
      have hw : GroupFrame [c] [.xpReg c] u ((u.updSlot c Slot.rearm).sent (.xpReg c)) :=
        ⟨fun d hd => by
          have hd' : d ≠ c := by simpa using hd
          simp [State.slot_updSlot_ne, hd'], rfl, (KeepsGlobals.updSlot u c _).trans (.sent _ _), rfl, rfl,
          List.drop_one.symm⟩
      exact back _ _ _ _ hw (.inr ⟨hS', by rw [State.sent_slot, State.slot_updSlot_same, hus]⟩)
    cases hs : (((u.updSlot c Slot.rearm).sent (.xpReg c)).answerTo (.xpStart c)).ok
    · obtain ⟨w, hw, hwf, hws⟩ := groupStart_start (started := started) (rest := group) hS hr hs
      rw [hw]
      exact back w _ _ _ hwf (.inr ⟨hS', by rw [hws, hus]⟩)
    · rw [groupStart_member hS hr hs]
      obtain ⟨mf, ms⟩ := startMember_frame c u
      obtain ⟨g1, g2, g3⟩ := ih (c :: started) (startMember c u) hn (List.nodup_cons.2 ⟨hcs, hsn⟩)
        (fun d hd => by
          rcases List.mem_cons.1 hd with rfl | hd
          · exact hc
          · exact fun m => hdis d hd (by simp [m]))
        (fun d hd => by
          rcases List.mem_cons.1 hd with rfl | hd
          · exact ⟨hS', by rw [ms, hus]⟩
          · rw [mf.others d (by simpa using fun e : d = c => hcs (e ▸ hd))]; exact h1 d hd)
        (fun d hd => by
          simp only [List.mem_cons, not_or] at hd
          rw [mf.others d (by simpa using hd.1), h2 d hd.2])
        (mf.memory.trans hm) (hg.trans mf.globals)
      refine ⟨g1, g2, fun d => ?_⟩
      rcases g3 d with h | ⟨m, h⟩
      · exact .inl h
      · refine .inr ⟨?_, h⟩
        simp only [List.mem_append, List.mem_cons] at m ⊢
        rcases m with (m | m) | m
        · exact .inr (.inl m)
        · exact .inl m
        · exact .inr (.inr m)

theorem execGrpStart_effect (s : State) : ∃ t, execGrpStart s = .next t ∧ CommandEffect s t := by
  refine onGroup_effect (fun s t => CommandEffect s t) (fun c => .finish s _ _ c) fun hc hlen => ?_
  split
  · exact .finish s _ _ _
  · obtain ⟨h1, h2, h3⟩ := groupStart_moves (s := s.setAwaiting (BitVec.ofNat 32 (members s.groupMask).length))
      (members s.groupMask) [] (s.setAwaiting (BitVec.ofNat 32 (members s.groupMask).length)) (members_nodup _)
      List.nodup_nil nofun nofun (fun _ _ => rfl) rfl (.refl _)
    have hh := h2.toKeepsHostSide
    refine ⟨⟨h1, hh.params, hh.events, hh.rdata, hh.memData⟩, ⟨fun d _ => ?_, fun d hd => ?_⟩, .inr ?_⟩
    · rcases h3 d with h | ⟨-, hS, h | h | h⟩
      · rw [h]; exact .keep
      · rw [h]; exact .groupStart hS
      · rw [h]; exact .rearm ((Slot.isSoftware_iff _).2 ⟨hS.1, hS.2.1⟩)
      · rw [h]; exact .groupUndo hS
    · rcases h3 d with h | ⟨m, -⟩
      · exact .inl h
      · exact absurd (hc d (by simpa using m)) (by omega)
    · rw [h2.awaiting]
      show (BitVec.ofNat 32 _).toNat ≤ _
      rw [BitVec.toNat_ofNat]
      exact (Nat.mod_le _ _).trans hlen

/-- Every command ends in a next state, with the effect of a command (R19). -/
theorem runCommand_effect (i : Instr) (s : State) : ∃ t, runCommand i s = .next t ∧ CommandEffect s t := by
  cases i with
  | nop => exact ⟨_, rfl, .finish s _ _ _⟩
  | swBind c => exact execSwBind_effect c s
  | unbind c => exact execUnbind_effect c s
  | register c => exact execRegister_effect c s
  | deregister c => exact execDeregister_effect c s
  | start c => exact execStart_effect c s
  | stop c => exact execStop_effect c s
  | rearm c => exact execRearm_effect c s
  | awaitSet => exact execAwaitSet_effect s
  | grpStart => exact execGrpStart_effect s
  | grpStop => exact execGrpStop_effect s
  | dmaSetup c => exact execDmaSetup_effect c s
  | dmaAcquire c => exact execDmaAcquire_effect c s
  | dmaRelease c => exact execDmaRelease_effect c s
  | dmaCancel c => exact execDmaCancel_effect c s
  | dmaTeardown c => exact execDmaTeardown_effect c s
  | softReset => exact execSoftReset_effect s
  | pktStart _ _ _ _ => exact ⟨_, rfl, .finish s _ _ _⟩
  | pktCont _ _ _ _ => exact ⟨_, rfl, .finish s _ _ _⟩
  | fill _ _ => exact ⟨_, rfl, .finish s _ _ _⟩
  | regWr _ _ => exact ⟨_, rfl, .finish s _ _ _⟩
  | regRd _ => exact ⟨_, rfl, .finish s _ _ _⟩

theorem execCommandWord_effect (w : Word) (s : State) : ∃ t, execCommandWord w s = .next t ∧ CommandEffect s t := by
  unfold execCommandWord
  split
  · exact runCommand_effect _ s
  · exact ⟨_, rfl, .finish s _ _ _⟩

/-- Every instruction that arrives as a command word ends in a next state, with the effect of a command. -/
theorem exec_command_effect {w : Word} {i : Instr} (h : decodeCommand w = .ok i) (s : State) :
    exec i s = runCommand i s := by
  unfold decodeCommand at h
  split at h
  · cases h
  rename_i row hrow
  split at h
  · cases h
  unfold commandRow at hrow
  split at hrow <;> cases hrow <;> dsimp only at h <;> first
    | (split at h <;> cases h <;> rfl)
    | (cases h; rfl)

/-! ### Packets and fills -/

/-- A packet makes one move in its own slot, and the counter of awaited completions does not grow. -/
theorem exec_packet_moves {s t : State} {i : Instr} {c : Chan} {len : Word} {p : List Byte} (hi : IsPacket i c len p)
    (h : exec i s = .next t) : SlotsMove s t ∧ t.awaiting.toNat ≤ s.awaiting.toNat := by
  rcases exec_packet_next hi h with ⟨-, rfl⟩ | ⟨-, rfl⟩ | ⟨hd, -, rfl⟩ | ⟨off, hd, ho, h⟩
  · exact ⟨.of_same fun _ => rfl, Nat.le_refl _⟩
  · exact ⟨.of_same fun _ => rfl, Nat.le_refl _⟩
  · obtain ⟨h1, -, h3, h4⟩ := watchdog_short c s
    refine ⟨.of_one hd.1 h1.slots ?_, by rw [h3]⟩
    split at h4
    · rw [h4.1]; exact .abandonFrame hd.2.1 hd.2.2
    · rw [h4.1]; exact .count hd.2.1 hd.2.2 _
  · rw [takePayload_eq] at h
    obtain ⟨u, hu, h⟩ := andThen_eq_next h
    cases h
    have hfr := ((PortEventFrame.updSlot c s _).trans (.memWrite hu)).trans (afterStore_frame c len u)
    have hus : u.slot c = (atOffset s c off).slot c := by rw [(memWrite_next hu).2.1]; rfl
    have hua : u.awaiting = s.awaiting := by rw [(memWrite_next hu).2.1]; rfl
    have hsl : (atOffset s c off).slot c =
        { s.slot c with woff := BitVec.ofNat 32 off, progress := .inProgress } := State.slot_updSlot_same _ _ _
    have hoff : off ≤ (s.slot c).woff.toNat := by
      obtain ⟨hdr, rfl | rfl⟩ := hi <;> cases hp : (s.slot c).progress <;> simp only [copyOffset, hp] at ho <;>
        cases ho <;> simp
    have hofft : (BitVec.ofNat 32 off).toNat = off := by
      rw [BitVec.toNat_ofNat]; exact Nat.mod_eq_of_lt (by have := (s.slot c).woff.isLt; omega)
    have hwu : (u.slot c).woff.toNat = off := by rw [hus, hsl]; exact hofft
    have heu : (u.slot c).expected = (s.slot c).expected := by rw [hus, hsl]
    by_cases hc : (u.slot c).expected.toNat ≤ (u.slot c).woff.toNat + copyCount (u.slot c) len
    · obtain ⟨h1, h2, -⟩ := afterStore_complete (s := u) (len := len) rfl hc
      refine ⟨.of_one hd.1 hfr.slots ?_, by rw [h2, countDown_toNat, hua]; omega⟩
      have hsz : (s.slot c).woff.toNat ≤ (s.slot c).expected.toNat →
          (u.slot c).woff + BitVec.ofNat 32 (copyCount (u.slot c) len) = (s.slot c).expected := fun hle => by
        apply BitVec.eq_of_toNat_eq
        rw [copyOffset_toNat]
        have := copyCount_le (u.slot c) len
        rw [heu] at this hc
        omega
      rw [h1, hus, hsl]
      rw [hus, hsl] at hsz
      exact .complete hd.2.1 hd.2.2 _ _ hsz
    · obtain ⟨-, h2, h3⟩ := afterStore_short (c := c) (s := u) (len := len) rfl (by omega)
      refine ⟨.of_one hd.1 hfr.slots ?_, by rw [h2, hua]⟩
      have hlt := Nat.not_le.1 hc
      rw [← copyOffset_toNat, heu] at hlt
      split at h3
      · rw [h3.1, hus, hsl]; exact .abandonFrame hd.2.1 hd.2.2
      · rw [h3.1, hus, hsl]
        rw [hus, hsl] at hlt
        exact .copy hd.2.1 hd.2.2 _ _ hlt

/-- A fill makes one move in its own slot and leaves the counter alone. -/
theorem execFill_moves {s t : State} {c : Chan} {f : List Byte} (h : execFill c f s = .next t) :
    SlotsMove s t ∧ t.awaiting = s.awaiting := by
  rcases execFill_next h with ⟨-, rfl⟩ | ⟨-, -, rfl⟩ | ⟨hc, hd, -, rfl⟩ | ⟨hc, hd, hq, -, u, hu, rfl⟩
  · exact ⟨.of_same fun _ => rfl, rfl⟩
  · exact ⟨.of_same fun _ => rfl, rfl⟩
  · refine ⟨?_, rfl⟩
    have := SlotsMove.upd hc s (fun k => { k with ringOvr := true }) (fun _ => rfl) (.overrun hd)
    exact this.of_slots rfl
  · have hue : u = { s with mem := u.mem } := by
      obtain ⟨v, hv, rfl⟩ := storeFrame_next hu
      rw [(memWrite_next hv).2.1]; rfl
    have hus : SameSlots s u := fun d => by rw [hue]; rfl
    have hua : u.awaiting = s.awaiting := by rw [hue]
    unfold afterFill
    rw [hus c]
    cases hp : (s.slot c).acqPending
    · exact ⟨.upd hc u _ hus (.fill hd hp hq), hua⟩
    · refine ⟨?_, hua⟩
      have := SlotsMove.upd hc u (fun k => Slot.handOver { k.markFilled with acqPending := false }) hus
        (.fillHandOver hd hp hq)
      exact this.of_slots rfl

end Sys2Proof.Machine
end

