-- ==== Sys2Proof/Laws/PerInstr.lean ====
section
/-! SUPPORT. Per instruction: its encoding has the bits its row of spec/opcode_table.json fixes. -/

namespace Sys2Proof.Laws.TableRow

/-- `match` and `mask` of the instruction's row. -/
def row : Instr → Nat × Nat
  | .nop => (0x00000000, 0xFFFFFFFF)
  | .swBind _ => (0x01000000, 0xFFFFFFC0)
  | .unbind _ => (0x02000000, 0xFFFFFFC0)
  | .register _ => (0x03000000, 0xFFFFFFC0)
  | .deregister _ => (0x04000000, 0xFFFFFFC0)
  | .start _ => (0x05000000, 0xFFFFFFC0)
  | .stop _ => (0x06000000, 0xFFFFFFC0)
  | .rearm _ => (0x07000000, 0xFFFFFFC0)
  | .awaitSet => (0x08000000, 0xFFFFFFFF)
  | .grpStart => (0x09000000, 0xFFFFFFFF)
  | .grpStop => (0x0A000000, 0xFFFFFFFF)
  | .dmaSetup _ => (0x10000000, 0xFFFFFFC0)
  | .dmaAcquire _ => (0x11000000, 0xFFFFFFC0)
  | .dmaRelease _ => (0x12000000, 0xFFFFFFC0)
  | .dmaCancel _ => (0x13000000, 0xFFFFFFC0)
  | .dmaTeardown _ => (0x14000000, 0xFFFFFFC0)
  | .softReset => (0x7F000000, 0xFFFFFFFF)
  | .pktStart _ _ _ _ => (0x00000001, 0x00000001)
  | .pktCont _ _ _ _ => (0x00000000, 0x00000001)
  | .fill _ _ => (0x0, 0x0)
  | .regWr _ _ => (0x1, 0x1)
  | .regRd _ => (0x0, 0x1)

/-- The bits a row's `match` and `mask` are over: the command word, the header word, or `we`. -/
def key : Input → Nat
  | .command w => w.toNat
  | .packet _ hdr _ _ => hdr.toNat
  | .fill _ _ => 0
  | .access we _ _ => we.toNat

/-- The encoding of the instruction has its row's fixed bits. -/
def Statement (i : Instr) : Prop := i.WellFormed → key (encode i) &&& (row i).2 = (row i).1

theorem nop : Statement .nop := fun _ => by decide
theorem swBind (c : Chan) : Statement (.swBind c) := fun _ => by revert c; decide
theorem unbind (c : Chan) : Statement (.unbind c) := fun _ => by revert c; decide
theorem register (c : Chan) : Statement (.register c) := fun _ => by revert c; decide
theorem deregister (c : Chan) : Statement (.deregister c) := fun _ => by revert c; decide
theorem start (c : Chan) : Statement (.start c) := fun _ => by revert c; decide
theorem stop (c : Chan) : Statement (.stop c) := fun _ => by revert c; decide
theorem rearm (c : Chan) : Statement (.rearm c) := fun _ => by revert c; decide
theorem awaitSet : Statement .awaitSet := fun _ => by decide
theorem grpStart : Statement .grpStart := fun _ => by decide
theorem grpStop : Statement .grpStop := fun _ => by decide
theorem dmaSetup (c : Chan) : Statement (.dmaSetup c) := fun _ => by revert c; decide
theorem dmaAcquire (c : Chan) : Statement (.dmaAcquire c) := fun _ => by revert c; decide
theorem dmaRelease (c : Chan) : Statement (.dmaRelease c) := fun _ => by revert c; decide
theorem dmaCancel (c : Chan) : Statement (.dmaCancel c) := fun _ => by revert c; decide
theorem dmaTeardown (c : Chan) : Statement (.dmaTeardown c) := fun _ => by revert c; decide
theorem softReset : Statement .softReset := fun _ => by decide

/-- A header word's bit 0 as a mask. -/
theorem bitZero (hdr : Word) : hdr.toNat &&& 1 = (hdr.getLsbD 0).toNat := by
  rw [Nat.and_one_is_mod, BitVec.getLsbD, Nat.testBit_zero]
  rcases Nat.mod_two_eq_zero_or_one hdr.toNat with h | h <;> simp [h]

theorem pktStart (c : Chan) (hdr len : Word) (p : List Byte) : Statement (.pktStart c hdr len p) := fun h => by
  show hdr.toNat &&& 1 = 1
  rw [bitZero, ((pktStart_wf c hdr len p).1 h).1]
  rfl

theorem pktCont (c : Chan) (hdr len : Word) (p : List Byte) : Statement (.pktCont c hdr len p) := fun h => by
  show hdr.toNat &&& 1 = 0
  rw [bitZero, ((pktCont_wf c hdr len p).1 h).1]
  rfl

theorem fill (c : Chan) (f : List Byte) : Statement (.fill c f) := fun _ => Nat.and_zero _
theorem regWr (addr : BitVec 16) (w : Word) : Statement (.regWr addr w) := fun _ => show 1 &&& 1 = 1 by decide
theorem regRd (addr : BitVec 16) : Statement (.regRd addr) := fun _ => show 0 &&& 1 = 0 by decide

end Sys2Proof.Laws.TableRow
end

