-- ==== Sys2Proof/Laws/RingInv.lean ====
section
/-! SUPPORT. The invariants of a ring (R49) under the operations of one slot. -/

namespace Sys2Proof.Machine

/-- Two indices less than one turn apart that meet modulo the ring size are equal. -/
theorem ringIndex_inj {b x y : Nat} (h : x % b = y % b) (h1 : x ≤ y) (h2 : y < x + b) : x = y := by
  have hd := (Nat.modEq_iff_dvd' h1).1 h
  have := Nat.eq_zero_of_dvd_of_lt hd (by omega)
  omega

variable {M : Nat} {k : Slot}

/-- The number of filled slots of R172 is the one R49 (iv) speaks of. -/
theorem RingInv.run (h : RingInv M k) : k.nFilled ≤ k.ringB.toNat ∧
    (∀ i < 16, k.ringAt i = .filledPending ↔ ∃ j < k.nFilled, i = (k.lastReturned.toNat + 1 + j) % k.ringB.toNat) ∧
    k.fillIdx.toNat = (k.lastReturned.toNat + 1 + k.nFilled) % k.ringB.toNat := by
  obtain ⟨n, hn, hiff, hfill⟩ := h.filled
  obtain ⟨hb1, hb2⟩ := h.size
  have hlt : ∀ x, x % k.ringB.toNat < 16 := fun x => by
    have := Nat.mod_lt x (show 0 < k.ringB.toNat by omega); omega
  have hnf : k.nFilled = n := by
    refine k.filledRun_eq (i := k.nextExpected) hn (fun j hj => ?_) (fun hl hc => ?_)
    · rw [Slot.nextExpected, Nat.mod_add_mod]
      exact (hiff _ (hlt _)).2 ⟨j, hj, rfl⟩
    · rw [Slot.nextExpected, Nat.mod_add_mod] at hc
      obtain ⟨j, hj, e⟩ := (hiff _ (hlt _)).1 hc
      have := ringIndex_inj e.symm (by omega) (by omega)
      omega
  rw [hnf]
  exact ⟨hn, hiff, hfill⟩

/-- The newest filled slot is the last of the run (R172). -/
theorem RingInv.newest_eq (h : RingInv M k) (hn : 1 ≤ k.nFilled) :
    k.newest = (k.lastReturned.toNat + k.nFilled) % k.ringB.toNat := by
  have := h.size
  rw [Slot.newest, Slot.nextExpected, show (k.lastReturned.toNat + 1) % k.ringB.toNat + k.nFilled - 1 =
    (k.lastReturned.toNat + 1) % k.ringB.toNat + (k.nFilled - 1) by omega, Nat.mod_add_mod]
  congr 1; omega

/-- An acquire that stops pending, and the record fields, are free of the ring. -/
theorem RingInv.record (h : RingInv M k) (code : ResultCode) (done ovr : Bool) :
    RingInv M { k with acqPending := false, acqCode := code, acqDone := done, ringOvr := ovr } :=
  ⟨h.held, h.notHeld, h.size, h.present, h.absent, h.pointers, h.region, h.filled, h.heldLast, nofun, h.quiet⟩

/-- The record fields of a ring with its pending acquire kept. -/
theorem RingInv.keepPending (h : RingInv M k) (ovr : Bool) : RingInv M { k with ringOvr := ovr } :=
  ⟨h.held, h.notHeld, h.size, h.present, h.absent, h.pointers, h.region, h.filled, h.heldLast, h.pending, h.quiet⟩

/-- An acquire may pend where nothing is held and nothing is filled (R187). -/
theorem RingInv.pend (h : RingInv M k) (hh : k.heldValid = false) (hn : k.nFilled = 0) :
    RingInv M { k.freshAcquire with acqPending := true } := by
  have hr := h.run.2.1
  rw [hn] at hr
  exact ⟨h.held, h.notHeld, h.size, h.present, h.absent, h.pointers, h.region, h.filled, h.heldLast,
    fun _ => ⟨hh, fun i hi hc => by obtain ⟨j, hj, -⟩ := (hr i hi).1 hc; omega⟩, h.quiet⟩

/-- A fill finds room only while some slot is not filled. -/
theorem RingInv.room (h : RingInv M k) (hq : k.ringAt k.fillIdx.toNat = .queuedEmpty) : k.nFilled < k.ringB.toNat := by
  obtain ⟨h1, h2, h3⟩ := h.run
  have hb := h.size
  rcases Nat.lt_or_ge k.nFilled k.ringB.toNat with h4 | h4
  · exact h4
  · have hn : k.nFilled = k.ringB.toNat := by omega
    rw [hn, Nat.add_mod_right] at h3
    have := (h2 k.fillIdx.toNat (by have := h.pointers; omega)).2 ⟨0, by omega, h3⟩
    rw [hq] at this; cases this

/-- A fill keeps the invariants while no acquire is pending (R180). -/
theorem RingInv.markFilled (h : RingInv M k) (hp : k.acqPending = false)
    (hq : k.ringAt k.fillIdx.toNat = .queuedEmpty) : RingInv M k.markFilled ∧ k.markFilled.nFilled = k.nFilled + 1 := by
  obtain ⟨h1, h2, h3⟩ := h.run
  have hroom := h.room hq
  obtain ⟨hb1, hb2⟩ := h.size
  have hf16 : k.fillIdx.toNat < 16 := k.fillIdx.isLt
  have hat := k.ringAt_markFilled
  have hidx : k.markFilled.fillIdx.toNat = (k.lastReturned.toNat + 1 + (k.nFilled + 1)) % k.ringB.toNat := by
    show (BitVec.ofNat 4 ((k.fillIdx.toNat + 1) % k.ringB.toNat)).toNat = _
    rw [ringIndex_toNat hb1 hb2, h3, Nat.mod_add_mod]; rfl
  have hiff : ∀ i < 16, k.markFilled.ringAt i = .filledPending ↔
      ∃ j < k.nFilled + 1, i = (k.lastReturned.toNat + 1 + j) % k.ringB.toNat := by
    intro i hi
    rw [hat i hi]
    constructor
    · intro hc
      split at hc
      · rename_i he; exact ⟨k.nFilled, by omega, he.trans h3⟩
      · obtain ⟨j, hj, e⟩ := (h2 i hi).1 hc; exact ⟨j, by omega, e⟩
    · rintro ⟨j, hj, e⟩
      split
      · rfl
      · rename_i hne
        refine (h2 i hi).2 ⟨j, ?_, e⟩
        rcases Nat.lt_succ_iff_lt_or_eq.1 hj with h' | h'
        · exact h'
        · subst h'; exact absurd (e.trans h3.symm) hne
  have inv : RingInv M k.markFilled := by
    refine ⟨fun hv i hi => ?_, fun hv i hi => ?_, ⟨hb1, hb2⟩, fun i hi => ?_, fun i hi hb => ?_, ?_, h.region,
      ⟨k.nFilled + 1, hroom, hiff, hidx⟩, h.heldLast, fun hc => ?_, h.quiet⟩
    · rw [hat i hi]
      split
      · rename_i he
        have := (h.held hv i hi)
        rw [he, hq] at this
        simp only [reduceCtorEq, false_iff] at this ⊢
        rw [he]; exact this
      · exact h.held hv i hi
    · rw [hat i hi]
      split
      · exact nofun
      · exact h.notHeld hv i hi
    · rw [hat i (Nat.lt_of_lt_of_le hi hb2)]
      split
      · exact nofun
      · exact h.present i hi
    · rw [hat i hi, if_neg (fun e => ?_)]
      · exact h.absent i hi hb
      · have := h.pointers.2.1
        have : k.ringB.toNat ≤ i := hb
        omega
    · refine ⟨h.pointers.1, ?_, h.pointers.2.2⟩
      rw [hidx]; exact Nat.mod_lt _ hb1
    · rw [show k.markFilled.acqPending = k.acqPending from rfl, hp] at hc; cases hc
  refine ⟨inv, ?_⟩
  obtain ⟨g1, g2, g3⟩ := inv.run
  have hlt : ∀ x, x % k.ringB.toNat < 16 := fun x => by
    have := Nat.mod_lt x (show 0 < k.ringB.toNat by omega); omega
  exact k.markFilled.filledRun_eq (fuel := k.ringB.toNat) (i := k.nextExpected) hroom
    (fun j hj => by
      show k.markFilled.ringAt ((k.nextExpected + j) % k.ringB.toNat) = _
      rw [Slot.nextExpected, Nat.mod_add_mod]
      exact (hiff _ (hlt _)).2 ⟨j, hj, rfl⟩)
    (fun hl hc => by
      change k.markFilled.ringAt ((k.nextExpected + _) % k.ringB.toNat) = _ at hc
      rw [Slot.nextExpected, Nat.mod_add_mod] at hc
      obtain ⟨j, hj, e⟩ := (hiff _ (hlt _)).1 hc
      have := ringIndex_inj e.symm (by omega) (by omega)
      omega)

/-- A hand-over keeps the invariants (R186). -/
theorem RingInv.handOver (h : RingInv M k) (hp : k.acqPending = false) (hh : k.heldValid = false)
    (hn : 1 ≤ k.nFilled) : RingInv M k.handOver := by
  obtain ⟨h1, h2, h3⟩ := h.run
  obtain ⟨hb1, hb2⟩ := h.size
  have hat := k.ringAt_handOver
  have heq := k.handOver_eq
  have hnw := h.newest_eq hn
  have hnwb : k.newest < k.ringB.toNat := by rw [hnw]; exact Nat.mod_lt _ hb1
  have hB : k.handOver.ringB = k.ringB := by rw [heq]
  have hnwt : (BitVec.ofNat 4 k.newest).toNat = k.newest := by
    rw [hnw]; exact ringIndex_toNat hb1 hb2
  have hH : k.handOver.heldIdx.toNat = k.newest := by rw [heq]; exact hnwt
  have hL : k.handOver.lastReturned.toNat = k.newest := by rw [heq]; exact hnwt
  have hF : k.handOver.fillIdx = k.fillIdx := by rw [heq]
  have hP : k.handOver.acqPending = k.acqPending := by rw [heq]
  refine ⟨fun _ i hi => ?_, fun hv => ?_, by rw [hB]; exact ⟨hb1, hb2⟩, fun i hi => ?_, fun i hi hb => ?_,
    by rw [hL, hF, hH, hB]; exact ⟨hnwb, h.pointers.2.1, hnwb⟩, by rw [heq]; exact h.region,
    ⟨0, Nat.zero_le _, fun i hi => ?_, ?_⟩, fun _ => by rw [heq], fun hc => ?_, by rw [heq]; exact h.quiet⟩
  · rw [hat i hi, hH]
    split
    · rename_i e; exact ⟨fun _ => e, fun _ => rfl⟩
    · rename_i e
      split
      · exact ⟨nofun, fun c => absurd c e⟩
      · exact ⟨fun c => absurd c (h.notHeld hh i hi), fun c => absurd c e⟩
  · rw [heq] at hv; cases hv
  · rw [hB] at hi
    rw [hat i (Nat.lt_of_lt_of_le hi hb2)]
    split
    · exact nofun
    · split
      · exact nofun
      · exact h.present i hi
  · rw [hB] at hb
    rw [hat i hi, if_neg (by omega), if_neg]
    · exact h.absent i hi hb
    · rintro ⟨j, -, e⟩
      have := Nat.mod_lt (k.nextExpected + j) (show 0 < k.ringB.toNat by omega)
      omega
  · constructor
    · intro hc
      exfalso
      rw [hat i hi] at hc
      split at hc
      · cases hc
      · rename_i e1
        split at hc
        · cases hc
        · rename_i e2
          obtain ⟨j, hj, e⟩ := (h2 i hi).1 hc
          rcases Nat.lt_or_ge j (k.nFilled - 1) with h' | h'
          · exact e2 ⟨j, h', by rw [Slot.nextExpected, Nat.mod_add_mod]; exact e⟩
          · apply e1
            rw [hnw, e]; congr 1; omega
    · rintro ⟨j, hj, -⟩; omega
  · rw [hF, hL, hB, h3, hnw, Nat.add_assoc (_ % _) 1 0, Nat.mod_add_mod]
    congr 1; omega
  · rw [hP, hp] at hc; cases hc

/-- A release keeps the invariants (R190). -/
theorem RingInv.release (h : RingInv M k) (hh : k.heldValid = true) :
    RingInv M { k.setRing k.heldIdx.toNat .queuedEmpty with heldValid := false } := by
  have hat : ∀ i < 16, ({ k.setRing k.heldIdx.toNat .queuedEmpty with heldValid := false } : Slot).ringAt i =
      if i = k.heldIdx.toNat then .queuedEmpty else k.ringAt i := fun i hi => by
    show (k.setRing k.heldIdx.toNat .queuedEmpty).ringAt i = _
    rw [Slot.ringAt_setRing]
    simp only [hi, and_true]
  have hhand : ∀ i < 16, k.ringAt i = .handedToCaller ↔ i = k.heldIdx.toNat := h.held hh
  have hb2 := h.size.2
  refine ⟨nofun, fun _ i hi => ?_, h.size, fun i hi => ?_, fun i hi hb => ?_, h.pointers, h.region, ?_, nofun,
    fun hc => ?_, h.quiet⟩
  · rw [hat i hi]
    split
    · exact nofun
    · rename_i e; exact fun c => e ((hhand i hi).1 c)
  · rw [hat i (Nat.lt_of_lt_of_le hi hb2)]
    split
    · exact nofun
    · exact h.present i hi
  · rw [hat i hi, if_neg]
    · exact h.absent i hi hb
    · have := h.pointers.2.2
      have : k.ringB.toNat ≤ i := hb
      omega
  · obtain ⟨n, hn, hiff, hf⟩ := h.filled
    refine ⟨n, hn, fun i hi => ?_, hf⟩
    rw [hat i hi]
    split
    · rename_i e
      refine ⟨nofun, fun c => ?_⟩
      have h1 := (hiff i hi).2 c
      rw [(hhand i hi).2 e] at h1; cases h1
    · exact hiff i hi
  · have := (h.pending hc).1
    rw [hh] at this; cases this

/-- A ring just set up meets the invariants (R175). -/
theorem RingInv.bindRing {base size b granted : Word} (hb : ¬ (b.toNat < 1 ∨ 16 < b.toNat)) (hs : ¬ size = 0)
    (hg : ¬ granted.toNat < size.toNat) (hm : ¬ M < base.toNat + b.toNat * granted.toNat)
    (hq : k.progress = .idle ∧ k.registered = false ∧ k.receiving = false ∧ k.ovf = false ∧ k.desync = false) :
    RingInv M (k.bindRing base size b granted) := by
  have hB : (k.bindRing base size b granted).ringB.toNat = b.toNat := by
    simp only [Slot.bindRing, BitVec.toNat_ofNat]; exact Nat.mod_eq_of_lt (by omega)
  have hL : (k.bindRing base size b granted).lastReturned.toNat = b.toNat - 1 := by
    simp only [Slot.bindRing, BitVec.toNat_ofNat]; exact Nat.mod_eq_of_lt (by omega)
  have hat : ∀ i < 16, (k.bindRing base size b granted).ringAt i = if i < b.toNat then .queuedEmpty else .absent :=
    fun i hi => ringAt_freshRing k b.toNat i hi
  have hs1 : 1 ≤ size.toNat := by
    rcases Nat.eq_zero_or_pos size.toNat with h | h
    · exact absurd (BitVec.eq_of_toNat_eq h) hs
    · exact h
  refine ⟨nofun, fun _ i hi => ?_, by rw [hB]; omega, fun i hi => ?_, fun i hi h => ?_, ?_, ⟨hs1, by exact Nat.not_lt.1 hg, by rw [hB]; exact Nat.not_lt.1 hm⟩,
    ⟨0, Nat.zero_le _, fun i hi => ?_, ?_⟩, nofun, nofun, ⟨hq.1, rfl, hq.2.1, hq.2.2.1, hq.2.2.2.1, hq.2.2.2.2, rfl, rfl, rfl⟩⟩
  · rw [hat i hi]; split <;> exact nofun
  · rw [hB] at hi
    rw [hat i (by omega), if_pos hi]; exact nofun
  · rw [hB] at h
    rw [hat i hi, if_neg (by omega)]
  · rw [hL, hB]
    refine ⟨by omega, ?_, ?_⟩ <;> (show (0 : BitVec 4).toNat < _; simp; omega)
  · rw [hat i hi]
    constructor
    · split <;> exact nofun
    · rintro ⟨j, hj, -⟩; omega
  · rw [hL, hB, Nat.add_zero, Nat.sub_add_cancel (by omega), Nat.mod_self]; rfl

end Sys2Proof.Machine
end

