-- ==== Sys2Proof/Laws/Step.lean ====
section
/-! SUPPORT. All that one step can be, said once, and the run of one more step. -/

namespace Sys2Proof.Machine

/-- A run whose first step goes on is the run of the rest. -/
theorem core_run_succ {s u : State} {n : Nat} (h : step s = .next u) :
    Sys2Proof.core.run (n + 1) s = Sys2Proof.core.run n u := by
  have h' : Sys2Proof.core.step s = .next u := h
  simp only [Host.Core.run, h']

/-- Every command ends in a next state (R19). -/
theorem exec_decoded_command {i : Instr} {w : Word} (h : decodeCommand w = .ok i) (s : State) :
    ∃ t, exec i s = .next t ∧ CommandEffect s t := by
  rw [exec_command_effect h]; exact runCommand_effect i s

/-- A register write does no more than a command can (R231). -/
theorem execRegWr_effect (addr : BitVec 16) (w : Word) (s t : State) (h : execRegWr addr w s = .next t) :
    CommandEffect s t := by
  unfold execRegWr at h
  split at h
  case h_4 =>
    obtain ⟨u, hu, he⟩ := execCommandWord_effect w s
    rw [hu] at h; cases h; exact he
  all_goals
    cases h
    exact ⟨⟨rfl, rfl, rfl, rfl, rfl⟩, .of_same fun _ => rfl, .inl rfl⟩

/-- All that a step can be (R9): nothing waits; a host access to memory; a command or register write; a register
read; a packet; a fill. -/
theorem step_cases {s t : State} (h : step s = .next t) :
    t = s ∨ ∃ e rest, s.events = e :: rest ∧ ∃ s', s' = { s with events := rest } ∧
      ((∃ addr n, e = .hostMemRead addr n ∧ t = { s' with memData := t.memData }) ∨
        (∃ addr v, e = .hostMemWrite addr v ∧ memWrite s' addr v = .next t) ∨
        (∃ x, e = .input x ∧ (CommandEffect s' t ∨ t = { s' with rdata := t.rdata } ∨
          (∃ i c len p, IsPacket i c len p ∧ p.length = len.toNat ∧ exec i s' = .next t) ∨
          ∃ c f, execFill c f s' = .next t))) := by
  unfold step at h
  split at h
  · cases h; exact .inl rfl
  · rename_i addr n rest he
    unfold hostMemRead at h
    split at h
    · cases h; exact .inr ⟨_, _, he, _, rfl, .inl ⟨_, _, rfl, rfl⟩⟩
    · cases h
  · rename_i addr v rest he
    exact .inr ⟨_, _, he, _, rfl, .inr (.inl ⟨_, _, rfl, h⟩)⟩
  · rename_i x rest he
    refine .inr ⟨_, _, he, _, rfl, .inr (.inr ⟨_, rfl, ?_⟩)⟩
    cases x with
    | command w =>
      simp only [decodeInput] at h
      cases hd : decodeCommand w with
      | ok i =>
        rw [hd] at h
        obtain ⟨u, hu, hef⟩ := exec_decoded_command hd { s with events := rest }
        have : Host.Outcome.next u = Host.Outcome.next t := hu.symm.trans h
        cases this; exact .inl hef
      | error e =>
        rw [hd] at h
        rcases decodeCommand_error hd with rfl | rfl | rfl <;> cases h <;> exact .inl (.finish _ _ _ _)
    | packet c hdr len p =>
      simp only [decodeInput, decodePacket] at h
      split at h
      · rename_i h1
        split at h1
        · cases h1
        · rename_i hl
          have hl := not_not.1 hl
          split at h1 <;> cases h1
          · exact .inr (.inr (.inl ⟨_, _, _, _, ⟨_, .inl rfl⟩, hl, h⟩))
          · exact .inr (.inr (.inl ⟨_, _, _, _, ⟨_, .inr rfl⟩, hl, h⟩))
      · rename_i h1
        split at h1
        · cases h1; cases h
        · split at h1 <;> cases h1
    | fill c f =>
      simp only [decodeInput, decodeFill] at h
      split at h
      · rename_i h1
        split at h1 <;> cases h1
        exact .inr (.inr (.inr ⟨_, _, h⟩))
      · rename_i h1
        split at h1 <;> cases h1
        cases h
    | access we a w =>
      simp only [decodeInput, decodeAccess] at h
      cases we
      · cases h; exact .inr (.inl rfl)
      · exact .inl (execRegWr_effect _ _ _ _ h)

/-- What a step does to the slots and to `awaiting` (R48). -/
theorem step_moves {s t : State} (h : step s = .next t) :
    SlotsMove s t ∧ t.awaiting.toNat ≤ max s.awaiting.toNat s.nch := by
  rcases step_cases h with rfl | ⟨e, rest, -, s', rfl, ⟨_, _, _, h⟩ | ⟨_, _, _, h⟩ |
    ⟨x, -, h | h | ⟨i, c, len, p, hi, -, h⟩ | ⟨c, f, h⟩⟩⟩
  · exact ⟨.of_same fun _ => rfl, by omega⟩
  · rw [h]; exact ⟨.of_same fun _ => rfl, by show s.awaiting.toNat ≤ _; omega⟩
  · rw [(memWrite_next h).2.1]; exact ⟨.of_same fun _ => rfl, by show s.awaiting.toNat ≤ _; omega⟩
  · refine ⟨⟨h.slots.move, h.slots.none⟩, ?_⟩
    rcases h.awaiting with h | h
    · rw [h]; show s.awaiting.toNat ≤ _; omega
    · have : t.awaiting.toNat ≤ s.nch := h
      omega
  · rw [h]; exact ⟨.of_same fun _ => rfl, by show s.awaiting.toNat ≤ _; omega⟩
  · obtain ⟨h1, h2⟩ := exec_packet_moves hi h
    have : t.awaiting.toNat ≤ s.awaiting.toNat := h2
    exact ⟨⟨h1.move, h1.none⟩, by omega⟩
  · obtain ⟨h1, h2⟩ := execFill_moves h
    have : t.awaiting = s.awaiting := h2
    exact ⟨⟨h1.move, h1.none⟩, by rw [this]; omega⟩

end Sys2Proof.Machine
end

