-- ==== Sys2Proof/Tests/Slice0.lean ====
section
/-! SUPPORT. Small tests: ill-formed terms, decoding of written-out inputs, one step of each instruction against the
vectors of spec/95_test_vectors.md, and for every statement with hypotheses a state that meets them. -/

namespace Sys2Proof.Tests

open Sys2Proof.Machine

/-! ### Helpers -/

/-- The answers of the vectors' reference oracle to a transport request, and its refusal. -/
def yes : Answer := { ok := true, size := 0 }
def no : Answer := { ok := false, size := 0 }
def granted (n : Word) : Answer := { ok := true, size := n }

/-- The slot `SW_BIND` leaves. -/
def soft (dest size wd : Word) : Slot := Slot.reset.bindSoftware dest size wd

/-- Registered, and registered and receiving. -/
def reg (k : Slot) : Slot := { k with registered := true }
def onAir (k : Slot) : Slot := { k with registered := true, receiving := true }

/-- A frame in flight, and a complete one. -/
def flying (k : Slot) (woff wdcnt : Word) : Slot := { k with progress := .inProgress, woff := woff, wdcnt := wdcnt }
def full (k : Slot) : Slot := { k with progress := .complete, caplen := k.expected }

/-- The ring of the vectors of 42_dma_ring.md, its frames cut to `n` bytes. -/
def ring5 (n : Word) : Slot := Slot.reset.bindRing 0x10000 n 4 20480

/-- Three filled slots (S2, step 2); the newest held (S2, step 3). -/
def filled3 (n : Word) : Slot := (((ring5 n).markFilled).markFilled).markFilled
def held5 (n : Word) : Slot := (filled3 n).handOver

/-- The reset state with a slot, with operands, with answers. -/
def withSlot (c : Chan) (k : Slot) : State := State.reset.setSlot c k
def args (s : State) (a0 a1 a2 : Word) : State := { s with arg0 := a0, arg1 := a1, arg2 := a2 }
def told (s : State) (as : List Answer) : State := { s with answers := as }
def fed (s : State) (es : List Event) : State := { s with events := es }
def nch8 (s : State) : State := { s with params := { Params.default with lastChan := 7 } }

/-- What a test sees of the next state. -/
def see (o : StepOutcome) (f : State → Word) : Option Word :=
  match o with
  | .next t => some (f t)
  | .fault _ => none
  | .refused _ => none

def res (s : State) : Word := s.result.word
def stat (c : Chan) (s : State) : Word := (s.slot c).statWord
def ring (c : Chan) (s : State) : Word := (s.slot c).ringWord
def ptr (c : Chan) (s : State) : Word := (s.slot c).ptrWord
def acq (c : Chan) (s : State) : Word := (s.slot c).acqWord
def irqs (s : State) : Word := s.irqStatus.setWidth 32
/-- A byte of memory, all ones where it holds no known value. -/
def byte (a : Nat) (s : State) : Word := ((s.readByte a).map fun b => b.setWidth 32).getD 0xFFFFFFFF

set_option maxRecDepth 100000

/-! ### Ill-formed terms are refused -/

theorem test_wf_start_marker : (Instr.pktStart 3 2 0 []).malformed? = some .startMarkerClear := by decide
theorem test_wf_cont_marker : (Instr.pktCont 3 1 0 []).malformed? = some .contMarkerSet := by decide
theorem test_wf_payload : (Instr.pktStart 3 1 2 [7]).malformed? = some .payloadLength := by decide
theorem test_wf_frame : (Instr.fill 5 (List.replicate (2 ^ 32) 0)).malformed? = some .frameLength := by
  simp only [Instr.malformed?, List.length_replicate, le_refl, if_true]
theorem test_wf_good : (Instr.pktCont 63 0xFFFFFFFE 1 [7]).WellFormed ∧ (Instr.fill 5 [1]).WellFormed := by decide

/-! ### Inputs written out from the tables of R92, R101, R102 and R103 -/

theorem test_decode_plain_commands :
    decodeCommand 0b00000000_000000000000000000_000000 = .ok .nop ∧
    decodeCommand 0b00001000_000000000000000000_000000 = .ok .awaitSet ∧
    decodeCommand 0b00001001_000000000000000000_000000 = .ok .grpStart ∧
    decodeCommand 0b00001010_000000000000000000_000000 = .ok .grpStop ∧
    decodeCommand 0b01111111_000000000000000000_000000 = .ok .softReset := ⟨rfl, rfl, rfl, rfl, rfl⟩
theorem test_decode_session_commands :
    decodeCommand 0b00000001_000000000000000000_000011 = .ok (.swBind 3) ∧
    decodeCommand 0b00000010_000000000000000000_000100 = .ok (.unbind 4) ∧
    decodeCommand 0b00000011_000000000000000000_111111 = .ok (.register 63) ∧
    decodeCommand 0b00000100_000000000000000000_100000 = .ok (.deregister 32) ∧
    decodeCommand 0b00000101_000000000000000000_000001 = .ok (.start 1) ∧
    decodeCommand 0b00000110_000000000000000000_000010 = .ok (.stop 2) ∧
    decodeCommand 0b00000111_000000000000000000_001000 = .ok (.rearm 8) := ⟨rfl, rfl, rfl, rfl, rfl, rfl, rfl⟩
theorem test_decode_ring_commands :
    decodeCommand 0b00010000_000000000000000000_000101 = .ok (.dmaSetup 5) ∧
    decodeCommand 0b00010001_000000000000000000_010000 = .ok (.dmaAcquire 16) ∧
    decodeCommand 0b00010010_000000000000000000_000101 = .ok (.dmaRelease 5) ∧
    decodeCommand 0b00010011_000000000000000000_000110 = .ok (.dmaCancel 6) ∧
    decodeCommand 0b00010100_000000000000000000_111110 = .ok (.dmaTeardown 62) := ⟨rfl, rfl, rfl, rfl, rfl⟩
theorem test_decode_packet :
    decodeInput (.packet 3 0xABCDEF01 1 [7]) = .ok (.pktStart 3 0xABCDEF01 1 [7]) ∧
    decodeInput (.packet 3 0xABCDEF00 0 []) = .ok (.pktCont 3 0xABCDEF00 0 []) := ⟨rfl, rfl⟩
theorem test_decode_fill_and_access :
    decodeInput (.fill 5 [1, 2]) = .ok (.fill 5 [1, 2]) ∧
    decodeInput (.access true 0x002C 7) = .ok (.regWr 0x002C 7) ∧
    decodeInput (.access false 0x1040 7) = .ok (.regRd 0x1040) := ⟨rfl, rfl, rfl⟩
/-- V-ENC-2, V-ENC-3, V-ENC-4 and V-ENC-5. -/
theorem test_decode_refuses :
    decodeCommand 0x0B000000 = .error .badOpcode ∧ decodeCommand 0x01000043 = .error .reservedBits ∧
    decodeCommand 0x08000001 = .error .channelBits ∧ decodeCommand 0xFF00003F = .error .badOpcode :=
  ⟨rfl, rfl, rfl, rfl⟩
/-- V-ENC-5 as a register write: the channel reported is 0. -/
theorem test_bad_word : see (exec (.regWr 0x0014 0xFF00003F) State.reset) res = some 0x80000110 := by decide

/-! ### One step of each instruction -/

/-- V-ENC-1. -/
theorem test_nop : see (exec .nop State.reset) res = some 0x80000000 := by decide
/-- V-SES-1. -/
theorem test_swBind :
    see (exec (.swBind 3) (args State.reset 0x2000 12 0)) res = some 0x80030000 ∧
    see (exec (.swBind 3) (args State.reset 0x2000 12 0)) (stat 3) = some 0x004 ∧
    see (exec (.swBind 3) (args State.reset 0x2000 12 7)) (fun t => (t.slot 3).wdlim) = some 7 := by decide
/-- V-SES-3, V-SES-5 and V-SES-6. -/
theorem test_swBind_checks :
    see (exec (.swBind 3) (args (withSlot 3 (soft 0x2000 12 0)) 0x4000 0 0)) res = some 0x80030214 ∧
    see (exec (.swBind 3) (args State.reset 0xFFFFFFF0 0x20 0)) res = some 0x80030213 ∧
    see (exec (.swBind 3) (args State.reset 0xFFFFFFF0 0x10 0)) res = some 0x80030000 := by decide
/-- V-SES-22. -/
theorem test_unbind :
    see (exec (.unbind 3) (told (withSlot 3 (flying (onAir (soft 0x2000 12 0)) 8 1)) [yes, no])) res = some 0x80030616 ∧
    see (exec (.unbind 3) (told (withSlot 3 (flying (onAir (soft 0x2000 12 0)) 8 1)) [yes, no])) (stat 3) = some 0 := by
  decide
/-- V-SES-24. -/
theorem test_unbind_ring : see (exec (.unbind 5) (withSlot 5 (ring5 4))) res = some 0x80050215 := by decide
/-- V-SES-8 and V-SES-9. -/
theorem test_register :
    see (exec (.register 3) (told (withSlot 3 (soft 0x2000 12 0)) [yes])) (stat 3) = some 0x014 ∧
    see (exec (.register 3) (told (withSlot 3 (soft 0x2000 12 0)) [no])) (stat 3) = some 0x004 ∧
    see (exec (.register 3) (told (withSlot 3 (soft 0x2000 12 0)) [no])) res = some 0x80030316 := by decide
/-- V-SES-14 and V-SES-19. -/
theorem test_deregister :
    see (exec (.deregister 3) (withSlot 3 (onAir (soft 0x2000 12 0)))) res = some 0x80030615 ∧
    see (exec (.deregister 3) (told (withSlot 3 (reg (soft 0x2000 12 0))) [no])) (stat 3) = some 0x004 ∧
    see (exec (.deregister 3) (told (withSlot 3 (reg (soft 0x2000 12 0))) [no])) res = some 0x80030616 := by decide
/-- V-SES-11, V-SES-12 and V-SES-13. -/
theorem test_start :
    see (exec (.start 3) (withSlot 3 (soft 0x2000 12 0))) res = some 0x80030415 ∧
    see (exec (.start 3) (told (withSlot 3 (reg (soft 0x2000 12 0))) [yes])) (stat 3) = some 0x034 ∧
    see (exec (.start 3) (told (withSlot 3 (reg (soft 0x2000 12 0))) [no])) (stat 3) = some 0x014 := by decide
/-- V-SES-16. -/
theorem test_stop :
    see (exec (.stop 3) (told (withSlot 3 (flying (onAir (soft 0x2000 12 0)) 8 1)) [no])) (stat 3) = some 0x014 ∧
    see (exec (.stop 3) (told (withSlot 3 (flying (onAir (soft 0x2000 12 0)) 8 1)) [no])) res = some 0x80030516 := by
  decide
/-- V-SES-18: a complete frame is kept. -/
theorem test_stop_complete :
    see (exec (.stop 3) (told (withSlot 3 { full (onAir (soft 0x2000 12 0)) with ovf := true }) [yes])) (stat 3) =
      some 0x056 := by decide
/-- V-SES-20 and V-SES-21. -/
theorem test_rearm :
    see (exec (.rearm 3) (withSlot 3 { full (onAir (soft 0x2000 12 0)) with ovf := true })) (stat 3) = some 0x034 ∧
    see (exec (.rearm 3) State.reset) res = some 0x80030215 := by decide
/-- V-GRP-1. -/
theorem test_awaitSet :
    see (exec .awaitSet (args State.reset 64 0 0)) (·.awaiting) = some 64 ∧
    see (exec .awaitSet (args State.reset 65 0 0)) res = some 0x80000112 ∧
    see (exec .awaitSet (args State.reset 65 0 0)) (·.awaiting) = some 0 := by decide

/-- Channels 1 and 2 bound as in the vectors of 41_sync_monitor.md. -/
def pair : State := args ((withSlot 1 (soft 0x100 8 0)).setSlot 2 (soft 0x200 4 0)) 6 0 0

/-- V-GRP-4 and V-GRP-5. -/
theorem test_grpStart :
    see (exec .grpStart (told pair [yes, yes, yes, yes])) (stat 2) = some 0x034 ∧
    see (exec .grpStart (told pair [yes, yes, no, yes, yes])) res = some 0x80020316 ∧
    see (exec .grpStart (told pair [yes, yes, no, yes, yes])) (stat 1) = some 0x004 := by decide
/-- V-GRP-3. -/
theorem test_grpStart_mask :
    see (exec .grpStart (args (nch8 State.reset) 0x100 0 0)) res = some 0x80080111 ∧
    see (exec .grpStart (args (nch8 State.reset) 2 1 0)) res = some 0x80200111 := by decide
/-- P2, line 15. -/
theorem test_grpStop :
    see (exec .grpStop (told (args ((withSlot 1 (full (onAir (soft 0x100 8 0)))).setSlot 2
      (full (onAir (soft 0x200 4 0)))) 6 0 0) [yes, yes, yes, yes])) (stat 1) = some 0x006 := by decide
/-- S2, step 1, with its grant of 20480. -/
theorem test_dmaSetup :
    see (exec (.dmaSetup 5) (told (args State.reset 0x10000 20000 4) [granted 20480])) (ring 5) = some 0x55 ∧
    see (exec (.dmaSetup 5) (told (args State.reset 0x10000 20000 4) [granted 20480])) (ptr 5) = some 0x304 ∧
    see (exec (.dmaSetup 5) (told (args State.reset 0x10000 20000 4) [granted 20480])) (·.ret0) = some 20480 := by
  decide
/-- V-DMA-4, V-DMA-5, V-DMA-6 and V-DMA-7. -/
theorem test_dmaSetup_checks :
    see (exec (.dmaSetup 5) (told (args State.reset 0x10000 20000 4) [no])) res = some 0x80050717 ∧
    see (exec (.dmaSetup 5) (told (args State.reset 0x10000 20000 4) [granted 16384, yes])) res = some 0x8005071B ∧
    see (exec (.dmaSetup 5) (told (args State.reset 0xFFFF0000 20000 4) [granted 20480, yes])) res = some 0x80050813 ∧
    see (exec (.dmaSetup 5) (told (args State.reset 0xFFFEC000 20000 4) [granted 20480])) res = some 0x80050000 := by
  decide
/-- S2, step 3. -/
theorem test_dmaAcquire :
    see (exec (.dmaAcquire 5) (withSlot 5 (filled3 20000))) (ring 5) = some 0x75 ∧
    see (exec (.dmaAcquire 5) (withSlot 5 (filled3 20000))) (ptr 5) = some 0x02030204 ∧
    see (exec (.dmaAcquire 5) (withSlot 5 (filled3 20000))) (·.ret0) = some 0x1A000 ∧
    see (exec (.dmaAcquire 5) (withSlot 5 (filled3 20000))) (·.ret1) = some 0x203 := by decide
/-- V-DMA-9 and V-DMA-14. -/
theorem test_dmaAcquire_pends :
    see (exec (.dmaAcquire 5) (withSlot 5 (ring5 20000))) res = some 0x80050001 ∧
    see (exec (.dmaAcquire 5) (withSlot 5 (ring5 20000))) (stat 5) = some 0x20C ∧
    see (exec (.dmaAcquire 5) (withSlot 5 (held5 20000))) res = some 0x80050A18 := by decide
/-- V-DMA-15 and V-DMA-16. -/
theorem test_dmaRelease :
    see (exec (.dmaRelease 5) (withSlot 5 (held5 20000))) (ring 5) = some 0x55 ∧
    see (exec (.dmaRelease 5) (withSlot 5 (held5 20000))) (ptr 5) = some 0x02030204 ∧
    see (exec (.dmaRelease 5) (withSlot 5 (ring5 20000))) res = some 0x80050B19 := by decide
/-- V-DMA-12 and V-DMA-13. -/
theorem test_dmaCancel :
    see (exec (.dmaCancel 5) (withSlot 5 { ring5 20000 with acqPending := true })) (acq 5) = some 0x11A00 ∧
    see (exec (.dmaCancel 5) (withSlot 5 { ring5 20000 with acqPending := true })) irqs = some 0x08 ∧
    see (exec (.dmaCancel 5) (withSlot 5 (ring5 20000))) irqs = some 0x00 := by decide
/-- V-DMA-21 and V-DMA-22. -/
theorem test_dmaTeardown :
    see (exec (.dmaTeardown 5) (told (withSlot 5 { ring5 20000 with acqPending := true }) [yes])) (acq 5) =
      some 0x11A00 ∧
    see (exec (.dmaTeardown 5) (told (withSlot 5 (held5 20000)) [no])) res = some 0x80050917 ∧
    see (exec (.dmaTeardown 5) (told (withSlot 5 (held5 20000)) [no])) (stat 5) = some 0 := by decide
/-- V-RST-4. -/
theorem test_softReset :
    see (exec .softReset (args (withSlot 5 { ring5 20000 with acqPending := true }) 1 2 3)) res = some 0x80000000 ∧
    see (exec .softReset (args (withSlot 5 { ring5 20000 with acqPending := true }) 1 2 3)) (stat 5) = some 0 := by
  decide

/-- Channel 3 of the packet vectors, one frame awaited. -/
def chan3 (k : Slot) : State := { withSlot 3 k with awaiting := 1 }
def recv (wd : Word) : Slot := onAir (soft 0x2000 12 wd)

/-- V-PKT-1, V-PKT-9 (an excess) and V-PKT-14 (nothing awaited). -/
theorem test_pktStart :
    see (exec (.pktStart 3 1 8 [1, 2, 3, 4, 5, 6, 7, 8]) (chan3 (recv 0))) (stat 3) = some 0x035 ∧
    see (exec (.pktStart 3 1 8 [1, 2, 3, 4, 5, 6, 7, 8]) (chan3 (recv 0))) (byte 0x2007) = some 8 ∧
    see (exec (.pktStart 3 1 16 (List.replicate 16 9)) (chan3 (recv 0))) irqs = some 0x23 ∧
    see (exec (.pktStart 3 1 16 (List.replicate 16 9)) (chan3 (recv 0))) (byte 0x200C) = some 0xFFFFFFFF ∧
    see (exec (.pktStart 3 1 12 (List.replicate 12 9)) (withSlot 3 (recv 0))) irqs = some 0x42 := by decide
/-- V-PKT-5 (the marker is ignored in a frame) and V-WD-3 (the watchdog). -/
theorem test_pktStart_in_frame :
    see (exec (.pktStart 3 1 2 [0xAA, 0xBB]) (chan3 (flying (recv 0) 8 1))) (fun t => (t.slot 3).woff) = some 10 ∧
    see (exec (.pktStart 3 1 2 [0xAA, 0xBB]) (chan3 (flying (recv 0) 8 1))) (byte 0x2009) = some 0xBB ∧
    see (exec (.pktStart 3 1 4 [1, 2, 3, 4]) (chan3 (recv 1))) (stat 3) = some 0x0B4 := by decide
/-- V-PKT-2. -/
theorem test_pktCont :
    see (exec (.pktCont 3 0 4 [0x11, 0x12, 0x13, 0x14]) (chan3 (flying (recv 0) 8 1))) (stat 3) = some 0x036 ∧
    see (exec (.pktCont 3 0 4 [0x11, 0x12, 0x13, 0x14]) (chan3 (flying (recv 0) 8 1))) irqs = some 0x03 ∧
    see (exec (.pktCont 3 0 4 [0x11, 0x12, 0x13, 0x14]) (chan3 (flying (recv 0) 8 1))) (byte 0x200B) = some 0x14 := by
  decide
/-- V-PKT-3, V-PKT-13 and V-WD-6. -/
theorem test_pktCont_idle :
    see (exec (.pktCont 3 0 2 [0xAA, 0xBB]) (chan3 (recv 0))) (fun t => (t.slot 3).wdcnt) = some 1 ∧
    see (exec (.pktCont 9 0 1 [0]) (nch8 State.reset)) irqs = some 0x80 ∧
    see (exec (.pktCont 3 0 1 [0xAA]) (chan3 { recv 0 with wdcnt := 0xFFFFFFFF })) (fun t => (t.slot 3).wdcnt) =
      some 0xFFFFFFFF := by decide
/-- V-DMA-11, its frame cut to four bytes. -/
theorem test_fill :
    see (exec (.fill 5 [1, 2, 3, 4]) (withSlot 5 { ring5 4 with acqPending := true })) (ring 5) = some 0x57 ∧
    see (exec (.fill 5 [1, 2, 3, 4]) (withSlot 5 { ring5 4 with acqPending := true })) (ptr 5) = some 0x10004 ∧
    see (exec (.fill 5 [1, 2, 3, 4]) (withSlot 5 { ring5 4 with acqPending := true })) (acq 5) = some 0x10001 ∧
    see (exec (.fill 5 [1, 2, 3, 4]) (withSlot 5 (ring5 4))) (byte 0x10003) = some 4 := by decide
/-- V-DMA-17, the fifth fill: the ring is full. -/
theorem test_fill_overrun :
    see (exec (.fill 5 [1, 2, 3, 4]) (withSlot 5 (filled3 4).markFilled)) (stat 5) = some 0x40C ∧
    see (exec (.fill 5 [1, 2, 3, 4]) (withSlot 5 (filled3 4).markFilled)) (ring 5) = some 0xAA := by decide
/-- V-REG-2, V-REG-7 and V-REG-8. -/
theorem test_regWr :
    see (exec (.regWr 0x000C 0xDEADBEEF) State.reset) (·.arg1) = some 0xDEADBEEF ∧
    see (exec (.regWr 0x0030 0xFFFFFF01) State.reset) (fun t => readReg t 0x0030) = some 1 ∧
    see (exec (.regWr 0x002C 1) { State.reset with irqStatus := 0x23 }) irqs = some 0x22 := by decide
/-- V-REG-1: `ID` and `CFG`. -/
theorem test_regRd :
    see (exec (.regRd 0x0000) State.reset) (fun t => t.rdata.getD 0) = some 0x49505246 ∧
    see (exec (.regRd 0x0004) State.reset) (fun t => t.rdata.getD 0) = some 0x01001040 := by decide

/-- The request wires of R104. -/
theorem test_request_wires : encodeRequest (.xpStop 5) = { op := 0b100, ch := 5, a := 0, b := 0 } ∧
    encodeRequest (.dmaListen 5 4 20000) = { op := 0b101, ch := 5, a := 4, b := 20000 } := ⟨rfl, rfl⟩

/-! ### Every statement with hypotheses has a state that meets them -/

theorem witness_step_waits : State.reset.events = [] := by decide
theorem witness_step_runs : ∃ x i rest, (fed State.reset [.input (.command 0)]).events = .input x :: rest ∧
    decodeInput x = .ok i ∧ i.WellFormed := ⟨.command 0, .nop, [], rfl, rfl, rfl⟩
/-- An unlisted opcode on either side of the listed ones, a reserved bit, a channel bit. -/
theorem witness_unlisted :
    (¬ Listed 0x0B000000 ∧ ¬ Listed 0x15000000 ∧ ¬ Listed 0x01000040 ∧ ¬ Listed 0x00000001) ∧
    (fed State.reset [.input (.command 0x0B000000)]).events = .input (.command 0x0B000000) :: [] := by
  unfold Listed
  decide
theorem witness_wellFormed : (Instr.pktStart 0 1 1 [0]).WellFormed := by decide
/-- Both cases of the conclusion: an input that is its own encoding, and a read with a `wdata`. -/
theorem witness_encodeOfDecode : decodeInput (.command 0x01000003) = .ok (.swBind 3) ∧
    decodeInput (.access false 0x0008 7) = .ok (.regRd 0x0008) := ⟨rfl, rfl⟩
theorem witness_cmdWrite : decodeCommand 0x7F000000 = .ok .softReset := rfl
/-- The lowest channel that does not exist, and the highest. -/
theorem witness_badChannel : commandChannel (.swBind 8) = some 8 ∧ (nch8 State.reset).nch ≤ (8 : Chan).toNat ∧
    commandChannel (.dmaTeardown 63) = some 63 ∧ (nch8 State.reset).nch ≤ (63 : Chan).toNat := by decide
/-- The four ways of `SW_BIND`; the buffer that ends at the top of memory fits, one byte more does not. -/
theorem witness_swBind : ((3 : Chan).toNat < State.reset.nch ∧ (63 : Chan).toNat < State.reset.nch) ∧
    ((withSlot 3 (soft 0x2000 12 0)).slot 3).inUse = true ∧
    ((State.reset.slot 3).inUse = false ∧ (args State.reset 0x2000 0 0).arg1 = 0) ∧
    State.reset.params.memBytes < (0xFFFFFFF0 : Word).toNat + (0x11 : Word).toNat ∧
    ¬ State.reset.params.memBytes < (0xFFFFFFF0 : Word).toNat + (0x10 : Word).toNat := by decide
theorem witness_unbind :
    (State.reset.slot 3).inUse = false ∧ ((withSlot 5 (ring5 4)).slot 5).mode = .dma ∧
    (((chan3 (recv 0)).slot 3).receiving = true ∧ ((told (chan3 (recv 0)) [no]).answerTo (.xpStop 3)).ok = false) ∧
    (((chan3 (recv 0)).slot 3).registered = true ∧
      (((told (chan3 (recv 0)) [yes, no]).sent (.xpStop 3)).answerTo (.xpDereg 3)).ok = false) ∧
    (((told (chan3 (recv 0)) [yes, yes]).sent (.xpStop 3)).answerTo (.xpDereg 3)).ok = true := by decide
theorem witness_register : ¬ Startable (State.reset.slot 3) ∧
    Startable ((withSlot 3 (soft 0x2000 12 0)).slot 3) ∧
    ((told State.reset [yes]).answerTo (.xpReg 3)).ok = true ∧
    ((told State.reset [no]).answerTo (.xpReg 3)).ok = false := by decide
theorem witness_deregister : (State.reset.slot 3).registered = false ∧
    (((chan3 (recv 0)).slot 3).registered = true ∧ ((chan3 (recv 0)).slot 3).receiving = true) ∧
    (((withSlot 3 (reg (soft 0x2000 12 0))).slot 3).registered = true ∧
      ((withSlot 3 (reg (soft 0x2000 12 0))).slot 3).receiving = false) := by decide
theorem witness_start : ((State.reset.slot 3).registered = false ∨ (State.reset.slot 3).receiving = true) ∧
    (((withSlot 3 (reg (soft 0x2000 12 0))).slot 3).registered = true ∧
      ((withSlot 3 (reg (soft 0x2000 12 0))).slot 3).receiving = false) := by decide
theorem witness_stop : (State.reset.slot 3).receiving = false ∧
    (((chan3 (flying (recv 0) 8 1)).slot 3).receiving = true ∧
      ((chan3 (flying (recv 0) 8 1)).slot 3).progress = .inProgress) ∧
    (((chan3 (full (recv 0))).slot 3).receiving = true ∧ ((chan3 (full (recv 0))).slot 3).progress ≠ .inProgress) := by
  decide
theorem witness_rearm : (((chan3 (recv 0)).slot 3).inUse = true ∧ ((chan3 (recv 0)).slot 3).mode = .software) ∧
    ((withSlot 5 (ring5 4)).slot 5).mode = .dma := by decide
theorem witness_awaitSet : ¬ State.reset.nch < (args State.reset 64 0 0).arg0.toNat ∧
    State.reset.nch < (args State.reset 65 0 0).arg0.toNat := by decide
/-- The lowest bit above `NCH`, in either half of the mask, and the empty mask. -/
theorem witness_groupOperand :
    (selected (args (nch8 State.reset) 0x100 0 0) 8 = true ∧ (nch8 State.reset).nch ≤ (8 : Chan).toNat ∧
      ∀ d : Nat, d < 8 → selected (args (nch8 State.reset) 0x100 0 0) d = true → d < 8) ∧
    (selected (args (nch8 State.reset) 2 1 0) 32 = true ∧
      ∀ d : Nat, d < 32 → selected (args (nch8 State.reset) 2 1 0) d = true → d < 8) ∧
    (State.reset.arg0 = 0 ∧ State.reset.arg1 = 0) := by decide

theorem goodMask_reset_params (s : State) (h : s.params = Params.default) : GoodMask s := by
  intro i hi _
  simpa [State.nch, Params.nch, h, Params.default] using hi

theorem pair_members : members pair.groupMask = [1, 2] := by decide

theorem pair_startable : ∀ c : Chan, selected pair c.toNat = true → Startable (pair.slot c) := by
  intro c hc
  have h : ∀ i < 64, selected pair i = true → i = 1 ∨ i = 2 := by decide
  rcases h c.toNat c.isLt hc with h | h
  · obtain rfl : c = 1 := BitVec.eq_of_toNat_eq (by simpa using h)
    decide
  · obtain rfl : c = 2 := BitVec.eq_of_toNat_eq (by simpa using h)
    decide

theorem witness_grpStart : ∃ s : State, GoodMask s ∧ ¬ (s.arg0 = 0 ∧ s.arg1 = 0) ∧
    (∀ c : Chan, selected s c.toNat = true → Startable (s.slot c)) ∧
    ∀ a ∈ s.answersTo (startRequests (members s.groupMask)), a.ok = true :=
  ⟨told pair [yes, yes, yes, yes], goodMask_reset_params _ rfl, by decide, pair_startable, by decide⟩
/-- The second member fails to register, or to start; the first is refused its binding. -/
theorem witness_grpStart_rollback :
    (GoodMask pair ∧ members pair.groupMask = [1] ++ 2 :: [] ∧ ∀ d ∈ [(1 : Chan)], Startable (pair.slot d)) ∧
    ((∀ a ∈ (told pair [yes, yes, no]).answersTo (startRequests [1]), a.ok = true) ∧
      (((told pair [yes, yes, no]).sentAll (startRequests [1])).answerTo (.xpReg 2)).ok = false) ∧
    ((∀ a ∈ (told pair [yes, yes, yes, no]).answersTo (startRequests [1]), a.ok = true) ∧
      (((told pair [yes, yes, yes, no]).sentAll (startRequests [1])).answerTo (.xpReg 2)).ok = true ∧
      ((((told pair [yes, yes, yes, no]).sentAll (startRequests [1])).sent (.xpReg 2)).answerTo (.xpStart 2)).ok =
        false) ∧
    (members (pair.setSlot 1 Slot.reset).groupMask = [] ++ 1 :: [2] ∧
      ¬ Startable ((pair.setSlot 1 Slot.reset).slot 1)) :=
  ⟨⟨goodMask_reset_params _ rfl, by decide, by decide⟩, by decide, by decide, by decide⟩
/-- A member on the air: both requests are sent; the first failure is the second answer, or there is none. -/
theorem witness_grpStop : ∃ s u : State, GoodMask s ∧ GoodMask u ∧
    (members s.groupMask).flatMap (fun c => tearRequests (s.slot c) c) = [.xpStop 3, .xpDereg 3] ∧
    [Request.xpStop 3, .xpDereg 3][1]? = some (.xpDereg 3) ∧
    (s.answersTo [.xpStop 3, .xpDereg 3])[1]? = some no ∧ no.ok = false ∧
    (∀ j < 1, ∀ b : Answer, (s.answersTo [.xpStop 3, .xpDereg 3])[j]? = some b → b.ok = true) ∧
    ∀ a ∈ u.answersTo [.xpStop 3, .xpDereg 3], a.ok = true := by
  refine ⟨told (args (chan3 (recv 0)) 8 0 0) [yes, no], told (args (chan3 (recv 0)) 8 0 0) [yes, yes],
    goodMask_reset_params _ rfl, goodMask_reset_params _ rfl, by decide, rfl, rfl, rfl, ?_, by decide⟩
  intro j hj b hb
  obtain rfl : j = 0 := by omega
  cases hb
  rfl
/-- The bounds of `B`, of the granted size and of the region. -/
theorem witness_dmaSetup :
    ((withSlot 5 (ring5 4)).slot 5).inUse = true ∧ (0 : Word).toNat < 1 ∧ 16 < (17 : Word).toNat ∧
    ¬ ((16 : Word).toNat < 1 ∨ 16 < (16 : Word).toNat) ∧
    ((told State.reset [no]).answerTo (.dmaListen 5 4 20000)).ok = false ∧
    ((told State.reset [granted 19999]).answerTo (.dmaListen 5 4 20000)).size.toNat < (20000 : Word).toNat ∧
    ¬ ((told State.reset [granted 20000]).answerTo (.dmaListen 5 4 20000)).size.toNat < (20000 : Word).toNat ∧
    State.reset.params.memBytes < (0xFFFEC001 : Word).toNat + (4 : Word).toNat * (20480 : Word).toNat ∧
    ¬ State.reset.params.memBytes < (0xFFFEC000 : Word).toNat + (4 : Word).toNat * (20480 : Word).toNat := by decide
theorem witness_dmaAcquire_checks :
    (¬ (((chan3 (recv 0)).slot 3).inUse = true ∧ ((chan3 (recv 0)).slot 3).mode = .dma ∧
      ((chan3 (recv 0)).slot 3).acqPending = false)) ∧
    ((held5 4).inUse = true ∧ (held5 4).mode = .dma ∧ (held5 4).acqPending = false ∧ (held5 4).heldValid = true) ∧
    ((ring5 4).heldValid = false ∧ ∀ i < 16, (ring5 4).ringAt i ≠ .filledPending) := by decide
/-- S2 (three of four slots), and the full ring of one slot. -/
theorem witness_dmaAcquire_newest :
    (((filled3 4).inUse = true ∧ (filled3 4).mode = .dma ∧ (filled3 4).acqPending = false ∧
        (filled3 4).heldValid = false ∧ (filled3 4).ringB.toNat = 4) ∧
      0 = ((filled3 4).lastReturned.toNat + 1) % 4 ∧ 2 = (0 + 3 - 1) % 4 ∧
      (∀ j < 3, (filled3 4).ringAt ((0 + j) % 4) = .filledPending) ∧
      (filled3 4).ringAt ((0 + 3) % 4) ≠ .filledPending) ∧
    ∃ k : Slot, k = (Slot.reset.bindRing 0x10000 4 1 20480).markFilled ∧ k.ringB.toNat = 1 ∧
      0 = (k.lastReturned.toNat + 1) % 1 ∧ k.ringAt 0 = .filledPending := by
  refine ⟨by decide, _, rfl, by decide⟩
theorem witness_dmaRelease : ((held5 4).inUse = true ∧ (held5 4).mode = .dma ∧ (held5 4).heldValid = true) ∧
    (ring5 4).heldValid = false ∧ (State.reset.slot 5).inUse = false := by decide
theorem witness_dmaCancel : ({ ring5 4 with acqPending := true } : Slot).acqPending = true ∧
    (ring5 4).acqPending = false ∧ (State.reset.slot 5).inUse = false := by decide
theorem witness_dmaTeardown : ((ring5 4).inUse = true ∧ (ring5 4).mode = .dma) ∧
    ({ ring5 4 with acqPending := true } : Slot).acqPending = true ∧ (recv 0).mode = .software := by decide

theorem ring5_inv (pend : Bool) : RingInv (2 ^ 32) { ring5 4 with acqPending := pend } where
  held h := by cases h
  notHeld _ := by decide +revert
  size := by decide +revert
  present := by decide +revert
  absent := by decide +revert
  pointers := by decide +revert
  region := by decide +revert
  filled := ⟨0, by decide +revert⟩
  heldLast h := by cases h
  pending _ := by decide +revert
  quiet := by decide +revert

theorem witness_fill_stores : (5 : Chan).toNat < State.reset.nch ∧ (ring5 4).inUse = true ∧
    (ring5 4).mode = .dma ∧ (ring5 4).acqPending = false ∧ (1 ≤ (ring5 4).ringB.toNat ∧ (ring5 4).ringB.toNat ≤ 16) ∧
    (ring5 4).ringAt (ring5 4).fillIdx.toNat = .queuedEmpty ∧ [1, 2, 3, 4].length = (ring5 4).expected.toNat ∧
    0x10000 = (ring5 4).ringBase.toNat + (ring5 4).fillIdx.toNat * (ring5 4).slotSize.toNat ∧
    (ring5 4).expected.toNat ≤ (ring5 4).slotSize.toNat ∧
    0x10000 + (ring5 4).expected.toNat ≤ (withSlot 5 (ring5 4)).params.memBytes := by decide
theorem witness_fill_pending : ∃ k : Slot, k = (withSlot 5 { ring5 4 with acqPending := true }).slot 5 ∧
    k.isDma = true ∧ RingInv State.reset.params.memBytes k ∧ k.acqPending = true ∧
    [1, 2, 3, 4].length = k.expected.toNat ∧
    0x10000 = k.ringBase.toNat + k.fillIdx.toNat * k.slotSize.toNat := by
  refine ⟨_, rfl, ?_⟩
  simp only [withSlot, State.slot_setSlot_same]
  exact ⟨by decide, ring5_inv true, by decide⟩
/-- No such channel, no ring, no room. -/
theorem witness_fill_without_room : (nch8 State.reset).nch ≤ (8 : Chan).toNat ∧
    ((7 : Chan).toNat < (nch8 State.reset).nch ∧ ¬ (((nch8 State.reset).slot 7).inUse = true ∧
      ((nch8 State.reset).slot 7).mode = .dma)) ∧
    ((filled3 4).markFilled.inUse = true ∧ (filled3 4).markFilled.mode = .dma ∧
      (filled3 4).markFilled.ringAt (filled3 4).markFilled.fillIdx.toNat ≠ .queuedEmpty) := by decide
theorem witness_isPacket : IsPacket (.pktStart 8 1 0 []) 8 0 [] ∧ IsPacket (.pktCont 7 0 0 []) 7 0 [] :=
  ⟨⟨1, .inl rfl⟩, ⟨0, .inr rfl⟩⟩
/-- The first channel that does not exist, the last one that does. -/
theorem witness_packet_not_delivered : (nch8 State.reset).nch ≤ (8 : Chan).toNat ∧
    (7 : Chan).toNat < (nch8 State.reset).nch ∧
    ¬ (((nch8 State.reset).slot 7).registered = true ∧ ((nch8 State.reset).slot 7).receiving = true) := by decide
theorem witness_complete : (3 : Chan).toNat < State.reset.nch ∧
    ((chan3 (full (recv 0))).slot 3).progress = .complete := by decide
theorem witness_delivered (k : Slot) (h : k.registered = true ∧ k.receiving = true) : Delivered (chan3 k) 3 :=
  ⟨(by decide : (3 : Chan).toNat < State.reset.nch), by simpa [chan3, withSlot, State.slot, State.setSlot] using h⟩
/-- Below, at and without a limit. -/
theorem witness_cont_idle : (Delivered (chan3 (recv 1)) 3 ∧ ((chan3 (recv 1)).slot 3).progress = .idle) ∧
    WatchdogFires (recv 1) ∧ ¬ WatchdogFires (recv 2) ∧ ¬ WatchdogFires (recv 0) :=
  ⟨⟨witness_delivered _ (by decide), by decide⟩, by decide, by decide, by decide⟩
/-- A first packet and a later one, one byte short of the frame. -/
theorem witness_packet_copied :
    (copyOffset (.pktStart 3 1 11 (List.replicate 11 9)) (recv 0) = some 0 ∧ 0 + 11 < (recv 0).expected.toNat ∧
      (recv 0).dest.toNat + (recv 0).expected.toNat ≤ (chan3 (recv 0)).params.memBytes ∧
      ¬ WatchdogFires (recv 0)) ∧
    (copyOffset (.pktCont 3 0 3 [1, 2, 3]) (flying (recv 0) 8 1) = some 8 ∧ 8 + 3 < (recv 0).expected.toNat) := by
  decide
theorem witness_watchdog : copyOffset (.pktStart 3 1 11 (List.replicate 11 9)) (recv 1) = some 0 ∧
    0 + 11 < (recv 1).expected.toNat ∧ WatchdogFires (recv 1) ∧ WatchdogFires (flying (recv 2) 4 1) := by decide
/-- Exactly the frame, and one byte more; the watchdog at its limit makes no difference. -/
theorem witness_packet_completes : copyOffset (.pktStart 3 1 12 (List.replicate 12 9)) (recv 1) = some 0 ∧
    (recv 1).expected.toNat ≤ 0 + 12 ∧ 12 = (recv 1).expected.toNat - 0 ∧ 12 < (13 : Word).toNat ∧
    (chan3 (recv 1)).awaiting = 1 ∧ (withSlot 3 (recv 1)).awaiting = 0 := by decide
theorem witness_headerBit : [7].length = (1 : Word).toNat := by decide
theorem witness_registerWrite : (0x002C : BitVec 16) ≠ 0x0014 ∧ (0x0013 : BitVec 16) ≠ 0x0014 := by decide
theorem witness_registerMap : (0 : Chan).toNat < State.reset.nch ∧ (63 : Chan).toNat < State.reset.nch ∧
    ∀ off, (fun off => BitVec.ofNat 16 (0x1000 + 0x40 * (63 : Chan).toNat + off)) off =
      BitVec.ofNat 16 (0x1000 + 0x40 * (63 : Chan).toNat + off) := ⟨by decide, by decide, fun _ => rfl⟩
/-- Each range of addresses at its ends. -/
theorem witness_reserved :
    (∀ a ∈ [0x0009, 0xFFFF], a % 4 ≠ 0) ∧
    (∀ a ∈ [0x0034, 0x0FFC], 0x0034 ≤ a ∧ a < 0x1000) ∧
    (∀ a ∈ [0x1200, 0xFFFC], 0x1000 + 0x40 * (nch8 State.reset).nch ≤ a) ∧
    (∀ a ∈ [0x101C, 0x1034, 0x103C], 0x1000 ≤ a ∧ (a % 0x40 = 0x1C ∨ 0x34 ≤ a % 0x40)) := by decide
theorem witness_hostMemory : ∃ (s : State) (addr : Nat) (v : List Byte) (rest : List Event),
    s.events = .hostMemWrite addr v :: .hostMemRead addr v.length :: rest ∧ addr + v.length ≤ s.params.memBytes :=
  ⟨fed State.reset [.hostMemWrite 0xFFFFFFFE [1, 2], .hostMemRead 0xFFFFFFFE 2], 0xFFFFFFFE, [1, 2], [], rfl,
    by decide⟩

theorem reset_memBytes : State.reset.params.memBytes = 2 ^ 32 := by decide

theorem reset_slotInv (m : Nat) : SlotInv m Slot.reset where
  offset := Nat.zero_le _
  complete h := by cases h
  inProgress h := by cases h
  idle _ := rfl
  registered h := by cases h
  receiving h := by cases h
  free _ := .inl rfl
  software h := by cases h
  running h := by cases h

theorem reset_channelsInv : ChannelsInv State.reset where
  slot d _ := by simpa only [State.reset_slot] using reset_slotInv _
  noSlot d _ := State.reset_slot d
  awaiting := Nat.zero_le _

/-- A slot of an existing channel may be replaced by any that meets the invariants of R48. -/
theorem channelsInv_setSlot {s : State} (hs : ChannelsInv s) (c : Chan) (hc : c.toNat < s.nch) (k : Slot)
    (h : SlotInv s.params.memBytes k) : ChannelsInv (s.setSlot c k) where
  slot d hd := by
    by_cases e : d = c
    · subst e
      simpa only [State.slot_setSlot_same, State.setSlot_params] using h
    · simpa only [State.slot_setSlot_ne _ _ _ _ e, State.setSlot_params] using hs.slot d hd
  noSlot d hd := by
    have e : d ≠ c := fun e => absurd hc (by subst e; exact Nat.not_lt.2 hd)
    simpa only [State.slot_setSlot_ne _ _ _ _ e] using hs.noSlot d hd
  awaiting := hs.awaiting

theorem channelsInv_withSlot (c : Chan) (k : Slot) (h : SlotInv (2 ^ 32) k) : ChannelsInv (withSlot c k) :=
  channelsInv_setSlot reset_channelsInv c c.isLt k (by simpa only [reset_memBytes] using h)

theorem soft_ringFields (dest size wd : Word) : RingFieldsZero (soft dest size wd) where
  ringBase := rfl
  slotSize := rfl
  ringB := rfl
  lastReturned := rfl
  fillIdx := rfl
  heldIdx := rfl
  ring i := by
    by_cases hi : i < 16
    · have : ∀ j < 16, Slot.reset.ringAt j = .absent := by decide
      exact this i hi
    · simp [Slot.ringAt, hi]
  heldValid := rfl
  acqPending := rfl
  lastN := rfl
  acqCode := rfl
  acqDone := rfl

theorem soft_slotInv (dest size wd : Word) (h : 1 ≤ size.toNat ∧ dest.toNat + size.toNat ≤ 2 ^ 32) :
    SlotInv (2 ^ 32) (soft dest size wd) where
  offset := Nat.zero_le _
  complete h := by cases h
  inProgress h := by cases h
  idle _ := rfl
  registered h := by cases h
  receiving h := by cases h
  free h := by cases h
  software _ _ := ⟨h.1, h.2, soft_ringFields dest size wd⟩
  running h := by cases h

theorem recv_slotInv : SlotInv (2 ^ 32) (recv 0) where
  offset := by decide
  complete h := by cases h
  inProgress h := by cases h
  idle _ := rfl
  registered _ := by decide
  receiving _ := rfl
  free h := by cases h
  software _ _ :=
    have r := soft_ringFields 0x2000 12 0
    ⟨by decide, by decide, r.1, r.2, r.3, r.4, r.5, r.6, r.7, r.8, r.9, r.10, r.11, r.12⟩
  running h := by cases h

theorem ring_slotInv (k : Slot) (h : k.woff = 0 ∧ k.progress = .idle ∧ k.registered = false ∧ k.receiving = false ∧
    k.inUse = true ∧ k.mode = .dma) : SlotInv (2 ^ 32) k where
  offset := by simp [h.1]
  complete e := by simp [h.2.1] at e
  inProgress e := by simp [h.2.1] at e
  idle _ := h.1
  registered e := by simp [h.2.2.1] at e
  receiving e := by simp [h.2.2.2.1] at e
  free e := by simp [h.2.2.2.2.1] at e
  software _ e := by simp [h.2.2.2.2.2] at e
  running e := by simp [h.2.1] at e

theorem held5_inv : RingInv (2 ^ 32) (held5 4) where
  held _ := by decide
  notHeld h := by exact absurd h (by decide)
  size := by decide
  present := by decide
  absent := by decide
  pointers := by decide
  region := by decide
  filled := ⟨0, by decide⟩
  heldLast _ := by decide
  pending h := by exact absurd h (by decide)
  quiet := by decide

/-- A state with one ring meets the invariants of R49 if its slot does. -/
theorem ringsInv_withSlot (c : Chan) (k : Slot) (h : RingInv (2 ^ 32) k) : RingsInv (withSlot c k) := by
  intro d hd
  by_cases hc : d = c
  · subst hc
    simpa only [withSlot, State.slot_setSlot_same, State.setSlot_params, reset_memBytes] using h
  · simp [withSlot, hc, Slot.isDma, Slot.reset] at hd

/-- The events that a step of the invariants' witnesses takes. -/
def oneFill : List Event := [.input (.fill 5 [1, 2, 3, 4])]
def oneAcquire : List Event := [.input (.command 0x11000005)]

theorem next_of_isSome {o : StepOutcome} (h : see o (fun _ => 0) = some 0) : ∃ t, o = .next t := by
  cases o with
  | next t => exact ⟨t, rfl⟩
  | fault r => cases h
  | refused r => cases h

/-- A packet arrives in a state of the invariants of R48. -/
theorem witness_channelInv : ∃ s t : State, ChannelsInv s ∧ step s = .next t := by
  have h := channelsInv_withSlot 3 (recv 0) recv_slotInv
  obtain ⟨t, ht⟩ := next_of_isSome (o := step (fed (withSlot 3 (recv 0)) [.input (.packet 3 1 2 [1, 2])])) (by decide)
  exact ⟨fed (withSlot 3 (recv 0)) [.input (.packet 3 1 2 [1, 2])], t, ⟨h.slot, h.noSlot, h.awaiting⟩, ht⟩
/-- A fill arrives while a slot is held. -/
theorem witness_ringInv : ∃ s t : State, ChannelsInv s ∧ RingsInv s ∧ step s = .next t ∧ (s.slot 5).isDma = true ∧
    (s.slot 5).heldValid = true ∧
    (∀ d a, d ≠ (5 : Chan) → (s.slot d).inUse = true → inRegion (s.slot 5) a → ¬ inRegion (s.slot d) a) ∧
    ∀ addr v rest, s.events ≠ .hostMemWrite addr v :: rest := by
  have h := channelsInv_withSlot 5 (held5 4) (ring_slotInv _ (by decide))
  have h' := ringsInv_withSlot 5 (held5 4) held5_inv
  obtain ⟨t, ht⟩ := next_of_isSome (o := step (fed (withSlot 5 (held5 4)) oneFill)) (by decide)
  refine ⟨fed (withSlot 5 (held5 4)) oneFill, t, ⟨h.slot, h.noSlot, h.awaiting⟩, h', ht, by decide, by decide, ?_, ?_⟩
  · intro d a hd hu
    have same : (fed (withSlot 5 (held5 4)) oneFill).slot d = Slot.reset :=
      (State.slot_setSlot_ne State.reset 5 d (held5 4) hd).trans (State.reset_slot d)
    exact absurd (hu.symm.trans (congrArg Slot.inUse same)) (by decide)
  · intro addr v rest h
    simp [fed, oneFill] at h
theorem witness_memoryInv : ∃ s t : State, MemoryInv s ∧ step s = .next t := by
  obtain ⟨t, ht⟩ := next_of_isSome (o := step (fed (chan3 (recv 0)) [.input (.packet 3 1 2 [1, 2])])) (by decide)
  exact ⟨_, t, ⟨List.Pairwise.nil, by simp [fed, chan3, withSlot, State.reset]⟩, ht⟩
theorem witness_isolation : ∃ (s t : State) (i : Instr) (c : Chan) (len : Word) (p : List Byte),
    IsPacket i c len p ∧ exec i s = .next t := by
  obtain ⟨t, ht⟩ := next_of_isSome (o := exec (.pktStart 3 1 2 [1, 2]) (chan3 (recv 0))) (by decide)
  exact ⟨_, t, _, 3, 2, [1, 2], ⟨1, .inl rfl⟩, ht⟩
/-- A fill that stores, and one that finds no room. -/
theorem witness_fillFootprint : (∃ (s t : State), (s.slot 5).expected.toNat ≤ (s.slot 5).slotSize.toNat ∧
      exec (.fill 5 [1, 2, 3, 4]) s = .next t) ∧
    (filled3 4).markFilled.ringAt (filled3 4).markFilled.fillIdx.toNat ≠ .queuedEmpty := by
  obtain ⟨t, ht⟩ := next_of_isSome (o := exec (.fill 5 [1, 2, 3, 4]) (withSlot 5 (ring5 4))) (by decide)
  exact ⟨⟨_, t, by decide, ht⟩, by decide⟩
/-- A group start that starts its first member, fails at the second and rolls the first back. -/
theorem witness_allOrNothing : ∃ s t : State, ChannelsInv s ∧ exec .grpStart s = .next t ∧ t.result.code ≠ .ok ∧
    Request.xpStop 1 ∈ t.requests := by
  have h := channelsInv_setSlot (channelsInv_withSlot 1 _ (soft_slotInv 0x100 8 0 (by decide))) 2 (by decide) _
    (soft_slotInv 0x200 4 0 (by decide))
  exact ⟨told pair [yes, yes, no], _, ⟨h.slot, h.noSlot, h.awaiting⟩, rfl, by decide, by decide⟩
/-- A frame of 12 bytes in two packets, from a watchdog limit they just keep. -/
theorem witness_exactFrame : ∃ (s : State) (ps : List (Word × List Byte)),
    Delivered s 3 ∧ (s.slot 3).progress = .idle ∧
    (s.slot 3).dest.toNat + (s.slot 3).expected.toNat ≤ s.params.memBytes ∧
    ps = (1, List.replicate 8 1) :: [(0, List.replicate 4 2)] ∧ (1 : Word).getLsbD 0 = true ∧
    s.events = packetEvents 3 ps ++ [] ∧
    (joinPayloads ps).length = (s.slot 3).expected.toNat ∧
    (joinPayloads ps.dropLast).length < (s.slot 3).expected.toNat ∧
    (s.slot 3).wdcnt.toNat + ps.length ≤ (s.slot 3).wdlim.toNat := by
  refine ⟨fed (chan3 (recv 2)) (packetEvents 3 [(1, List.replicate 8 1), (0, List.replicate 4 2)]), _,
    witness_delivered (recv 2) (by decide), by decide, by decide, rfl, by decide, ?_, by decide⟩
  simp [fed]
/-- Each kind of event, the memory accesses at the top of memory. -/
theorem witness_presentable : Presentable State.reset (.hostMemRead 0xFFFFFFFF 1) ∧
    Presentable State.reset (.hostMemWrite 0xFFFFFFFF [1]) ∧ Presentable State.reset (.input (.packet 3 1 1 [7])) ∧
    Presentable (withSlot 5 (ring5 4)) (.input (.fill 5 [1, 2, 3, 4])) ∧
    (∀ w, Presentable State.reset (.input (.command w))) ∧
    ∃ s : State, ChannelsInv s ∧ RingsInv s ∧ s.events = oneFill := by
  have h := channelsInv_withSlot 5 (held5 4) (ring_slotInv _ (by decide))
  have h' := ringsInv_withSlot 5 (held5 4) held5_inv
  refine ⟨?_, ?_, rfl, ?_, fun _ => trivial, ⟨fed (withSlot 5 (held5 4)) oneFill,
    ⟨h.slot, h.noSlot, h.awaiting⟩, h', rfl⟩⟩
  · simp [Presentable, State.reset, Params.default, Params.memBytes]
  · simp [Presentable, State.reset, Params.default, Params.memBytes]
  · simp [Presentable, withSlot, ring5, Slot.bindRing]
theorem witness_onlyCommands : ∃ (s t : State) (e : Event) (rest : List Event), s.events = e :: rest ∧
    (∀ w, e ≠ .input (.command w)) ∧ (∀ w, e ≠ .input (.access true 0x0014 w)) ∧ step s = .next t := by
  obtain ⟨t, ht⟩ := next_of_isSome (o := step (fed (withSlot 5 (ring5 4)) oneFill)) (by decide)
  exact ⟨_, t, .input (.fill 5 [1, 2, 3, 4]), [], rfl, fun w h => (by cases h), fun w h => (by cases h), ht⟩
theorem witness_params : ∃ s t : State, step s = .next t := by
  obtain ⟨t, ht⟩ := next_of_isSome (o := step (fed (withSlot 5 (ring5 4)) oneAcquire)) (by decide)
  exact ⟨_, t, ht⟩
theorem witness_newest : ∃ k : Slot, k = (withSlot 5 (ring5 4)).slot 5 ∧ k.isDma = true ∧
    RingInv State.reset.params.memBytes k ∧ k.acqPending = false ∧ k.heldValid = false ∧
    k.ringAt k.fillIdx.toNat = .queuedEmpty ∧ [1, 2, 3, 4].length = k.expected.toNat := by
  refine ⟨_, rfl, ?_⟩
  simp only [withSlot, State.slot_setSlot_same]
  exact ⟨by decide, ring5_inv false, by decide⟩

end Sys2Proof.Tests
end

