-- ==== Sys2Proof/Proofs/StepEquations.lean ====
section
/-! SUPPORT. What `step` runs for each kind of first waiting event (R9), and what the decoder answers for packets and
fills of the right length (R100 to R102). -/

namespace Sys2Proof.Machine

/-! ### One equation of `step` per kind of event -/

theorem step_of_no_event {s : State} (h : s.events = []) : step s = .next s := by
  unfold step; rw [h]

theorem step_of_hostMemRead {s : State} {addr n : Nat} {rest : List Event}
    (h : s.events = .hostMemRead addr n :: rest) : step s = hostMemRead addr n { s with events := rest } := by
  unfold step; rw [h]

theorem step_of_hostMemWrite {s : State} {addr : Nat} {v : List Byte} {rest : List Event}
    (h : s.events = .hostMemWrite addr v :: rest) : step s = hostMemWrite addr v { s with events := rest } := by
  unfold step; rw [h]

theorem step_of_decoded {s : State} {x : Input} {i : Instr} {rest : List Event}
    (h : s.events = .input x :: rest) (hx : decodeInput x = .ok i) : step s = exec i { s with events := rest } := by
  unfold step; rw [h]; dsimp only; rw [hx]

theorem step_of_rejected {s : State} {x : Input} {e : DecodeError} {rest : List Event}
    (h : s.events = .input x :: rest) (hx : decodeInput x = .error e) :
    step s = rejectInput e { s with events := rest } := by
  unfold step; rw [h]; dsimp only; rw [hx]

/-! ### Inputs of formats P and F -/

/-- A packet with exactly `len` payload bytes decodes to one of the two packet instructions (R100, R101). -/
theorem decodePacket_ok (c : Chan) (hdr : Word) {len : Word} {p : List Byte} (hl : p.length = len.toNat) :
    ∃ i, decodePacket c hdr len p = .ok i ∧ IsPacket i c len p := by
  unfold decodePacket
  rw [if_neg (not_not.2 hl)]
  split
  · exact ⟨_, rfl, hdr, .inl rfl⟩
  · exact ⟨_, rfl, hdr, .inr rfl⟩

/-- A fill no longer than a 32-bit frame size decodes to itself (R102). -/
theorem decodeFill_ok (c : Chan) {f : List Byte} (hf : f.length < 2 ^ 32) : decodeFill c f = .ok (.fill c f) :=
  if_neg (Nat.not_le.2 hf)

end Sys2Proof.Machine
end

