-- ==== Sys2Proof/Proofs/Completion.lean ====
section
/-! SUPPORT. Each kind of event that the spec describes ends in a next state (R19). A packet and a fill need the
invariants here: R48 and R49 keep every byte they store inside frame memory (R78). -/

namespace Sys2Proof.Machine

/-! ### Commands, register accesses and the host's path to memory -/

/-- A command word the decoder refuses is `E_BADOP`, not a refusal of the model (R91, R95). -/
theorem rejectInput_of_command {w : Word} {e : DecodeError} (h : decodeCommand w = .error e) (s : State) :
    rejectInput e s = badOp s := by
  rcases decodeCommand_error h with rfl | rfl | rfl <;> rfl

theorem execRegWr_completes (addr : BitVec 16) (w : Word) (s : State) : ∃ t, execRegWr addr w s = .next t := by
  unfold execRegWr
  split
  case h_4 =>
    obtain ⟨t, ht, -⟩ := execCommandWord_effect w s
    exact ⟨t, ht⟩
  all_goals exact ⟨_, rfl⟩

theorem hostMemRead_inside {addr n : Nat} {s : State} (h : addr + n ≤ s.params.memBytes) :
    hostMemRead addr n s = .next { s with memData := some (s.readBytes addr n) } := if_pos (.inr h)

/-! ### Packets -/

theorem deliver_of_not {s : State} {c : Chan} (h : ¬ Delivered s c) (body : State → StepOutcome) :
    deliver c s body = .next (if s.nch ≤ c.toNat then s.irqSet .badCh else s) := by
  unfold deliver
  split
  · rfl
  · rename_i hc
    have hr : ¬ ((s.slot c).registered && (s.slot c).receiving) = true := fun hr =>
      h ⟨Nat.lt_of_not_le hc, (Bool.and_eq_true_iff.1 hr).1, (Bool.and_eq_true_iff.1 hr).2⟩
    rw [if_neg hr]

/-- A packet that is not delivered changes at most `IRQ_STATUS` (R121). -/
theorem exec_packet_undelivered {s : State} {i : Instr} {c : Chan} {len : Word} {p : List Byte}
    (hi : IsPacket i c len p) (hd : ¬ Delivered s c) :
    exec i s = .next (if s.nch ≤ c.toNat then s.irqSet .badCh else s) := by
  obtain ⟨hdr, rfl | rfl⟩ := hi
  · change execPktStart c hdr len p s = _
    exact deliver_of_not hd _
  · change execPktCont c hdr len p s = _
    exact deliver_of_not hd _

/-- The buffer of a channel that takes packets lies in frame memory (R48 (v), (vii)). -/
theorem ChannelsInv.buffer_inside {s : State} {c : Chan} (h : ChannelsInv s) (hd : Delivered s c) :
    (s.slot c).dest.toNat + (s.slot c).expected.toNat ≤ s.params.memBytes := by
  obtain ⟨hc, hreg, -⟩ := hd
  have hk := h.slot c hc
  obtain ⟨huse, hmode⟩ := hk.registered hreg
  exact (hk.software huse hmode).2.1

/-- A copy starts inside the frame (R48 (i)). -/
theorem SlotInv.copyOffset_le {M off : Nat} {k : Slot} {i : Instr} (h : SlotInv M k)
    (ho : copyOffset i k = some off) : off ≤ k.expected.toNat := by
  have := h.offset
  unfold copyOffset at ho
  split at ho
  · split at ho <;> cases ho <;> omega
  · split at ho <;> cases ho; omega
  · cases ho

/-- A delivered packet with no place in a frame is dropped, or counted by the watchdog alone (R124 (a), R128). -/
theorem exec_packet_uncopied {s : State} {i : Instr} {c : Chan} {len : Word} {p : List Byte}
    (hi : IsPacket i c len p) (hd : Delivered s c) (ho : copyOffset i (s.slot c) = none) :
    exec i s = .next s ∨ exec i s = .next (watchdog c false s) := by
  obtain ⟨hdr, rfl | rfl⟩ := hi
  · change execPktStart c hdr len p s = _ ∨ execPktStart c hdr len p s = _
    unfold execPktStart
    rw [deliver_of hd]
    cases hp : (s.slot c).progress <;> simp only [copyOffset, hp] at ho <;> cases ho
    exact .inl rfl
  · change execPktCont c hdr len p s = _ ∨ execPktCont c hdr len p s = _
    unfold execPktCont
    rw [deliver_of hd]
    cases hp : (s.slot c).progress <;> simp only [copyOffset, hp] at ho <;> cases ho
    · exact .inr rfl
    · exact .inl rfl

/-- A packet of exactly `len` bytes ends in a next state: it is not delivered, has no place in a frame, or is copied
into a buffer that lies in frame memory. -/
theorem exec_packet_completes {s : State} {i : Instr} {c : Chan} {len : Word} {p : List Byte} (h : ChannelsInv s)
    (hi : IsPacket i c len p) (hl : p.length = len.toNat) : ∃ t, exec i s = .next t := by
  by_cases hd : Delivered s c
  · cases ho : copyOffset i (s.slot c) with
    | none => exact (exec_packet_uncopied hi hd ho).elim (⟨_, ·⟩) (⟨_, ·⟩)
    | some off =>
      obtain ⟨t, ht, -⟩ := takePayload_inside s c off len p _ rfl hl (h.buffer_inside hd)
        ((h.slot c hd.1).copyOffset_le ho) _ rfl
      exact ⟨t, (exec_packet_copied hi hd ho).trans ht⟩
  · exact ⟨_, exec_packet_undelivered hi hd⟩

/-! ### Fills -/

/-- The frame at the head of the ring lies in frame memory (R49 (ii), (iii)). -/
theorem RingInv.frame_inside {M : Nat} {k : Slot} (h : RingInv M k) :
    k.ringBase.toNat + k.fillIdx.toNat * k.slotSize.toNat + k.expected.toNat ≤ M := by
  obtain ⟨-, hfit, hregion⟩ := h.region
  have hidx : (k.fillIdx.toNat + 1) * k.slotSize.toNat ≤ k.ringB.toNat * k.slotSize.toNat :=
    Nat.mul_le_mul_right _ h.pointers.2.1
  rw [Nat.succ_mul] at hidx
  omega

/-- A fill of exactly `expected` bytes ends in a next state: it is of no channel, of no ring or of no room, or it is
stored in a ring slot that lies in frame memory. -/
theorem execFill_completes {s : State} {c : Chan} {f : List Byte} (h : RingsInv s)
    (hf : f.length = (s.slot c).expected.toNat) : ∃ t, execFill c f s = .next t := by
  by_cases hstored : c.toNat < s.nch ∧ (s.slot c).isDma = true ∧
      (s.slot c).ringAt (s.slot c).fillIdx.toNat = .queuedEmpty
  · obtain ⟨hc, hd, hq⟩ := hstored
    have hring := h c hd
    obtain ⟨u, hu, -⟩ := storeFrame_inside rfl hf hring.region.2.1 hring.frame_inside
    exact ⟨afterFill c u, by rw [execFill_stores hc hd hq hf, hu, andThen_next]⟩
  · unfold execFill
    split
    · exact ⟨_, rfl⟩
    · rename_i hc
      dsimp only
      split
      · exact ⟨_, rfl⟩
      · rename_i hd
        split
        · exact ⟨_, rfl⟩
        · rename_i hq
          exact absurd ⟨Nat.lt_of_not_le hc, by simpa using hd, not_not.1 hq⟩ hstored

/-! ### Inputs -/

/-- A step on an input that the spec describes ends in a next state. -/
theorem step_input_completes {s : State} {x : Input} {rest : List Event} (hch : ChannelsInv s) (hrings : RingsInv s)
    (he : s.events = .input x :: rest) (hp : Presentable s (.input x)) : ∃ t, step s = .next t := by
  cases x with
  | command w =>
    cases hw : decodeCommand w with
    | ok i =>
      obtain ⟨t, ht, -⟩ := exec_decoded_command hw { s with events := rest }
      exact ⟨t, (step_of_decoded he hw).trans ht⟩
    | error e => exact ⟨_, (step_of_rejected he hw).trans (rejectInput_of_command hw _)⟩
  | packet c hdr len p =>
    obtain ⟨i, hdec, hi⟩ := decodePacket_ok c hdr hp
    have htaken : ChannelsInv { s with events := rest } := ⟨hch.slot, hch.noSlot, hch.awaiting⟩
    obtain ⟨t, ht⟩ := exec_packet_completes htaken hi hp
    exact ⟨t, (step_of_decoded he hdec).trans ht⟩
  | fill c f =>
    have hlen : f.length = (s.slot c).expected.toNat := hp
    have hshort : f.length < 2 ^ 32 := hlen ▸ (s.slot c).expected.isLt
    obtain ⟨t, ht⟩ := execFill_completes (s := { s with events := rest }) hrings hlen
    exact ⟨t, (step_of_decoded he (decodeFill_ok c hshort)).trans ht⟩
  | access we addr w =>
    cases we with
    | false => exact ⟨_, step_of_decoded he rfl⟩
    | true =>
      obtain ⟨t, ht⟩ := execRegWr_completes addr w { s with events := rest }
      exact ⟨t, (step_of_decoded he rfl).trans ht⟩

end Sys2Proof.Machine
end

