-- ==== Sys2Proof/Proofs/Scope.lean ====
section
/-! The statements of spec/00_scope.md. -/

namespace Sys2Proof.Machine

/-- Settles O2, from the equations of `step` for no event and for an input that decodes. -/
theorem stepRunsDecodedInstruction : Obligations.StepRunsDecodedInstruction := by
  unfold Obligations.StepRunsDecodedInstruction
  exact fun s => ⟨step_of_no_event, fun _ _ _ he hx _ => step_of_decoded he hx⟩

/-- Settles O56, by the kind of the first waiting event. -/
theorem everyPresentableEventCompletes : Obligations.EveryPresentableEventCompletes := by
  unfold Obligations.EveryPresentableEventCompletes
  intro s hch hrings hp
  cases he : s.events with
  | nil => exact ⟨s, step_of_no_event he⟩
  | cons e rest =>
    have hpe : Presentable s e := hp e (by rw [he]; rfl)
    cases e with
    | input x => exact step_input_completes hch hrings he hpe
    | hostMemRead addr n => exact ⟨_, (step_of_hostMemRead he).trans (hostMemRead_inside hpe)⟩
    | hostMemWrite addr v =>
      obtain ⟨t, ht, -⟩ := memWrite_inside { s with events := rest } addr v hpe
      exact ⟨t, (step_of_hostMemWrite he).trans ht⟩

end Sys2Proof.Machine
end

