-- ==== Sys2Proof/Proofs/SlotInvariant.lean ====
section
/-! SUPPORT. The invariants of a channel slot (R48) and of a ring (R49) under every move of a slot. A move changes the
frame fields of a software session, or the ring fields of a ring, or frees or binds the slot: one lemma for each. -/

namespace Sys2Proof.Machine

/-! ### Free slots -/

/-- No slot of a ring exists in a free slot (R43, R50). -/
theorem Slot.ringAt_reset (i : Nat) : Slot.reset.ringAt i = .absent := by
  simp [Slot.ringAt, Slot.reset]

/-- A free slot, with or without the record of a cancelled acquire, meets R48 (vi). -/
theorem SlotInv.of_free {M : Nat} {k : Slot}
    (h : k = Slot.reset ∨ k = { Slot.reset with acqDone := true, acqCode := .eCancelled }) : SlotInv M k := by
  have hfields : k.woff = 0 ∧ k.progress = .idle ∧ k.registered = false ∧ k.receiving = false ∧ k.inUse = false := by
    rcases h with rfl | rfl <;> exact ⟨rfl, rfl, rfl, rfl, rfl⟩
  obtain ⟨hw, hp, hreg, hrec, huse⟩ := hfields
  constructor <;> simp [hw, hp, hreg, hrec, huse, h]

/-- Nothing is registered, received or in flight in a slot that holds no software session (R48 (v), (ix)). -/
theorem SlotInv.quiet_of_not_software {M : Nat} {k : Slot} (h : SlotInv M k) (hs : ¬ k.isSoftware = true) :
    k.registered = false ∧ k.receiving = false ∧ k.progress ≠ .inProgress := by
  have hreg : ¬ k.registered = true := fun hr => hs ((Slot.isSoftware_iff k).2 (h.registered hr))
  exact ⟨by simpa using hreg, by simpa using mt h.receiving hreg, fun hp => hreg (h.running hp).1⟩

/-! ### Software sessions -/

/-- The clauses of R48 that speak of the frame in flight: (i) to (iv), (ix) and the second half of (v). -/
structure FrameInv (k : Slot) : Prop where
  offset : k.woff.toNat ≤ k.expected.toNat
  complete : k.progress = .complete → k.caplen = k.expected ∧ k.woff = 0
  inProgress : k.progress = .inProgress → k.woff.toNat < k.expected.toNat
  idle : k.progress = .idle → k.woff = 0
  receiving : k.receiving = true → k.registered = true
  running : k.progress = .inProgress → k.registered = true ∧ k.receiving = true

theorem SlotInv.frameInv {M : Nat} {k : Slot} (h : SlotInv M k) : FrameInv k :=
  ⟨h.offset, h.complete, h.inProgress, h.idle, h.receiving, h.running⟩

/-- `l` differs from `k` in the frame fields at most: the same buffer is bound. -/
def SameBuffer (k l : Slot) : Prop :=
  l = { k with
    progress := l.progress, woff := l.woff, caplen := l.caplen, wdcnt := l.wdcnt, ovf := l.ovf,
    desync := l.desync, registered := l.registered, receiving := l.receiving }

/-- What changes only the frame fields of a software session keeps R48 if it keeps the clauses of the frame. -/
theorem SlotInv.of_sameBuffer {M : Nat} {k l : Slot} (h : SlotInv M k) (hs : k.isSoftware = true)
    (hl : SameBuffer k l) (hf : FrameInv l) : SlotInv M l := by
  obtain ⟨huse, hmode⟩ := (Slot.isSoftware_iff k).1 hs
  obtain ⟨hexp, hbuf, hring⟩ := h.software huse hmode
  have hluse : l.inUse = true := by rw [hl]; exact huse
  have hlmode : l.mode = .software := by rw [hl]; exact hmode
  refine ⟨hf.offset, hf.complete, hf.inProgress, hf.idle, fun _ => ⟨hluse, hlmode⟩, hf.receiving,
    fun hfree => absurd (hluse.symm.trans hfree) nofun, fun _ _ => ?_, hf.running⟩
  rw [hl]
  exact ⟨hexp, hbuf, hring.ringBase, hring.slotSize, hring.ringB, hring.lastReturned, hring.fillIdx, hring.heldIdx,
    hring.ring, hring.heldValid, hring.acqPending, hring.lastN, hring.acqCode, hring.acqDone⟩

theorem SameBuffer.isDma_eq {k l : Slot} (h : SameBuffer k l) : l.isDma = k.isDma := by
  rw [h]; rfl

theorem Slot.stop_sameBuffer (k : Slot) : SameBuffer k (Slot.abandon { k with receiving := false }) := by
  unfold Slot.abandon
  split <;> rfl

theorem Slot.tornTransport_sameBuffer (k : Slot) : SameBuffer k k.tornTransport := by
  unfold Slot.tornTransport
  split
  · unfold Slot.abandon
    split <;> rfl
  · rfl

/-- A frame that is not in flight is left alone by `abandon` (R213). -/
theorem Slot.abandon_of_not_inProgress {k : Slot} (h : k.progress ≠ .inProgress) : k.abandon = k := by
  unfold Slot.abandon
  split
  · exact absurd ‹_› h
  · rfl
  · rfl

/-- A slot that does not receive and has no frame in flight is as a stop leaves it. -/
theorem Slot.stop_of_quiet {k : Slot} (hv : k.receiving = false) (hp : k.progress ≠ .inProgress) :
    Slot.abandon { k with receiving := false } = k := by
  rw [Slot.abandon_of_not_inProgress (k := { k with receiving := false }) hp, ← hv]

/-- A slot that is neither registered nor receiving is as a tear-down leaves it. -/
theorem Slot.tornTransport_of_quiet {k : Slot} (hr : k.registered = false) (hv : k.receiving = false) :
    k.tornTransport = k := by
  unfold Slot.tornTransport
  rw [if_neg (by simp [hv]), Slot.unregistered hr]

/-- A stop abandons a frame in flight, so none is left without reception (R213). -/
theorem FrameInv.stop {k : Slot} (h : FrameInv k) : FrameInv (Slot.abandon { k with receiving := false }) := by
  unfold Slot.abandon
  split
  · exact ⟨Nat.zero_le _, nofun, nofun, fun _ => rfl, nofun, nofun⟩
  · rename_i hp
    exact ⟨h.offset, h.complete, h.inProgress, h.idle, nofun, fun c => absurd (hp.symm.trans c) nofun⟩
  · rename_i hp
    exact ⟨h.offset, h.complete, h.inProgress, h.idle, nofun, fun c => absurd (hp.symm.trans c) nofun⟩

/-- A channel that does not receive may be deregistered (R209). -/
theorem FrameInv.deregister {k : Slot} (h : FrameInv k) (hv : k.receiving = false) :
    FrameInv { k with registered := false } :=
  ⟨h.offset, h.complete, h.inProgress, h.idle, fun c => absurd (hv.symm.trans c) nofun,
    fun c => absurd (hv.symm.trans (h.running c).2) nofun⟩

theorem FrameInv.tornTransport {k : Slot} (h : FrameInv k) : FrameInv k.tornTransport := by
  unfold Slot.tornTransport
  split
  · exact h.stop.deregister (Slot.abandon_receiving _)
  · rename_i hv
    exact h.deregister (by simpa using hv)

/-- A slot with no frame in flight and offset 0, whose transport bits fit, meets the clauses of the frame. -/
theorem FrameInv.of_idle {k : Slot} (hp : k.progress = .idle) (hw : k.woff = 0)
    (hv : k.receiving = true → k.registered = true) : FrameInv k := by
  refine ⟨by rw [hw]; exact Nat.zero_le _, fun c => ?_, fun c => ?_, fun _ => hw, hv, fun c => ?_⟩ <;>
    exact absurd (hp.symm.trans c) nofun

/-- The session `SW_BIND` makes of a free slot meets R48 (R201). -/
theorem SlotInv.bindSoftware {M : Nat} {k : Slot} {dest expected wdlim : Word} (h : SlotInv M k)
    (free : k.inUse = false) (he : ¬ expected = 0) (hm : ¬ M < dest.toNat + expected.toNat) :
    SlotInv M (k.bindSoftware dest expected wdlim) := by
  have hpos : 1 ≤ expected.toNat :=
    Nat.one_le_iff_ne_zero.2 fun h0 => he (BitVec.eq_of_toNat_eq h0)
  rcases h.free free with rfl | rfl <;>
    exact ⟨Nat.zero_le _, nofun, nofun, fun _ => rfl, nofun, nofun, nofun,
      fun _ _ => ⟨hpos, Nat.le_of_not_lt hm, rfl, rfl, rfl, rfl, rfl, rfl, Slot.ringAt_reset, rfl, rfl, rfl, rfl, rfl⟩,
      nofun⟩

/-! ### Rings -/

/-- `l` differs from `k` at most in the fields that the events of a bound ring write: the slot states and pointers,
the record of the acquire, the view and the overrun bit. -/
def SameSession (k l : Slot) : Prop :=
  l = { k with
    ringOvr := l.ringOvr, heldValid := l.heldValid, acqPending := l.acqPending, dest := l.dest,
    lastReturned := l.lastReturned, fillIdx := l.fillIdx, heldIdx := l.heldIdx, ring := l.ring,
    lastN := l.lastN, acqCode := l.acqCode, acqDone := l.acqDone }

/-- What changes only the ring fields of a ring keeps R48. -/
theorem SlotInv.of_sameSession {M : Nat} {k l : Slot} (h : SlotInv M k) (hd : k.isDma = true)
    (hl : SameSession k l) : SlotInv M l := by
  obtain ⟨huse, hmode⟩ := (Slot.isDma_iff k).1 hd
  rw [hl]
  exact ⟨h.offset, h.complete, h.inProgress, h.idle, h.registered, h.receiving,
    fun hfree => absurd (huse.symm.trans hfree) nofun, fun _ hs => absurd (hmode.symm.trans hs) nofun, h.running⟩

theorem Slot.handOver_sameSession (k : Slot) : SameSession k k.handOver := by
  rw [Slot.handOver_eq]
  exact rfl

/-- The ring `DMA_SETUP` makes of a free slot meets R48 (R175). -/
theorem SlotInv.bindRing {M : Nat} {k : Slot} {base size b granted : Word} (h : SlotInv M k)
    (free : k.inUse = false) : SlotInv M (k.bindRing base size b granted) := by
  rcases h.free free with rfl | rfl <;>
    exact ⟨Nat.zero_le _, nofun, nofun, fun _ => rfl, nofun, nofun, nofun, nofun, nofun⟩

/-- A ring registers no callback, so no move of a running session is one of a ring (R49 (vii)). -/
theorem RingInv.not_registered {M : Nat} {k : Slot} (h : RingInv M k) : ¬ k.registered = true := by
  obtain ⟨-, -, hreg, -⟩ := h.quiet
  simp [hreg]

/-- A ring is as a stop leaves it (R49 (vii)). -/
theorem RingInv.stop_eq {M : Nat} {k : Slot} (h : RingInv M k) : Slot.abandon { k with receiving := false } = k := by
  obtain ⟨hp, -, -, hv, -⟩ := h.quiet
  exact Slot.stop_of_quiet hv (by rw [hp]; exact nofun)

/-- A slot that may join a group start holds no ring. -/
theorem Startable.not_isDma {k : Slot} (h : Startable k) : ¬ k.isDma = true := by
  obtain ⟨-, hmode, -⟩ := h
  simp [Slot.isDma, hmode]

/-- A slot that holds a software session holds no ring. -/
theorem Slot.not_isDma_of_isSoftware {k : Slot} (h : k.isSoftware = true) : ¬ k.isDma = true := by
  obtain ⟨-, hmode⟩ := (Slot.isSoftware_iff k).1 h
  simp [Slot.isDma, hmode]

theorem Slot.tornDown_free (k : Slot) :
    k.tornDown = Slot.reset ∨ k.tornDown = { Slot.reset with acqDone := true, acqCode := .eCancelled } := by
  unfold Slot.tornDown
  split
  · exact .inr rfl
  · exact .inl rfl

/-- The record of an acquire is free of the ring (R185). -/
theorem RingInv.freshAcquire {M : Nat} {k : Slot} (h : RingInv M k) : RingInv M k.freshAcquire :=
  ⟨h.held, h.notHeld, h.size, h.present, h.absent, h.pointers, h.region, h.filled, h.heldLast, h.pending, h.quiet⟩

/-- A fill that completes a pending acquire keeps R49: it marks its slot, and hands that slot over (R188). -/
theorem RingInv.fillHandOver {M : Nat} {k : Slot} (h : RingInv M k) (hp : k.acqPending = true)
    (hq : k.ringAt k.fillIdx.toNat = .queuedEmpty) :
    RingInv M (Slot.handOver { k.markFilled with acqPending := false }) := by
  have hno : RingInv M { k with acqPending := false } := h.record k.acqCode k.acqDone k.ringOvr
  obtain ⟨hfilled, hcount⟩ := hno.markFilled rfl hq
  exact hfilled.handOver rfl (h.pending hp).1 (hcount ▸ Nat.le_add_left 1 _)

/-! ### Every move -/

/-- Every move of a slot keeps R48 (i) to (vii) and (ix). -/
theorem SlotMove.keeps_slotInv {M : Nat} {k l : Slot} (h : SlotMove M k l) (hk : SlotInv M k) : SlotInv M l := by
  have frame := hk.frameInv
  have session : k.registered = true → k.isSoftware = true := fun hr => (Slot.isSoftware_iff k).2 (hk.registered hr)
  have startable : Startable k → k.isSoftware = true := fun hS => (Slot.isSoftware_iff k).2 ⟨hS.1, hS.2.1⟩
  cases h with
  | keep => exact hk
  | clear => exact .of_free (.inl rfl)
  | bindSoftware dest expected wdlim free he hm => exact hk.bindSoftware free he hm
  | register hS =>
    refine hk.of_sameBuffer (startable hS) rfl
      ⟨frame.offset, frame.complete, frame.inProgress, frame.idle, fun _ => rfl, fun hp => ?_⟩
    exact ⟨rfl, (frame.running hp).2⟩
  | deregister hv =>
    by_cases hs : k.isSoftware = true
    · exact hk.of_sameBuffer hs rfl (frame.deregister hv)
    · rw [Slot.unregistered (hk.quiet_of_not_software hs).1]; exact hk
  | start hr =>
    exact hk.of_sameBuffer (session hr) rfl
      ⟨frame.offset, frame.complete, frame.inProgress, frame.idle, fun _ => hr, fun _ => ⟨hr, rfl⟩⟩
  | stop =>
    by_cases hs : k.isSoftware = true
    · exact hk.of_sameBuffer hs k.stop_sameBuffer frame.stop
    · obtain ⟨-, hv, hp⟩ := hk.quiet_of_not_software hs
      rw [Slot.stop_of_quiet hv hp]; exact hk
  | tear =>
    by_cases hs : k.isSoftware = true
    · exact hk.of_sameBuffer hs k.tornTransport_sameBuffer frame.tornTransport
    · obtain ⟨hr, hv, -⟩ := hk.quiet_of_not_software hs
      rw [Slot.tornTransport_of_quiet hr hv]; exact hk
  | rearm hs => exact hk.of_sameBuffer hs rfl (.of_idle rfl rfl hk.receiving)
  | groupStart hS => exact hk.of_sameBuffer (startable hS) rfl (.of_idle rfl rfl fun _ => rfl)
  | groupUndo hS => exact hk.of_sameBuffer (startable hS) rfl (.of_idle rfl rfl nofun)
  | bindRing base size b granted free hb hs hg hm => exact hk.bindRing free
  | pend hd hh hn => exact hk.of_sameSession hd rfl
  | handOver hd hp hh hn =>
    exact (hk.of_sameSession (l := k.freshAcquire) hd rfl).of_sameSession hd (Slot.handOver_sameSession _)
  | release hd hh => exact hk.of_sameSession hd rfl
  | cancel hd => exact hk.of_sameSession hd rfl
  | tornDown hd => exact .of_free k.tornDown_free
  | overrun hd => exact hk.of_sameSession hd rfl
  | fill hd hp hq => exact hk.of_sameSession hd rfl
  | fillHandOver hd hp hq =>
    exact (hk.of_sameSession (l := { k.markFilled with acqPending := false }) hd rfl).of_sameSession hd
      (Slot.handOver_sameSession _)
  | abandonFrame hr hv => exact hk.of_sameBuffer (session hr) rfl (.of_idle rfl rfl fun _ => hr)
  | count hr hv w =>
    exact hk.of_sameBuffer (session hr) rfl
      ⟨frame.offset, frame.complete, frame.inProgress, frame.idle, frame.receiving, frame.running⟩
  | copy hr hv off cnt ho =>
    exact hk.of_sameBuffer (session hr) rfl
      ⟨Nat.le_of_lt ho, nofun, fun _ => ho, nofun, fun _ => hr, fun _ => ⟨hr, hv⟩⟩
  | complete hr hv o size hs =>
    exact hk.of_sameBuffer (session hr) rfl
      ⟨Nat.zero_le _, fun _ => ⟨hs frame.offset, rfl⟩, nofun, fun _ => rfl, fun _ => hr, nofun⟩

/-- Every move of a slot keeps R49: what is a ring after it meets the invariants of a ring. -/
theorem SlotMove.keeps_ringInv {M : Nat} {k l : Slot} (h : SlotMove M k l) (hk : SlotInv M k)
    (hr : k.isDma = true → RingInv M k) (hl : l.isDma = true) : RingInv M l := by
  have notRegistered : k.isDma = true → ¬ k.registered = true := fun hd => (hr hd).not_registered
  cases h with
  | keep => exact hr hl
  | clear => cases hl
  | bindSoftware => cases hl
  | register hS => exact absurd hl hS.not_isDma
  | deregister hv => rw [Slot.unregistered (by simpa using notRegistered hl)]; exact hr hl
  | start hreg => exact absurd hreg (notRegistered hl)
  | stop =>
    have hd : k.isDma = true := k.stop_sameBuffer.isDma_eq ▸ hl
    rw [(hr hd).stop_eq]; exact hr hd
  | tear =>
    have hd : k.isDma = true := k.tornTransport_sameBuffer.isDma_eq ▸ hl
    obtain ⟨-, -, hreg, hrec, -⟩ := (hr hd).quiet
    rw [Slot.tornTransport_of_quiet hreg hrec]; exact hr hd
  | rearm hs => exact absurd hl (Slot.not_isDma_of_isSoftware hs)
  | groupStart hS => exact absurd hl hS.not_isDma
  | groupUndo hS => exact absurd hl hS.not_isDma
  | bindRing base size b granted free hb hs hg hm =>
    refine RingInv.bindRing hb hs hg hm ?_
    rcases hk.free free with rfl | rfl <;> exact ⟨rfl, rfl, rfl, rfl, rfl⟩
  | pend hd hh hn => exact (hr hd).pend hh hn
  | handOver hd hp hh hn =>
    refine (hr hd).freshAcquire.handOver hp hh ?_
    exact hn.trans_eq (Slot.nFilled_congr (k := k) (l := k.freshAcquire) rfl rfl rfl).1
  | release hd hh => exact (hr hd).release hh
  | cancel hd => exact (hr hd).record .eCancelled true k.ringOvr
  | tornDown hd => rcases k.tornDown_free with e | e <;> rw [e] at hl <;> cases hl
  | overrun hd => exact (hr hd).keepPending true
  | fill hd hp hq => exact ((hr hd).markFilled hp hq).1
  | fillHandOver hd hp hq => exact (hr hd).fillHandOver hp hq
  | abandonFrame hreg => exact absurd hreg (notRegistered hl)
  | count hreg => exact absurd hreg (notRegistered hl)
  | copy hreg => exact absurd hreg (notRegistered hl)
  | complete hreg => exact absurd hreg (notRegistered hl)

end Sys2Proof.Machine
end

