-- ==== Sys2Proof/Proofs/StepFrame.lean ====
section
/-! SUPPORT. What a step leaves alone: the parameters by every event (R271), and `RESULT`, `RET0`, `RET1` and the
requests by every event that is no command (R120, R180, R230, R231). -/

namespace Sys2Proof.Machine

/-! ### Packets and fills -/

/-- What a packet never touches (R120, R129). -/
theorem exec_packet_frame {s t : State} {i : Instr} {c : Chan} {len : Word} {p : List Byte} (hi : IsPacket i c len p)
    (h : exec i s = .next t) : PortEventFrame c s t := by
  rcases exec_packet_next hi h with ⟨-, rfl⟩ | ⟨-, rfl⟩ | ⟨-, -, rfl⟩ | ⟨off, -, -, h⟩
  · exact .irqSet c s _
  · exact .refl c t
  · exact .watchdog c false s
  · rw [takePayload_eq] at h
    obtain ⟨u, hstore, h⟩ := andThen_eq_next h
    cases h
    exact ((PortEventFrame.updSlot c s _).trans (.memWrite hstore)).trans (afterStore_frame c len u)

/-- What a fill never touches (R180). -/
theorem execFill_frame {s t : State} {c : Chan} {f : List Byte} (h : execFill c f s = .next t) :
    PortEventFrame c s t := by
  rcases execFill_next h with ⟨-, rfl⟩ | ⟨-, -, rfl⟩ | ⟨-, -, -, rfl⟩ | ⟨-, -, -, -, u, hstore, rfl⟩
  · exact .irqSet c s _
  · exact .refl c t
  · exact (PortEventFrame.updSlot c s _).trans (.irqSet c _ _)
  · exact (storeFrame_frame c hstore).trans (afterFill_frame c u)

/-- A step on a packet that goes on ran one of the two packet instructions (R101). -/
theorem step_packet_next {s t : State} {c : Chan} {hdr len : Word} {p : List Byte} {rest : List Event}
    (he : s.events = .input (.packet c hdr len p) :: rest) (h : step s = .next t) :
    ∃ i, IsPacket i c len p ∧ exec i { s with events := rest } = .next t := by
  by_cases hl : p.length = len.toNat
  · obtain ⟨i, hdec, hi⟩ := decodePacket_ok c hdr hl
    exact ⟨i, hi, (step_of_decoded he hdec).symm.trans h⟩
  · have hdec : decodeInput (.packet c hdr len p) = .error .payloadLength := if_pos hl
    rw [step_of_rejected he hdec] at h
    cases h

/-- A step on a fill that goes on ran the fill (R102). -/
theorem step_fill_next {s t : State} {c : Chan} {f : List Byte} {rest : List Event}
    (he : s.events = .input (.fill c f) :: rest) (h : step s = .next t) :
    execFill c f { s with events := rest } = .next t := by
  by_cases hl : f.length < 2 ^ 32
  · exact (step_of_decoded he (decodeFill_ok c hl)).symm.trans h
  · have hdec : decodeInput (.fill c f) = .error .frameLength := if_pos (Nat.not_lt.1 hl)
    rw [step_of_rejected he hdec] at h
    cases h

/-! ### Parameters -/

/-- No event changes the parameters (R271). -/
theorem step_keeps_params {s t : State} (h : step s = .next t) : t.params = s.params := by
  rcases step_cases h with rfl | ⟨e, rest, -, s', rfl, ⟨_, _, _, h⟩ | ⟨_, _, _, h⟩ |
    ⟨x, -, h | h | ⟨i, c, len, p, hi, -, h⟩ | ⟨c, f, h⟩⟩⟩
  · rfl
  · rw [h]
  · rw [(memWrite_next h).2.1]
  · exact h.frame.params
  · rw [h]
  · exact (exec_packet_frame hi h).host.params
  · exact (execFill_frame h).host.params

/-! ### The outcome of a command -/

/-- What only a command writes or sends: `RESULT`, `RET0`, `RET1` and the requests (R21, R26). -/
def KeepsOutcome (s t : State) : Prop :=
  t.result = s.result ∧ t.ret0 = s.ret0 ∧ t.ret1 = s.ret1 ∧ NoRequest s t

theorem KeepsOutcome.refl (s : State) : KeepsOutcome s s := ⟨rfl, rfl, rfl, rfl, rfl⟩

/-- Taking the event from the list is no part of the outcome. -/
theorem KeepsOutcome.of_taken {s t : State} {rest : List Event} (h : KeepsOutcome { s with events := rest } t) :
    KeepsOutcome s t := h

theorem PortEventFrame.keepsOutcome {c : Chan} {s t : State} (h : PortEventFrame c s t) : KeepsOutcome s t :=
  ⟨h.result, h.ret0, h.ret1, h.requests⟩

theorem hostMemRead_keepsOutcome {addr n : Nat} {s t : State} (h : hostMemRead addr n s = .next t) :
    KeepsOutcome s t := by
  unfold hostMemRead at h
  split at h <;> cases h
  exact ⟨rfl, rfl, rfl, rfl, rfl⟩

theorem memWrite_keepsOutcome {base : Nat} {bs : List Byte} {s t : State} (h : memWrite s base bs = .next t) :
    KeepsOutcome s t :=
  (PortEventFrame.memWrite (c := 0) h).keepsOutcome

/-- A register write is no command unless its address is that of `CMD` (R231). -/
theorem execRegWr_keepsOutcome {addr : BitVec 16} {w : Word} {s t : State} (ha : addr ≠ 0x0014)
    (h : execRegWr addr w s = .next t) : KeepsOutcome s t := by
  unfold execRegWr at h
  split at h
  case h_4 hcmd => exact absurd (BitVec.eq_of_toNat_eq hcmd) ha
  all_goals
    cases h
    exact ⟨rfl, rfl, rfl, rfl, rfl⟩

/-- A step on an input that is no command leaves the outcome of the last command. -/
theorem step_input_keepsOutcome {s t : State} {x : Input} {rest : List Event} (he : s.events = .input x :: rest)
    (hcommand : ∀ w, x ≠ .command w) (hcmd : ∀ w, x ≠ .access true 0x0014 w) (h : step s = .next t) :
    KeepsOutcome s t := by
  cases x with
  | command w => exact absurd rfl (hcommand w)
  | packet c hdr len p =>
    obtain ⟨i, hi, hrun⟩ := step_packet_next he h
    exact (exec_packet_frame hi hrun).keepsOutcome
  | fill c f => exact (execFill_frame (step_fill_next he h)).keepsOutcome
  | access we addr w =>
    cases we with
    | false =>
      rw [step_of_decoded he rfl] at h
      cases h
      exact .refl s
    | true =>
      have haddr : addr ≠ 0x0014 := fun e => hcmd w (e ▸ rfl)
      exact .of_taken (execRegWr_keepsOutcome haddr ((step_of_decoded he rfl).symm.trans h))

end Sys2Proof.Machine
end

