-- ==== Sys2Proof/Proofs/Registers.lean ====
section
/-! SUPPORT. Where the registers stand (R29, R47), and the interrupt line bit by bit (R28). -/

namespace Sys2Proof.Machine

/-- `NCH` is at most 64 (R7). -/
theorem State.nch_le (s : State) : s.nch ≤ 64 := s.params.lastChan.isLt

/-- `CFG` as a number: `NCH`, `BMAX` = 16 and the version 1 in their fields (R24). -/
theorem State.cfgWord_toNat (s : State) : s.cfgWord.toNat = s.nch + 16 * 2 ^ 8 + 2 ^ 24 := by
  have hnch : s.nch < 2 ^ 7 := Nat.lt_of_le_of_lt s.nch_le (by decide)
  have hlow : (BitVec.ofNat 7 s.nch).toNat = s.nch := by
    rw [BitVec.toNat_ofNat, Nat.mod_eq_of_lt hnch]
  have hhigh : (BitVec.ofNat 8 Config.version ++ 0#11 ++ BitVec.ofNat 5 Config.bmax ++ 0#1).toNat <<< 7 =
      16 * 2 ^ 8 + 2 ^ 24 := by decide
  unfold State.cfgWord
  rw [BitVec.toNat_append, hlow, ← Nat.shiftLeft_add_eq_or_of_lt hnch, hhigh]
  omega

/-- Within the windows of the existing channels a read goes to the channel's register (R47). -/
theorem readReg_window {s : State} {c : Chan} {off : Nat} (hc : c.toNat < s.nch) (hoff : off < 0x40)
    (halign : off % 4 = 0) :
    readReg s (BitVec.ofNat 16 (0x1000 + 0x40 * c.toNat + off)) = readWindow (s.slot c) off := by
  have haddr : (BitVec.ofNat 16 (0x1000 + 0x40 * c.toNat + off)).toNat = 0x1000 + 0x40 * c.toNat + off := by
    rw [BitVec.toNat_ofNat]
    exact Nat.mod_eq_of_lt (by have := c.isLt; omega)
  have hchan : (0x1000 + 0x40 * c.toNat + off - 0x1000) / 0x40 = c.toNat := by omega
  have hwin : (0x1000 + 0x40 * c.toNat + off - 0x1000) % 0x40 = off := by omega
  unfold readReg
  dsimp only
  rw [haddr, hchan, hwin, if_neg (by omega), if_neg (by omega), if_pos hc, BitVec.ofNat_toNat, BitVec.setWidth_eq]

/-- The line is 1 exactly when some source is both pending and enabled (R28, R251). -/
theorem State.irq_iff (s : State) :
    s.irq = true ↔ ∃ i < 8, s.irqStatus.getLsbD i = true ∧ s.irqEnable.getLsbD i = true := by
  unfold State.irq
  rw [decide_eq_true_iff]
  constructor
  · intro hne
    by_contra hno
    refine hne (BitVec.eq_of_getLsbD_eq fun i hi => ?_)
    have hbit : ¬ (s.irqStatus.getLsbD i = true ∧ s.irqEnable.getLsbD i = true) := fun hb => hno ⟨i, hi, hb⟩
    simpa using hbit
  · rintro ⟨i, -, hs, he⟩ hzero
    have hbit : (s.irqStatus &&& s.irqEnable).getLsbD i = true := by rw [BitVec.getLsbD_and, hs, he]; rfl
    rw [hzero] at hbit
    simp at hbit

end Sys2Proof.Machine
end

