-- ==== Sys2Proof/Proofs/State.lean ====
section
/-! The statements of spec/10_state.md. -/

namespace Sys2Proof.Machine

/-- Settles O48: every step makes one move of each slot, every move keeps R48, and `awaiting` does not pass `NCH`. -/
theorem stepKeepsChannelInvariants : Obligations.StepKeepsChannelInvariants := by
  unfold Obligations.StepKeepsChannelInvariants
  intro s t hs h
  obtain ⟨hmoves, hawait⟩ := step_moves h
  have hparams := step_keeps_params h
  have hnch : t.nch = s.nch := congrArg Params.nch hparams
  refine ⟨fun c hc => ?_, fun c hc => ?_, ?_⟩
  · rw [hnch] at hc
    rw [hparams]
    exact (hmoves.move c hc).keeps_slotInv (hs.slot c hc)
  · rw [hnch] at hc
    exact (hmoves.none c hc).elim (·.trans (hs.noSlot c hc)) id
  · have := hs.awaiting
    omega

/-- Settles O49: every step makes one move of each slot, and every move keeps R49; a slot of no channel is no ring. -/
theorem stepKeepsRingInvariants : Obligations.StepKeepsRingInvariants := by
  unfold Obligations.StepKeepsRingInvariants
  intro s t hs hrings h c hd
  obtain ⟨hmoves, -⟩ := step_moves h
  rw [step_keeps_params h]
  by_cases hc : c.toNat < s.nch
  · exact (hmoves.move c hc).keeps_ringInv (hs.slot c hc) (hrings c) hd
  · have hreset : t.slot c = Slot.reset :=
      (hmoves.none c (Nat.not_lt.1 hc)).elim (·.trans (hs.noSlot c (Nat.not_lt.1 hc))) id
    rw [hreset] at hd
    cases hd

/-- Settles O43: a global register is a case of `readGlobal`, a channel's one of `readWindow`. -/
theorem registerMap : Obligations.RegisterMap := by
  unfold Obligations.RegisterMap
  intro s
  refine ⟨⟨rfl, s.cfgWord_toNat, rfl, rfl, rfl, rfl, rfl, rfl, rfl, rfl, rfl, rfl⟩, fun c at_ hc hat => ?_⟩
  have hread : ∀ off, off < 0x40 → off % 4 = 0 → readReg s (at_ off) = readWindow (s.slot c) off :=
    fun off hoff halign => hat off ▸ readReg_window hc hoff halign
  refine ⟨?_, ?_, ?_, ?_, ?_, ?_, ?_, ?_, ?_, ?_, ?_, ?_⟩ <;> exact hread _ (by decide) (by decide)

/-- Settles O46, bit by bit. -/
theorem interruptLine : Obligations.InterruptLine := by
  unfold Obligations.InterruptLine
  exact State.irq_iff

/-- Settles O57, by the kind of the event: packets and fills keep to their frame, and any other event that is no
command writes only the register or the bytes it names. -/
theorem onlyCommandsWriteResult : Obligations.OnlyCommandsWriteResult := by
  unfold Obligations.OnlyCommandsWriteResult
  intro s t e rest he hcommand hcmd h
  change KeepsOutcome s t
  cases e with
  | input x =>
    exact step_input_keepsOutcome he (fun w hx => hcommand w (congrArg _ hx)) (fun w hx => hcmd w (congrArg _ hx)) h
  | hostMemRead addr n => exact .of_taken (hostMemRead_keepsOutcome ((step_of_hostMemRead he).symm.trans h))
  | hostMemWrite addr v => exact .of_taken (memWrite_keepsOutcome ((step_of_hostMemWrite he).symm.trans h))

/-- Settles O1: the registers and the 64 equal slots of the reset state are given by `State.reset` field by field. -/
theorem resetLeavesEveryRegisterZero : Obligations.ResetLeavesEveryRegisterZero := by
  unfold Obligations.ResetLeavesEveryRegisterZero
  refine ⟨⟨rfl, rfl, rfl, rfl, rfl⟩, ⟨rfl, rfl, rfl, rfl, rfl⟩, fun c k hk => ?_, rfl, rfl, rfl⟩
  rw [State.reset_slot] at hk
  subst hk
  exact ⟨⟨rfl, rfl, rfl, rfl, rfl⟩, ⟨rfl, rfl, rfl, rfl, rfl⟩, ⟨rfl, rfl, rfl, rfl, rfl, rfl⟩,
    ⟨rfl, rfl, rfl, rfl, rfl, rfl⟩, Slot.ringAt_reset, rfl, rfl, rfl⟩

/-- Settles O7: the write to `CMD` decodes the word and runs the command's rule, as its event does. -/
theorem cmdWriteExecutesCommand : Obligations.CmdWriteExecutesCommand := by
  unfold Obligations.CmdWriteExecutesCommand
  intro s w
  refine ⟨rfl, fun i hi => ?_⟩
  calc exec (.regWr 0x0014 w) s = execCommandWord w s := rfl
    _ = runCommand i s := by unfold execCommandWord; rw [hi]
    _ = exec i s := (exec_command_effect hi s).symm

/-- Settles O51: every slot is free, none holds a ring, and memory lists no byte. -/
theorem invariantsHoldAtReset : Obligations.InvariantsHoldAtReset := by
  unfold Obligations.InvariantsHoldAtReset
  refine ⟨⟨fun c _ => ?_, fun c _ => State.reset_slot c, Nat.zero_le _⟩, fun c hd => ?_, reset_mem_wf, nofun⟩
  · rw [State.reset_slot]
    exact .of_free (.inl rfl)
  · rw [State.reset_slot] at hd
    cases hd

end Sys2Proof.Machine
end

