-- ==== Sys2Proof/Proofs/MemoryEffects.lean ====
section
/-! SUPPORT. Which bytes of frame memory a write, a packet and a fill can change (R72, R78), and that the canonical
form of the memory outlasts each of them (log 6). -/

namespace Sys2Proof.Machine

/-! ### The canonical form -/

/-- The form speaks of the memory and the parameters alone. -/
theorem MemoryInv.congr {s t : State} (h : MemoryInv s) (hm : t.mem = s.mem) (hp : t.params = s.params) :
    MemoryInv t :=
  ⟨hm ▸ h.canonical, by rw [hm, hp]; exact h.inside⟩

theorem MemoryInv.memWrite {s t : State} {base : Nat} {bs : List Byte} (h : MemoryInv s)
    (hw : memWrite s base bs = .next t) : MemoryInv t := by
  have hp : t.params = s.params := by rw [(memWrite_next hw).2.1]
  refine ⟨memWrite_wf hw h.canonical, ?_⟩
  rw [hp]
  exact memWrite_bound hw h.inside

theorem MemoryInv.forget {s : State} (h : MemoryInv s) (base n : Nat) : MemoryInv (s.forget base n) :=
  ⟨Memory.wf_forget _ _ _ h.canonical, Memory.bound_forget _ _ _ _ h.inside⟩

theorem MemoryInv.storeFrame {k : Slot} {f : List Byte} {s t : State} (h : MemoryInv s)
    (hstore : storeFrame k f s = .next t) : MemoryInv t := by
  obtain ⟨u, hw, rfl⟩ := storeFrame_next hstore
  exact (h.memWrite hw).forget _ _

/-- A packet touches memory by its one store (R125), if at all. -/
theorem exec_packet_keeps_memoryInv {s t : State} {i : Instr} {c : Chan} {len : Word} {p : List Byte}
    (hi : IsPacket i c len p) (hs : MemoryInv s) (h : exec i s = .next t) : MemoryInv t := by
  have hp : t.params = s.params := (exec_packet_frame hi h).host.params
  rcases exec_packet_next hi h with ⟨-, rfl⟩ | ⟨-, rfl⟩ | ⟨-, -, rfl⟩ | ⟨off, -, -, h⟩
  · exact hs.congr rfl hp
  · exact hs
  · exact hs.congr (watchdog_mem c false s) hp
  · rw [takePayload_eq] at h
    obtain ⟨u, hstore, h⟩ := andThen_eq_next h
    cases h
    have hat : MemoryInv (atOffset s c off) := hs.congr rfl rfl
    exact (hat.memWrite hstore).congr (afterStore_mem c len u) (afterStore_frame c len u).host.params

/-- A fill touches memory by the store of its frame (R180), if at all. -/
theorem execFill_keeps_memoryInv {s t : State} {c : Chan} {f : List Byte} (hs : MemoryInv s)
    (h : execFill c f s = .next t) : MemoryInv t := by
  rcases execFill_next h with ⟨-, rfl⟩ | ⟨-, -, rfl⟩ | ⟨-, -, -, rfl⟩ | ⟨-, -, -, -, u, hstore, rfl⟩
  · exact hs.congr rfl rfl
  · exact hs
  · exact hs.congr rfl rfl
  · exact (hs.storeFrame hstore).congr (afterFill_mem c u) (afterFill_frame c u).host.params

/-! ### The bytes a store can change -/

/-- A write changes no byte outside the range it names (R72). -/
theorem memWrite_outside {s t : State} {base : Nat} {bs : List Byte} (h : memWrite s base bs = .next t) :
    SameMemoryOutside base bs.length s t := by
  intro a ha
  unfold State.readByte
  obtain ⟨-, -, ⟨hm, -⟩ | hm⟩ := memWrite_next h
  · rw [hm]
  · rw [hm, Memory.read?_write, if_neg ha]

/-- The store of a frame no larger than its ring slot changes no byte outside the slot (R78). -/
theorem storeFrame_outside {k : Slot} {f : List Byte} {s t : State} (hf : f.length = k.expected.toNat)
    (hsize : k.expected.toNat ≤ k.slotSize.toNat) (h : storeFrame k f s = .next t) :
    SameMemoryOutside (k.slotAddr k.fillIdx.toNat) k.slotSize.toNat s t := by
  intro a ha
  obtain ⟨u, hw, rfl⟩ := storeFrame_next h
  rw [State.readByte_forget, if_neg (by omega), memWrite_outside hw a (by omega)]

/-- A fill changes no byte outside the ring slot at `fill_idx` (R78). -/
theorem execFill_outside {s t : State} {c : Chan} {f : List Byte}
    (hsize : (s.slot c).expected.toNat ≤ (s.slot c).slotSize.toNat) (h : execFill c f s = .next t) :
    SameMemoryOutside ((s.slot c).slotAddr (s.slot c).fillIdx.toNat) (s.slot c).slotSize.toNat s t := by
  rcases execFill_next h with ⟨-, rfl⟩ | ⟨-, -, rfl⟩ | ⟨-, -, -, rfl⟩ | ⟨-, -, -, hf, u, hstore, rfl⟩
  · exact fun _ _ => rfl
  · exact fun _ _ => rfl
  · exact fun _ _ => rfl
  · intro a ha
    have hafter : (afterFill c u).readByte a = u.readByte a := congrArg (Memory.read? · a) (afterFill_mem c u)
    exact hafter.trans (storeFrame_outside hf hsize hstore a ha)

/-- A fill that finds no room changes no byte (R78, R181). -/
theorem execFill_without_room {s t : State} {c : Chan} {f : List Byte}
    (hq : (s.slot c).ringAt (s.slot c).fillIdx.toNat ≠ .queuedEmpty) (h : execFill c f s = .next t) :
    SameMemory s t := by
  rcases execFill_next h with ⟨-, rfl⟩ | ⟨-, -, rfl⟩ | ⟨-, -, -, rfl⟩ | ⟨-, -, hqueued, -⟩
  · exact fun _ => rfl
  · exact fun _ => rfl
  · exact fun _ => rfl
  · exact absurd hqueued hq

/-! ### The host's path -/

/-- A step on a host write inside frame memory goes on, and the bytes written hold (R71, R72). -/
theorem step_hostMemWrite_inside {s : State} {addr : Nat} {v : List Byte} {rest : List Event}
    (he : s.events = .hostMemWrite addr v :: rest) (hin : addr + v.length ≤ s.params.memBytes) :
    ∃ t, step s = .next t ∧ t = { s with mem := t.mem, events := rest } ∧
      t.readBytes addr v.length = v.map some ∧ SameMemoryOutside addr v.length s t := by
  obtain ⟨t, hw, ht, hread⟩ := memWrite_inside { s with events := rest } addr v hin
  have hout := memWrite_outside hw
  refine ⟨t, (step_of_hostMemWrite he).trans hw, ht, State.readBytes_eq rfl fun i hi => ?_, hout⟩
  rw [hread, if_pos (by omega), Nat.add_sub_cancel_left]

/-- A step on a host read inside frame memory shows the bytes and changes nothing else (R70, R79). -/
theorem step_hostMemRead_inside {s : State} {addr n : Nat} {rest : List Event}
    (he : s.events = .hostMemRead addr n :: rest) (hin : addr + n ≤ s.params.memBytes) :
    step s = .next { s with events := rest, memData := some (s.readBytes addr n) } :=
  (step_of_hostMemRead he).trans (hostMemRead_inside hin)

end Sys2Proof.Machine
end

