-- ==== Sys2Proof/Proofs/FrameMemory.lean ====
section
/-! The statements of spec/20_memory.md. -/

namespace Sys2Proof.Machine

/-- Settles O47: the write goes on and its bytes hold, and the read that follows shows them. -/
theorem hostMemoryReadsBack : Obligations.HostMemoryReadsBack := by
  unfold Obligations.HostMemoryReadsBack
  intro s addr v rest he hin
  obtain ⟨t, hwrite, ht, hbytes, hout⟩ := step_hostMemWrite_inside he hin
  have het : t.events = .hostMemRead addr v.length :: rest := by rw [ht]
  have hint : addr + v.length ≤ t.params.memBytes := by rw [ht]; exact hin
  refine ⟨t, _, hwrite, step_hostMemRead_inside het hint, congrArg some hbytes, rfl, hout, ?_⟩
  rw [ht]
  exact ⟨fun _ => rfl, rfl, rfl, rfl⟩

/-- Settles O50, by the kind of the step: a host write, a packet and a fill keep the form by their stores, and every
other step leaves memory alone. -/
theorem stepKeepsMemoryForm : Obligations.StepKeepsMemoryForm := by
  unfold Obligations.StepKeepsMemoryForm
  intro s t hs h
  have hp : t.params = s.params := step_keeps_params h
  have htaken : ∀ rest, MemoryInv { s with events := rest } := fun _ => hs.congr rfl rfl
  rcases step_cases h with rfl | ⟨e, rest, -, s', rfl, ⟨_, _, _, h⟩ | ⟨_, _, _, h⟩ |
    ⟨x, -, h | h | ⟨i, c, len, p, hi, -, h⟩ | ⟨c, f, h⟩⟩⟩
  · exact hs
  · exact hs.congr (by rw [h]) hp
  · exact (htaken rest).memWrite h
  · exact hs.congr h.frame.memory hp
  · exact hs.congr (by rw [h]) hp
  · exact exec_packet_keeps_memoryInv hi (htaken rest) h
  · exact execFill_keeps_memoryInv (htaken rest) h

/-- Settles O53: the frame of a fill, and the two rules about the bytes it can change. -/
theorem fillFootprint : Obligations.FillFootprint := by
  unfold Obligations.FillFootprint
  rintro s t c f k rfl hsize h
  have hfill : execFill c f s = .next t := h
  exact ⟨execFill_frame hfill, execFill_outside hsize hfill, fun hq => execFill_without_room hq hfill⟩

end Sys2Proof.Machine
end

