-- ==== Sys2Proof/Proofs/CommandWords.lean ====
section
/-! SUPPORT. The decoder and the encoder answer each other on every format (R90 to R103), and the words the decoder
accepts are those of the opcode map (R92). -/

namespace Sys2Proof

/-! ### The bits of a command word the opcode map fixes -/

/-- A word whose reserved and channel bits are 0 is the command word of its opcode alone (R91). -/
theorem commandWord_opField {w : Word} (hrsv : rsvField w = 0#18) (hch : chField w = 0#6) :
    commandWord (opField w) 0 = w :=
  calc commandWord (opField w) 0 = commandWord (opField w) (chField w) := congrArg _ hch.symm
    _ = w := commandWord_fields w hrsv

/-- Masking off the channel leaves the command word of the opcode alone (R91). -/
theorem commandWord_and_mask (op : BitVec 8) (c : Chan) : commandWord op c &&& 0xFFFFFFC0 = commandWord op 0 := by
  have hmask : (0xFFFFFFC0 : Word) = BitVec.allOnes 26 ++ 0#6 := by decide
  calc commandWord op c &&& 0xFFFFFFC0
      = ((op ++ 0#18) ++ c) &&& (BitVec.allOnes 26 ++ 0#6) := by rw [hmask]; rfl
    _ = (op ++ 0#18) ++ 0#6 := by rw [BitVec.and_append, BitVec.and_allOnes, BitVec.and_zero]

/-- A row with no channel fixes every bit of its word. -/
theorem plain_row_mem_commandTable {op : BitVec 8} {i : Instr} (h : commandRow op = some (.plain i)) :
    (commandWord op 0, 0xFFFFFFFF) ∈ Machine.commandTable := by
  have ho : op = BitVec.ofNat 8 op.toNat := by simp
  unfold commandRow at h
  split at h <;> cases h <;> rename_i hn <;> rw [hn] at ho <;> subst ho <;> decide

/-- A row with a channel fixes every bit of its word but the channel's. -/
theorem channel_row_mem_commandTable {op : BitVec 8} {make : Chan → Instr}
    (h : commandRow op = some (.channel make)) : (commandWord op 0, 0xFFFFFFC0) ∈ Machine.commandTable := by
  have ho : op = BitVec.ofNat 8 op.toNat := by simp
  unfold commandRow at h
  split at h <;> cases h <;> rename_i hn <;> rw [hn] at ho <;> subst ho <;> decide

/-- Every word that decodes matches a row of the opcode map (R92). -/
theorem listed_of_decodeCommand {w : Word} {i : Instr} (h : decodeCommand w = .ok i) : Machine.Listed w := by
  obtain ⟨hrsv, ⟨hrow, hch⟩ | ⟨make, hrow, -⟩⟩ := decodeCommand_ok h
  · exact ⟨_, plain_row_mem_commandTable hrow, BitVec.and_allOnes.trans (commandWord_opField hrsv hch).symm⟩
  · refine ⟨_, channel_row_mem_commandTable hrow, ?_⟩
    calc w &&& 0xFFFFFFC0
        = commandWord (opField w) (chField w) &&& 0xFFFFFFC0 := by rw [commandWord_fields w hrsv]
      _ = commandWord (opField w) 0 := commandWord_and_mask _ _

/-- A word outside the opcode map is refused by the decoder (R91, R95). -/
theorem decodeCommand_of_not_listed {w : Word} (h : ¬ Machine.Listed w) : ∃ e, decodeCommand w = .error e := by
  cases hw : decodeCommand w with
  | ok i => exact absurd (listed_of_decodeCommand hw) h
  | error e => exact ⟨e, rfl⟩

/-! ### Format C -/

/-- What a command word decodes to is well-formed and encodes to that word (R91, R92). -/
theorem encode_of_decodeCommand {w : Word} {i : Instr} (h : decodeCommand w = .ok i) :
    i.WellFormed ∧ encode i = .command w := by
  obtain ⟨hrsv, ⟨hrow, hch⟩ | ⟨make, hrow, rfl⟩⟩ := decodeCommand_ok h
  · obtain ⟨henc, hwf⟩ := encode_plain hrow
    exact ⟨hwf, henc.trans (congrArg _ (commandWord_opField hrsv hch))⟩
  · obtain ⟨henc, hwf⟩ := encode_channel hrow (chField w)
    exact ⟨hwf, henc.trans (congrArg _ (commandWord_fields w hrsv))⟩

/-! ### Formats P and F -/

/-- A packet of exactly `len` payload bytes decodes by bit 0 of its header word alone (R101). -/
theorem decodePacket_of_length (c : Chan) (hdr : Word) {len : Word} {p : List Byte} (hl : p.length = len.toNat) :
    decodePacket c hdr len p = .ok (if hdr.getLsbD 0 then .pktStart c hdr len p else .pktCont c hdr len p) := by
  unfold decodePacket
  rw [if_neg (not_not.2 hl), apply_ite Except.ok]

/-- Only a packet of exactly `len` payload bytes decodes (R100). -/
theorem length_of_decodePacket {c : Chan} {hdr len : Word} {p : List Byte} {i : Instr}
    (h : decodePacket c hdr len p = .ok i) : p.length = len.toNat := by
  by_contra hl
  rw [decodePacket, if_pos hl] at h
  cases h

/-- What a packet decodes to is well-formed and encodes to that packet (R100, R101). -/
theorem encode_of_decodePacket {c : Chan} {hdr len : Word} {p : List Byte} {i : Instr}
    (h : decodePacket c hdr len p = .ok i) : i.WellFormed ∧ encode i = .packet c hdr len p := by
  have hl := length_of_decodePacket h
  rw [decodePacket_of_length c hdr hl] at h
  cases hbit : hdr.getLsbD 0 <;> rw [hbit] at h <;> cases h
  · exact ⟨(pktCont_wf c hdr len p).2 ⟨hbit, hl⟩, rfl⟩
  · exact ⟨(pktStart_wf c hdr len p).2 ⟨hbit, hl⟩, rfl⟩

/-- What a fill decodes to is well-formed and encodes to that fill (R102). -/
theorem encode_of_decodeFill {c : Chan} {f : List Byte} {i : Instr} (h : decodeFill c f = .ok i) :
    i.WellFormed ∧ encode i = .fill c f := by
  unfold decodeFill at h
  split at h
  · cases h
  · rename_i hf
    cases h
    exact ⟨(fill_wf c f).2 (Nat.not_le.1 hf), rfl⟩

end Sys2Proof
end

