-- ==== Sys2Proof/Proofs/CommandRefusals.lean ====
section
/-! SUPPORT. The two refusals of R91 that no command's own rule takes part in: a word that is no command, and a
channel that does not exist. -/

namespace Sys2Proof.Machine

/-- A write to `CMD` of a word the decoder refuses is `E_BADOP` (R95, R233). -/
theorem exec_cmdWrite_of_error {w : Word} {e : DecodeError} (h : decodeCommand w = .error e) (s : State) :
    exec (.regWr 0x0014 w) s = badOp s := by
  change execCommandWord w s = badOp s
  rw [execCommandWord, h]

/-- A command on a channel that does not exist is `E_BADCH` before its own rule runs (step (2) of R91). -/
theorem exec_of_no_channel {i : Instr} {c : Chan} {s : State} (h : commandChannel i = some c) (hc : s.nch ≤ c.toNat) :
    exec i s = .next (s.finish .eBadCh .decode c) := by
  cases i with
  | swBind | unbind | register | deregister | start | stop | rearm
  | dmaSetup | dmaAcquire | dmaRelease | dmaCancel | dmaTeardown =>
    cases h
    unfold exec
    exact onChannel_ge _ hc
  | nop | awaitSet | grpStart | grpStop | softReset | pktStart | pktCont | fill | regWr | regRd => cases h

end Sys2Proof.Machine
end

