-- ==== Sys2Proof/Proofs/Encoding.lean ====
section
/-! The statements of spec/30_encoding.md. -/

namespace Sys2Proof.Machine

/-- Settles O5, by the instruction: a command is the word of its row of the opcode map, a packet is told apart by bit
0 of its header word, and the other formats carry their fields. -/
theorem decodeOfEncode : Obligations.DecodeOfEncode := by
  unfold Obligations.DecodeOfEncode
  intro i hwf
  cases i with
  | nop => exact decodeCommand_plain (op := 0x00) rfl
  | swBind c => exact decodeCommand_channel (op := 0x01) rfl c
  | unbind c => exact decodeCommand_channel (op := 0x02) rfl c
  | register c => exact decodeCommand_channel (op := 0x03) rfl c
  | deregister c => exact decodeCommand_channel (op := 0x04) rfl c
  | start c => exact decodeCommand_channel (op := 0x05) rfl c
  | stop c => exact decodeCommand_channel (op := 0x06) rfl c
  | rearm c => exact decodeCommand_channel (op := 0x07) rfl c
  | awaitSet => exact decodeCommand_plain (op := 0x08) rfl
  | grpStart => exact decodeCommand_plain (op := 0x09) rfl
  | grpStop => exact decodeCommand_plain (op := 0x0A) rfl
  | dmaSetup c => exact decodeCommand_channel (op := 0x10) rfl c
  | dmaAcquire c => exact decodeCommand_channel (op := 0x11) rfl c
  | dmaRelease c => exact decodeCommand_channel (op := 0x12) rfl c
  | dmaCancel c => exact decodeCommand_channel (op := 0x13) rfl c
  | dmaTeardown c => exact decodeCommand_channel (op := 0x14) rfl c
  | softReset => exact decodeCommand_plain (op := 0x7F) rfl
  | pktStart c hdr len p =>
    obtain ⟨hbit, hl⟩ := (pktStart_wf c hdr len p).1 hwf
    exact (decodePacket_of_length c hdr hl).trans (congrArg _ (if_pos hbit))
  | pktCont c hdr len p =>
    obtain ⟨hbit, hl⟩ := (pktCont_wf c hdr len p).1 hwf
    exact (decodePacket_of_length c hdr hl).trans (congrArg _ (if_neg (ne_true_of_eq_false hbit)))
  | fill c f => exact decodeFill_ok c ((fill_wf c f).1 hwf)
  | regWr addr w => rfl
  | regRd addr => rfl

/-- Settles O3: the decoder refuses the word, and both ways it can come answer with `E_BADOP` alone. -/
theorem unlistedCommandRefused : Obligations.UnlistedCommandRefused := by
  unfold Obligations.UnlistedCommandRefused
  intro s w hw
  obtain ⟨e, he⟩ := decodeCommand_of_not_listed hw
  refine ⟨⟨_, exec_cmdWrite_of_error he s, .of_finish _ _ _ _⟩, fun rest hev => ⟨_, ?_, .of_finish _ _ _ _⟩⟩
  exact (step_of_rejected hev he).trans (rejectInput_of_command he _)

/-- Settles O6, by the format of the input. -/
theorem encodeOfDecode : Obligations.EncodeOfDecode := by
  unfold Obligations.EncodeOfDecode
  intro x i h
  cases x with
  | command w =>
    obtain ⟨hwf, henc⟩ := encode_of_decodeCommand h
    exact ⟨hwf, .inl henc⟩
  | packet c hdr len p =>
    obtain ⟨hwf, henc⟩ := encode_of_decodePacket h
    exact ⟨hwf, .inl henc⟩
  | fill c f =>
    obtain ⟨hwf, henc⟩ := encode_of_decodeFill h
    exact ⟨hwf, .inl henc⟩
  | access we addr w =>
    cases we with
    | true => cases h; exact ⟨rfl, .inl rfl⟩
    | false => cases h; exact ⟨rfl, .inr ⟨addr, w, rfl, rfl⟩⟩

/-- Settles O4: each word is the command word of a row, each packet is told apart by bit 0 of its header word. -/
theorem writtenOutWordsDecode : Obligations.WrittenOutWordsDecode := by
  unfold Obligations.WrittenOutWordsDecode
  exact ⟨decodeCommand_plain (op := 0x00) rfl, decodeCommand_channel (op := 0x01) rfl 3,
    decodeCommand_plain (op := 0x09) rfl, decodeCommand_channel (op := 0x11) rfl 5,
    decodeCommand_plain (op := 0x7F) rfl, decodePacket_of_length 3 0xABCDEF01 rfl,
    decodePacket_of_length 3 0xABCDEF00 rfl, rfl⟩

/-- Settles O8: every such command begins with the channel check. -/
theorem badChannelRefused : Obligations.BadChannelRefused := by
  unfold Obligations.BadChannelRefused
  exact fun s i c hi hc => ⟨_, exec_of_no_channel hi hc, .of_finish s _ _ c⟩

/-- Settles O39: decoding looks at bit 0 of the header word, and neither meaning looks at the header word. -/
theorem headerBitZeroDecides : Obligations.HeaderBitZeroDecides := by
  unfold Obligations.HeaderBitZeroDecides
  exact fun s c hdr hdr' len p => ⟨decodePacket_of_length c hdr, rfl, rfl⟩

/-- Settles O60, one row of R104 at a time. -/
theorem requestWiresOfEveryRequest : Obligations.RequestWiresOfEveryRequest := by
  unfold Obligations.RequestWiresOfEveryRequest
  exact fun _ _ _ => ⟨rfl, rfl, rfl, rfl, rfl, rfl⟩

end Sys2Proof.Machine
end

