-- ==== Sys2Proof/Proofs/PacketEffects.lean ====
section
/-! SUPPORT. What one packet does, by what becomes of it: it is not delivered, it is dropped, it is counted by the
watchdog alone, it is copied and leaves its frame short, or it completes its frame (R121 to R130). -/

namespace Sys2Proof.Machine

/-! ### Bytes stored from an address up -/

/-- The bytes stand at `base` and up, and every other byte of frame memory reads as before (R72). -/
structure Stores (base : Nat) (bs : List Byte) (s t : State) : Prop where
  written : t.readBytes base bs.length = bs.map some
  outside : SameMemoryOutside base bs.length s t

theorem State.readBytes_add (s : State) (base m n : Nat) :
    s.readBytes base (m + n) = s.readBytes base m ++ s.readBytes (base + m) n := by
  simp [State.readBytes, List.range_add, Nat.add_assoc, Function.comp_def]

theorem SameMemoryOutside.readBytes_eq {base n addr m : Nat} {s t : State} (h : SameMemoryOutside base n s t)
    (hd : addr + m ≤ base ∨ base + n ≤ addr) : t.readBytes addr m = s.readBytes addr m := by
  refine List.map_congr_left fun i hi => h _ ?_
  have := List.mem_range.1 hi
  omega

/-- A store is told from the memory it starts from alone. -/
theorem Stores.of_mem {base : Nat} {bs : List Byte} {s s' t : State} (h : Stores base bs s t) (hm : s.mem = s'.mem) :
    Stores base bs s' t :=
  ⟨h.written, fun a ha => (h.outside a ha).trans (congrArg (Memory.read? · a) hm)⟩

/-- Bytes stored right behind those stored before are one store of both. -/
theorem Stores.append {base : Nat} {as bs : List Byte} {s t u : State} (h : Stores base as s t)
    (g : Stores (base + as.length) bs t u) : Stores base (as ++ bs) s u where
  written := by
    rw [List.length_append, State.readBytes_add, List.map_append, g.written,
      g.outside.readBytes_eq (.inl (Nat.le_refl _)), h.written]
  outside := fun a ha => by
    rw [List.length_append] at ha
    exact (g.outside a (by omega)).trans (h.outside a (by omega))

/-! ### A packet that is dropped, and one that is only counted -/

theorem deliver_body_next {s : State} {c : Chan} (hc : c.toNat < s.nch) {body : State → StepOutcome}
    (h : body s = .next s) : deliver c s body = .next s := by
  by_cases hd : Delivered s c
  · rw [deliver_of hd, h]
  · rw [deliver_of_not hd, if_neg (Nat.not_le.2 hc)]

/-- The gate of R128: a packet of a `Complete` channel is dropped whole. -/
theorem exec_packet_of_complete {s : State} {i : Instr} {c : Chan} {len : Word} {p : List Byte}
    (hi : IsPacket i c len p) (hc : c.toNat < s.nch) (hp : (s.slot c).progress = .complete) :
    exec i s = .next s := by
  obtain ⟨hdr, rfl | rfl⟩ := hi
  · change execPktStart c hdr len p s = _
    exact deliver_body_next hc (by simp only [hp])
  · change execPktCont c hdr len p s = _
    exact deliver_body_next hc (by simp only [hp])

/-- A continuation packet while `Idle` is left to the watchdog (R124 (a)). -/
theorem exec_pktCont_of_idle {s : State} {c : Chan} (hdr len : Word) (p : List Byte) (hd : Delivered s c)
    (hp : (s.slot c).progress = .idle) : exec (.pktCont c hdr len p) s = .next (watchdog c false s) := by
  change execPktCont c hdr len p s = _
  rw [execPktCont, deliver_of hd]
  simp only [hp]

/-! ### A packet that is copied -/

/-- A delivered packet of exactly `len` bytes whose copy starts at `off` of a buffer inside frame memory. -/
structure Copies (i : Instr) (c : Chan) (len : Word) (p : List Byte) (off : Nat) (s : State) : Prop where
  packet : IsPacket i c len p
  delivered : Delivered s c
  offset : copyOffset i (s.slot c) = some off
  length : p.length = len.toNat
  buffer : (s.slot c).dest.toNat + (s.slot c).expected.toNat ≤ s.params.memBytes

section
variable {i : Instr} {c : Chan} {len : Word} {p : List Byte} {off : Nat} {s : State}

/-- A copied packet that leaves its frame short is stored whole; the watchdog counts it, or gives the frame up at its
limit (R125, R130). -/
theorem Copies.short (h : Copies i c len p off s) (hshort : off + len.toNat < (s.slot c).expected.toNat) :
    ∃ t, exec i s = .next t ∧ PortEventFrame c s t ∧ Stores ((s.slot c).dest.toNat + off) p s t ∧
      t.awaiting = s.awaiting ∧
      if WatchdogFires (s.slot c) then
        t.slot c = { s.slot c with progress := .idle, woff := 0, wdcnt := 0, desync := true } ∧
        t.irqStatus = s.irqStatus ||| Irq.desync.bit
      else
        t.slot c = { s.slot c with
          progress := .inProgress, woff := BitVec.ofNat 32 (off + len.toNat)
          wdcnt := BitVec.ofNat 32 (nextWdcnt (s.slot c)) } ∧
        t.irqStatus = s.irqStatus := by
  obtain ⟨t, ht, hbytes, hout, hframe, u, rfl, hslot, hawait, hirq, hcount, hwoff⟩ :=
    takePayload_inside s c off len p _ rfl h.length h.buffer (by omega) len.toNat (by omega)
  obtain ⟨-, hawait', hcase⟩ := afterStore_short hcount.symm (by rw [hwoff, hslot]; exact hshort)
  have hall : p.take len.toNat = p := List.take_of_length_le h.length.le
  refine ⟨_, (exec_packet_copied h.packet h.delivered h.offset).trans ht, hframe, ⟨?_, ?_⟩,
    hawait'.trans hawait, ?_⟩
  · rw [h.length, hbytes, hall]
  · rw [h.length]; exact hout
  · rw [hslot, hirq] at hcase
    rw [BitVec.ofNat_add]
    exact hcase

/-- A copied packet that reaches the expected size completes its frame; only the bytes that fit are stored (R125 to
R127). -/
theorem Copies.complete (h : Copies i c len p off s) (hoff : off ≤ (s.slot c).expected.toNat)
    (hfull : (s.slot c).expected.toNat ≤ off + len.toNat) {n : Nat} (hn : n = (s.slot c).expected.toNat - off) :
    ∃ t, exec i s = .next t ∧ PortEventFrame c s t ∧ Stores ((s.slot c).dest.toNat + off) (p.take n) s t ∧
      t.slot c = { s.slot c with
        progress := .complete, caplen := (s.slot c).expected, woff := 0, wdcnt := 0
        ovf := (s.slot c).ovf || decide (n < len.toNat) } ∧
      t.awaiting.toNat = s.awaiting.toNat - 1 ∧
      t.irqStatus = s.irqStatus ||| Irq.frame.bit ||| (if n < len.toNat then Irq.payOvf.bit else 0) |||
        (if s.awaiting = 0 then Irq.awaitUf.bit else if s.awaiting = 1 then Irq.allDone.bit else 0) := by
  obtain ⟨t, ht, hbytes, hout, hframe, u, rfl, hslot, hawait, hirq, hcount, hwoff⟩ :=
    takePayload_inside s c off len p _ rfl h.length h.buffer hoff n (by omega)
  obtain ⟨hslot', hawait', hirq'⟩ := afterStore_complete hcount.symm (by rw [hwoff, hslot]; dsimp only; omega)
  have hlen : (p.take n).length = n := by rw [List.length_take, h.length]; omega
  have hcaplen : BitVec.ofNat 32 off + BitVec.ofNat 32 n = (s.slot c).expected := by
    rw [← BitVec.ofNat_add, hn, Nat.add_sub_cancel' hoff, BitVec.ofNat_toNat, BitVec.setWidth_eq]
  refine ⟨_, (exec_packet_copied h.packet h.delivered h.offset).trans ht, hframe, ⟨?_, ?_⟩, ?_, ?_, ?_⟩
  · rw [hlen, hbytes]
  · rw [hlen]; exact hout
  · rw [hslot', hslot]; dsimp only; rw [hcaplen]
  · rw [hawait', hawait, countDown_toNat]
  · rw [hirq', hirq, hawait]; ac_rfl

end

/-! ### The bytes a packet can change -/

/-- A copy stays inside the frame's buffer, whatever the offset (R125, R78). -/
theorem takePayload_outside {s t : State} {c : Chan} {len : Word} {p : List Byte}
    (h : takePayload c len p s = .next t) :
    SameMemoryOutside (s.slot c).dest.toNat (s.slot c).expected.toNat s t := by
  intro a ha
  rw [takePayload_eq] at h
  obtain ⟨u, hstore, h⟩ := andThen_eq_next h
  cases h
  have hmem : (afterStore c len u).readByte a = u.readByte a := congrArg (Memory.read? · a) (afterStore_mem c len u)
  refine hmem.trans (memWrite_outside hstore a ?_)
  rw [List.length_take, copyCount]
  omega

/-- A packet changes no byte outside its channel's buffer (R129). -/
theorem exec_packet_outside {s t : State} {i : Instr} {c : Chan} {len : Word} {p : List Byte}
    (hi : IsPacket i c len p) (h : exec i s = .next t) :
    SameMemoryOutside (s.slot c).dest.toNat (s.slot c).expected.toNat s t := by
  rcases exec_packet_next hi h with ⟨-, rfl⟩ | ⟨-, rfl⟩ | ⟨-, -, rfl⟩ | ⟨off, -, -, h⟩
  · exact fun _ _ => rfl
  · exact fun _ _ => rfl
  · exact fun a _ => congrArg (Memory.read? · a) (watchdog_mem c false s)
  · have hout := takePayload_outside h
    rw [atOffset, State.slot_updSlot_same] at hout
    exact hout

end Sys2Proof.Machine
end

