-- ==== Sys2Proof/Proofs/FrameAssembly.lean ====
section
/-! SUPPORT. A frame from its packets (R132): by induction over the packets still to come, of which every one but the
last leaves the frame short and the last completes it. -/

namespace Sys2Proof.Machine

/-! ### One packet from the list of waiting events -/

/-- The instruction a packet decodes to (R101). -/
def packetInstr (c : Chan) (x : Word × List Byte) : Instr :=
  if x.1.getLsbD 0 then .pktStart c x.1 (BitVec.ofNat 32 x.2.length) x.2
  else .pktCont c x.1 (BitVec.ofNat 32 x.2.length) x.2

theorem packetInstr_isPacket (c : Chan) (x : Word × List Byte) :
    IsPacket (packetInstr c x) c (BitVec.ofNat 32 x.2.length) x.2 := by
  unfold packetInstr
  split
  · exact ⟨x.1, .inl rfl⟩
  · exact ⟨x.1, .inr rfl⟩

/-- A packet of either kind is copied into a frame in progress at `woff` (R122). -/
theorem copyOffset_packetInstr_of_inProgress (c : Chan) (x : Word × List Byte) {k : Slot}
    (h : k.progress = .inProgress) : copyOffset (packetInstr c x) k = some k.woff.toNat := by
  unfold packetInstr
  split <;> simp only [copyOffset, h]

theorem step_of_packetEvents {s : State} {c : Chan} {x : Word × List Byte} {more : List (Word × List Byte)}
    {rest : List Event} (he : s.events = packetEvents c (x :: more) ++ rest) (hl : x.2.length < 2 ^ 32) :
    step s = exec (packetInstr c x) { s with events := packetEvents c more ++ rest } :=
  step_of_decoded he (decodePacket_of_length c x.1 (by rw [BitVec.toNat_ofNat, Nat.mod_eq_of_lt hl]))

@[simp] theorem joinPayloads_cons (x : Word × List Byte) (more : List (Word × List Byte)) :
    joinPayloads (x :: more) = x.2 ++ joinPayloads more := List.flatMap_cons

@[simp] theorem joinPayloads_nil : joinPayloads [] = [] := rfl

/-! ### The rest of a frame -/

/-- The waiting events begin with packets of one channel that carry just what its frame still misses from `off` on,
the last of them the first to reach the expected size, and they are too few for the watchdog to fire (R132). -/
structure RestOfFrame (c : Chan) (x : Word × List Byte) (more : List (Word × List Byte)) (rest : List Event)
    (off : Nat) (s : State) : Prop where
  delivered : Delivered s c
  buffer : (s.slot c).dest.toNat + (s.slot c).expected.toNat ≤ s.params.memBytes
  events : s.events = packetEvents c (x :: more) ++ rest
  offset : copyOffset (packetInstr c x) (s.slot c) = some off
  total : off + (joinPayloads (x :: more)).length = (s.slot c).expected.toNat
  earlier : off + (joinPayloads (x :: more).dropLast).length < (s.slot c).expected.toNat
  limit : (s.slot c).wdlim = 0 ∨ (s.slot c).wdcnt.toNat + (x :: more).length ≤ (s.slot c).wdlim.toNat

/-- The frame is complete, its rest stored from `off` on, and the packets are used up (R127, R132). -/
structure FrameAssembled (c : Chan) (bs : List Byte) (rest : List Event) (off : Nat) (s t : State) : Prop where
  slot : t.slot c = { s.slot c with progress := .complete, caplen := (s.slot c).expected, woff := 0, wdcnt := 0 }
  awaiting : t.awaiting.toNat = s.awaiting.toNat - 1
  irqStatus : t.irqStatus = s.irqStatus ||| Irq.frame.bit |||
    (if s.awaiting = 0 then Irq.awaitUf.bit else if s.awaiting = 1 then Irq.allDone.bit else 0)
  stores : Stores ((s.slot c).dest.toNat + off) bs s t
  others : OtherSlotsSame c s t
  events : t.events = rest

/-- A packet before the last was taken: the frame has grown by its payload, and the watchdog has counted it. -/
structure FrameGrown (c : Chan) (bs : List Byte) (off : Nat) (s t : State) : Prop where
  slot : t.slot c = { s.slot c with
    progress := .inProgress, woff := BitVec.ofNat 32 (off + bs.length)
    wdcnt := BitVec.ofNat 32 (nextWdcnt (s.slot c)) }
  awaiting : t.awaiting = s.awaiting
  irqStatus : t.irqStatus = s.irqStatus
  stores : Stores ((s.slot c).dest.toNat + off) bs s t
  others : OtherSlotsSame c s t

theorem FrameGrown.assembled {c : Chan} {as bs : List Byte} {rest : List Event} {off : Nat} {s t u : State}
    (h : FrameGrown c as off s t) (g : FrameAssembled c bs rest (off + as.length) t u) :
    FrameAssembled c (as ++ bs) rest off s u where
  slot := by rw [g.slot, h.slot]
  awaiting := by rw [g.awaiting, h.awaiting]
  irqStatus := by rw [g.irqStatus, h.irqStatus, h.awaiting]
  stores := by
    have hstores := g.stores
    rw [h.slot, ← Nat.add_assoc] at hstores
    exact h.stores.append hstores
  others := fun d hd => (g.others d hd).trans (h.others d hd)
  events := g.events

section
variable {c : Chan} {x y : Word × List Byte} {more : List (Word × List Byte)} {rest : List Event} {off : Nat}
  {s : State}

/-- No payload of a frame is longer than a 32-bit size. -/
theorem RestOfFrame.length_lt (h : RestOfFrame c x more rest off s) : x.2.length < 2 ^ 32 := by
  have htotal := h.total
  have := (s.slot c).expected.isLt
  rw [joinPayloads_cons, List.length_append] at htotal
  omega

theorem RestOfFrame.len_toNat (h : RestOfFrame c x more rest off s) :
    (BitVec.ofNat 32 x.2.length).toNat = x.2.length := by
  rw [BitVec.toNat_ofNat, Nat.mod_eq_of_lt h.length_lt]

theorem RestOfFrame.copies (h : RestOfFrame c x more rest off s) :
    Copies (packetInstr c x) c (BitVec.ofNat 32 x.2.length) x.2 off { s with events := packetEvents c more ++ rest } :=
  ⟨packetInstr_isPacket c x, h.delivered, h.offset, h.len_toNat.symm, h.buffer⟩

/-- The last packet of a frame completes it, with no byte over. -/
theorem RestOfFrame.step_last (h : RestOfFrame c x [] rest off s) :
    ∃ t, step s = .next t ∧ FrameAssembled c x.2 rest off s t := by
  have htotal := h.total
  rw [joinPayloads_cons, joinPayloads_nil, List.append_nil] at htotal
  have hoff : off ≤ (s.slot c).expected.toNat := by omega
  have hn : x.2.length = (s.slot c).expected.toNat - off := by omega
  obtain ⟨t, ht, hframe, hstores, hslot, hawait, hirq⟩ :=
    h.copies.complete hoff (by rw [h.len_toNat]; exact htotal.ge) hn
  have hfits : ¬ x.2.length < (BitVec.ofNat 32 x.2.length).toNat := by rw [h.len_toNat]; omega
  rw [List.take_length] at hstores
  refine ⟨t, (step_of_packetEvents h.events h.length_lt).trans ht, ?_, hawait, ?_, hstores.of_mem rfl,
    hframe.slots, hframe.host.events⟩
  · rw [hslot]; simp only [hfits, decide_false, Bool.or_false]; rfl
  · rw [hirq, if_neg hfits]; exact congrArg (· ||| _) BitVec.or_zero

/-- With a packet still to come, the watchdog does not fire. -/
theorem RestOfFrame.not_watchdogFires (h : RestOfFrame c x (y :: more) rest off s) : ¬ WatchdogFires (s.slot c) := by
  rintro ⟨hlim, hfires⟩
  have hlimit := h.limit.resolve_left hlim
  simp only [List.length_cons, nextWdcnt] at hlimit hfires
  omega

/-- A packet before the last leaves the frame short, and the packets after it carry the rest. -/
theorem RestOfFrame.step_more (h : RestOfFrame c x (y :: more) rest off s) :
    ∃ t, step s = .next t ∧ FrameGrown c x.2 off s t ∧ RestOfFrame c y more rest (off + x.2.length) t := by
  have htotal := h.total
  have hearlier := h.earlier
  rw [joinPayloads_cons, List.length_append] at htotal
  rw [List.dropLast_cons_cons, joinPayloads_cons, List.length_append] at hearlier
  have hshort : off + x.2.length < (s.slot c).expected.toNat := by omega
  obtain ⟨t, ht, hframe, hstores, hawait, hcase⟩ := h.copies.short (by rw [h.len_toNat]; exact hshort)
  obtain ⟨hslot, hirq⟩ := (if_neg h.not_watchdogFires).mp hcase
  rw [h.len_toNat] at hslot
  have hgrown : FrameGrown c x.2 off s t := ⟨hslot, hawait, hirq, hstores.of_mem rfl, hframe.slots⟩
  have hoff : (BitVec.ofNat 32 (off + x.2.length)).toNat = off + x.2.length := by
    rw [BitVec.toNat_ofNat, Nat.mod_eq_of_lt (hshort.trans (s.slot c).expected.isLt)]
  have hparams : t.params = s.params := hframe.host.params
  have hcount : (BitVec.ofNat 32 (nextWdcnt (s.slot c))).toNat ≤ (s.slot c).wdcnt.toNat + 1 := by
    rw [BitVec.toNat_ofNat]
    exact (Nat.mod_le _ _).trans (Nat.min_le_left _ _)
  refine ⟨t, (step_of_packetEvents h.events h.length_lt).trans ht, hgrown, ?_⟩
  exact {
    delivered := by
      obtain ⟨hc, hregistered, hreceiving⟩ := h.delivered
      rw [Delivered, State.nch, hparams, hslot]
      exact ⟨hc, hregistered, hreceiving⟩
    buffer := by rw [hslot, hparams]; exact h.buffer
    events := hframe.host.events
    offset := by rw [copyOffset_packetInstr_of_inProgress c y (by rw [hslot]), hslot, hoff]
    total := by rw [hgrown.slot]; dsimp only; omega
    earlier := by rw [hgrown.slot]; dsimp only; omega
    limit := by
      rw [hgrown.slot]
      refine h.limit.imp_right fun hlimit => ?_
      simp only [List.length_cons] at hlimit ⊢
      omega }

end

/-- The packets that carry the rest of a frame assemble it, one step each (R132). -/
theorem RestOfFrame.run {c : Chan} {rest : List Event} (more : List (Word × List Byte)) :
    ∀ {x : Word × List Byte} {off : Nat} {s : State}, RestOfFrame c x more rest off s →
      ∃ t : State, Sys2Proof.core.run (x :: more).length s = .next t ∧
        FrameAssembled c (joinPayloads (x :: more)) rest off s t := by
  induction more with
  | nil =>
    intro x off s h
    obtain ⟨t, ht, hdone⟩ := h.step_last
    refine ⟨t, core_run_succ ht, ?_⟩
    rw [joinPayloads_cons, joinPayloads_nil, List.append_nil]
    exact hdone
  | cons y more ih =>
    intro x off s h
    obtain ⟨u, hu, hgrown, hrest⟩ := h.step_more
    obtain ⟨t, ht, hdone⟩ := ih hrest
    refine ⟨t, (core_run_succ hu).trans ht, ?_⟩
    rw [joinPayloads_cons]
    exact hgrown.assembled hdone

end Sys2Proof.Machine
end

