-- ==== Sys2Proof/Proofs/PacketReassembly.lean ====
section
/-! The statements of spec/40_packet_reassembly.md. -/

namespace Sys2Proof.Machine

/-- Settles O36: the packet leaves its frame short and the watchdog counts it. -/
theorem packetCopied : Obligations.PacketCopied := by
  unfold Obligations.PacketCopied
  rintro s i c len p k off hi hd rfl ho hl hbuf hshort hfires
  obtain ⟨t, ht, hframe, hstores, hawait, hcase⟩ := (Copies.mk hi hd ho hl hbuf).short hshort
  obtain ⟨hslot, hirq⟩ := (if_neg hfires).mp hcase
  rw [← hl]
  exact ⟨t, ht, hframe, hawait, hirq, hl ▸ hslot, hstores.written, hstores.outside⟩

/-- Settles O37: the same packet where the watchdog fires. -/
theorem watchdogAbandonsFrame : Obligations.WatchdogAbandonsFrame := by
  unfold Obligations.WatchdogAbandonsFrame
  rintro s i c len p k off hi hd rfl ho hl hbuf hshort hfires
  obtain ⟨t, ht, hframe, hstores, hawait, hcase⟩ := (Copies.mk hi hd ho hl hbuf).short hshort
  obtain ⟨hslot, hirq⟩ := (if_pos hfires).mp hcase
  rw [← hl]
  exact ⟨t, ht, hframe, hawait, hirq, hslot, hstores.written, hstores.outside⟩

/-- Settles O38: the packet fills its frame, and the bytes that fit are as many as the frame still missed. -/
theorem packetCompletesFrame : Obligations.PacketCompletesFrame := by
  unfold Obligations.PacketCompletesFrame
  rintro s i c len p k off n hi hd rfl ho hl hbuf hoff hfull hn
  obtain ⟨t, ht, hframe, ⟨hwritten, hout⟩, hslot, hawait, hirq⟩ :=
    (Copies.mk hi hd ho hl hbuf).complete hoff hfull hn
  have hlen : (p.take n).length = n := by rw [List.length_take]; omega
  rw [hlen] at hwritten hout
  exact ⟨t, ht, hframe, hslot, hawait, hirq, hwritten, hout⟩

/-- Settles O52: the frame of a packet, and the bytes its one copy can change. -/
theorem packetIsolation : Obligations.PacketIsolation := by
  unfold Obligations.PacketIsolation
  exact fun s t i c len p hi h => ⟨exec_packet_frame hi h, exec_packet_outside hi h⟩

/-- Settles O55: from `Idle` the packets are the rest of a frame at offset 0. -/
theorem exactFrameAssembled : Obligations.ExactFrameAssembled := by
  unfold Obligations.ExactFrameAssembled
  rintro s c k ps hdr first more rest hd rfl hidle hbuf rfl hstart he htotal hearlier hlimit
  have hoffset : copyOffset (packetInstr c (hdr, first)) (s.slot c) = some 0 := by
    rw [packetInstr, if_pos hstart]
    simp only [copyOffset, hidle]
  have hwhole : RestOfFrame c (hdr, first) more rest 0 s :=
    ⟨hd, hbuf, he, hoffset, by rw [Nat.zero_add, htotal], by rw [Nat.zero_add]; exact hearlier, hlimit⟩
  obtain ⟨t, ht, hdone⟩ := hwhole.run
  have hstores := hdone.stores
  rw [Nat.add_zero] at hstores
  rw [← htotal]
  exact ⟨t, ht, hdone.slot, hdone.awaiting, hdone.irqStatus, hstores.written, hstores.outside, hdone.others,
    hdone.events⟩

/-- Settles O33: such a packet is not delivered, and only one of no channel leaves a trace. -/
theorem packetNotDelivered : Obligations.PacketNotDelivered := by
  unfold Obligations.PacketNotDelivered
  refine fun s i c len p hi => ⟨fun hc => ⟨s.irqSet .badCh, ?_, .irqSet c s _, rfl, rfl, rfl, fun _ => rfl⟩,
    fun hc hr => ⟨s, ?_, .refl s⟩⟩
  · rw [exec_packet_undelivered hi fun hd => Nat.not_le.2 hd.1 hc, if_pos hc]
  · rw [exec_packet_undelivered hi fun hd => hr hd.2, if_neg (Nat.not_le.2 hc)]

/-- Settles O34, by the gate of R128. -/
theorem completeGate : Obligations.CompleteGate := by
  unfold Obligations.CompleteGate
  exact fun s i c len p hi hc hp => ⟨s, exec_packet_of_complete hi hc hp, .refl s⟩

/-- Settles O35: the packet is left to the watchdog, which touches no memory. -/
theorem contWhileIdleOnlyCounts : Obligations.ContWhileIdleOnlyCounts := by
  unfold Obligations.ContWhileIdleOnlyCounts
  intro s c hdr len p hd hp
  obtain ⟨hframe, hmem, hawait, hcase⟩ := watchdog_short c s
  exact ⟨_, exec_pktCont_of_idle hdr len p hd hp, hframe, hawait, fun a => congrArg (Memory.read? · a) hmem,
    fun hfires => (if_pos hfires).mp hcase, fun hfires => (if_neg hfires).mp hcase⟩

end Sys2Proof.Machine
end

