-- ==== Sys2Proof/Proofs/GroupMask.lean ====
section
/-! SUPPORT. The group mask and its members (R93, R153): the check of the mask, and what the two group commands run for
a mask that passes it. -/

namespace Sys2Proof.Machine

/-! ### The members of a mask -/

/-- The lower half of the mask is `ARG0`, the upper one `ARG1` (R93). -/
theorem State.groupMask_getLsbD (s : State) (i : Nat) : s.groupMask.getLsbD i = selected s i :=
  BitVec.getLsbD_append

theorem mem_maskBits {mask : BitVec 64} {i : Nat} : i ∈ maskBits mask ↔ mask.getLsbD i = true := by
  unfold maskBits
  rw [List.mem_filter, List.mem_range, and_iff_right_iff_imp]
  exact BitVec.lt_of_getLsbD

theorem Chan.toNat_ofNat {i : Nat} (h : i < 64) : (BitVec.ofNat 6 i : Chan).toNat = i := by
  rw [BitVec.toNat_ofNat, Nat.mod_eq_of_lt h]

theorem toNat_ofNat_of_mem_maskBits {mask : BitVec 64} {i : Nat} (h : i ∈ maskBits mask) :
    (BitVec.ofNat 6 i).toNat = i :=
  Chan.toNat_ofNat (BitVec.lt_of_getLsbD (mem_maskBits.1 h))

theorem mem_members {mask : BitVec 64} {c : Chan} : c ∈ members mask ↔ mask.getLsbD c.toNat = true := by
  unfold members
  rw [List.mem_map, ← mem_maskBits]
  constructor
  · rintro ⟨i, hi, rfl⟩
    rwa [toNat_ofNat_of_mem_maskBits hi]
  · exact fun hc => ⟨c.toNat, hc, BitVec.eq_of_toNat_eq (Chan.toNat_ofNat c.isLt)⟩

theorem mem_members_groupMask {s : State} {c : Chan} : c ∈ members s.groupMask ↔ selected s c.toNat = true := by
  rw [mem_members, State.groupMask_getLsbD]

theorem members_ascending (mask : BitVec 64) : (members mask).Pairwise fun c d => c.toNat < d.toNat := by
  unfold members
  rw [List.pairwise_map]
  have hrange : (maskBits mask).Pairwise (· < ·) := List.pairwise_lt_range.filter _
  refine hrange.imp_of_mem fun hi hj hij => ?_
  rwa [toNat_ofNat_of_mem_maskBits hi, toNat_ofNat_of_mem_maskBits hj]

theorem members_groupMask_eq_nil_iff (s : State) : members s.groupMask = [] ↔ s.arg0 = 0 ∧ s.arg1 = 0 := by
  rw [List.eq_nil_iff_forall_not_mem]
  constructor
  · intro hnone
    have hbit : ∀ i < 64, selected s i = false := fun i hi => by
      have := hnone (BitVec.ofNat 6 i)
      rwa [mem_members_groupMask, Chan.toNat_ofNat hi, Bool.not_eq_true] at this
    refine ⟨BitVec.eq_of_getLsbD_eq fun i hi => ?_, BitVec.eq_of_getLsbD_eq fun i hi => ?_⟩
    · simpa [selected, hi] using hbit i (by omega)
    · simpa [selected] using hbit (i + 32) (by omega)
  · rintro ⟨h0, h1⟩ c
    simp [mem_members_groupMask, selected, h0, h1]

/-! ### The check of the mask -/

/-- The reported bit is the first member that names no channel (R153). -/
theorem lowestBadMember_eq (mask : BitVec 64) (nch : Nat) :
    lowestBadMember mask nch = (members mask).find? fun c => decide (nch ≤ c.toNat) := by
  unfold lowestBadMember members
  rw [List.find?_map]
  congr 1
  refine List.find?_congr fun i hi => ?_
  simp only [Function.comp_apply, toNat_ofNat_of_mem_maskBits hi]

theorem lowestBadMember_eq_none_iff (s : State) : lowestBadMember s.groupMask s.nch = none ↔ GoodMask s := by
  rw [lowestBadMember_eq, List.find?_eq_none]
  constructor
  · intro h i hi hs
    have := h (BitVec.ofNat 6 i)
    rw [mem_members_groupMask, Chan.toNat_ofNat hi] at this
    simpa using this hs
  · intro h c hc
    simpa using h c.toNat c.isLt (mem_members_groupMask.1 hc)

/-- The lowest bit of no channel is the one reported, since the members come in ascending order (R153). -/
theorem lowestBadMember_eq_some {s : State} {c : Chan} (hsel : selected s c.toNat = true) (hbad : s.nch ≤ c.toNat)
    (hlowest : ∀ d : Chan, d.toNat < c.toNat → selected s d.toNat = true → d.toNat < s.nch) :
    lowestBadMember s.groupMask s.nch = some c := by
  obtain ⟨before, after, hsplit⟩ := List.append_of_mem (mem_members_groupMask.2 hsel)
  rw [lowestBadMember_eq, List.find?_eq_some_iff_append]
  refine ⟨decide_eq_true hbad, before, after, hsplit, fun d hd => ?_⟩
  have hasc := members_ascending s.groupMask
  have hmem : d ∈ members s.groupMask := by simp [hsplit, hd]
  rw [hsplit, List.pairwise_append] at hasc
  obtain ⟨-, -, hlt⟩ := hasc
  simpa using hlowest d (hlt d hd c List.mem_cons_self) (mem_members_groupMask.1 hmem)

theorem onGroup_of_goodMask {s : State} (h : GoodMask s) (body : List Chan → State → State) :
    onGroup s body = .next (body (members s.groupMask) s) := by
  unfold onGroup
  rw [(lowestBadMember_eq_none_iff s).2 h]

theorem onGroup_of_lowestBadMember {s : State} {c : Chan} (h : lowestBadMember s.groupMask s.nch = some c)
    (body : List Chan → State → State) : onGroup s body = .next (s.finish .eBadCh .decode c) := by
  unfold onGroup
  rw [h]

/-- Without a good mask both group commands are refused for some channel (R153). -/
theorem exists_lowestBadMember {s : State} (h : ¬ GoodMask s) :
    ∃ c, lowestBadMember s.groupMask s.nch = some c :=
  Option.ne_none_iff_exists'.1 fun hnone => h ((lowestBadMember_eq_none_iff s).1 hnone)

/-- What a command did to every member and to no other channel, said by the mask bits (R93, R153). -/
theorem slot_eq_ite_selected {s t : State} {f : Slot → Slot}
    (hmember : ∀ c ∈ members s.groupMask, t.slot c = f (s.slot c))
    (hother : ∀ c, c ∉ members s.groupMask → t.slot c = s.slot c) (c : Chan) :
    t.slot c = if selected s c.toNat then f (s.slot c) else s.slot c := by
  split
  · exact hmember c (mem_members_groupMask.2 ‹_›)
  · exact hother c fun hc => absurd (mem_members_groupMask.1 hc) ‹_›

/-! ### The group commands -/

theorem exec_grpStart_of_lowestBadMember {s : State} {c : Chan} (h : lowestBadMember s.groupMask s.nch = some c) :
    exec .grpStart s = .next (s.finish .eBadCh .decode c) := by
  show execGrpStart s = _
  unfold execGrpStart
  rw [onGroup_of_lowestBadMember h]

theorem exec_grpStop_of_lowestBadMember {s : State} {c : Chan} (h : lowestBadMember s.groupMask s.nch = some c) :
    exec .grpStop s = .next (s.finish .eBadCh .decode c) := by
  show execGrpStop s = _
  unfold execGrpStop
  rw [onGroup_of_lowestBadMember h]

/-- `GRP_START` of no channel (R154). -/
theorem exec_grpStart_of_no_member {s : State} (h0 : s.arg0 = 0) (h1 : s.arg1 = 0) :
    exec .grpStart s = .next (s.finish .eArg .decode 0) := by
  have hempty : members s.groupMask = [] := (members_groupMask_eq_nil_iff s).2 ⟨h0, h1⟩
  have hgood : GoodMask s := (lowestBadMember_eq_none_iff s).1 (by rw [lowestBadMember_eq, hempty]; rfl)
  show execGrpStart s = _
  unfold execGrpStart
  rw [onGroup_of_goodMask hgood, if_pos hempty]

/-- `GRP_START` of some existing channels counts its members and starts them in turn (R154). -/
theorem exec_grpStart_of_goodMask {s : State} (h : GoodMask s) (hne : members s.groupMask ≠ []) :
    exec .grpStart s = .next (groupStart [] (members s.groupMask)
      (s.setAwaiting (BitVec.ofNat 32 (members s.groupMask).length))) := by
  show execGrpStart s = _
  unfold execGrpStart
  rw [onGroup_of_goodMask h, if_neg hne]

theorem exec_grpStop_of_goodMask {s : State} (h : GoodMask s) :
    exec .grpStop s = .next ((groupStop (members s.groupMask) none s).2.finishFirst
      (groupStop (members s.groupMask) none s).1 0) := by
  show execGrpStop s = _
  unfold execGrpStop
  rw [onGroup_of_goodMask h]

theorem GoodMask.members_length_le {s : State} (h : GoodMask s) : (members s.groupMask).length ≤ 64 :=
  (Machine.members_length_le ((lowestBadMember_eq_none_iff s).2 h)).trans s.nch_le

end Sys2Proof.Machine
end

