-- ==== Sys2Proof/Proofs/GroupStart.lean ====
section
/-! SUPPORT. A group start ends in one of two ways: every member starts (R154), or a first member fails and the members
before it are undone (R155). -/

namespace Sys2Proof.Machine

/-! ### Members that start and a member that fails -/

/-- The members can all be bound, and every request that starts them in order is answered positively (R154). -/
structure MembersStart (s : State) (group : List Chan) : Prop where
  startable : ∀ c ∈ group, Startable (s.slot c)
  answered : ∀ a ∈ s.answersTo (startRequests group), a.ok = true

theorem MembersStart.setAwaiting {s : State} {group : List Chan} (h : MembersStart s group) (n : Word) :
    MembersStart (s.setAwaiting n) group :=
  ⟨h.startable, by rw [State.setAwaiting_answersTo]; exact h.answered⟩

/-- The turn of member `c` with slot `k` fails with this code and step in a state that answers as `u` does; it sends
the requests and leaves the slot `l` (R154). -/
inductive MemberFails (k : Slot) (u : State) (c : Chan) : ResultCode → StepCode → List Request → Slot → Prop where
  | bind : ¬ Startable k → MemberFails k u c .eState .bind [] k
  | register : Startable k → (u.answerTo (.xpReg c)).ok = false →
      MemberFails k u c .eXport .register [.xpReg c] k.rearm
  | start : Startable k → (u.answerTo (.xpReg c)).ok = true →
      ((u.sent (.xpReg c)).answerTo (.xpStart c)).ok = false →
      MemberFails k u c .eXport .start [.xpReg c, .xpStart c, .xpDereg c] k.rearm

/-- A turn fails unless the member can be bound and both answers are positive (R154). -/
theorem exists_memberFails_iff (k : Slot) (u : State) (c : Chan) :
    (∃ code step qs l, MemberFails k u c code step qs l) ↔
      (¬ Startable k ∨ (u.answerTo (.xpReg c)).ok = false ∨
        ((u.sent (.xpReg c)).answerTo (.xpStart c)).ok = false) := by
  constructor
  · rintro ⟨_, _, _, _, hk | ⟨-, hreg⟩ | ⟨-, -, hstart⟩⟩
    · exact .inl hk
    · exact .inr (.inl hreg)
    · exact .inr (.inr hstart)
  · intro h
    by_cases hk : Startable k
    · cases hreg : (u.answerTo (.xpReg c)).ok with
      | false => exact ⟨_, _, _, _, .register hk hreg⟩
      | true => exact ⟨_, _, _, _, .start hk hreg (by simpa [hk, hreg] using h)⟩
    · exact ⟨_, _, _, _, .bind hk⟩

/-- The slot a failing turn leaves is as it was or re-armed (R154). -/
theorem MemberFails.slot_eq {k l : Slot} {u : State} {c : Chan} {code : ResultCode} {step : StepCode}
    {qs : List Request} (h : MemberFails k u c code step qs l) : l = k ∨ l = k.rearm := by
  cases h with
  | bind => exact .inl rfl
  | register => exact .inr rfl
  | start => exact .inr rfl

/-- A failing turn sees the requests sent before it and nothing else of the state (R12). -/
theorem MemberFails.of_sends {k l : Slot} {s u : State} {c : Chan} {code : ResultCode} {step : StepCode}
    {rs qs : List Request} (hu : Sends rs s u) (h : MemberFails k (s.sentAll rs) c code step qs l) :
    MemberFails k u c code step qs l := by
  have hreg := hu.answerTo (.xpReg c)
  have hstart : (u.sent (.xpReg c)).answerTo (.xpStart c) =
      ((s.sentAll rs).sent (.xpReg c)).answerTo (.xpStart c) := by
    simpa [hreg] using hu.answersTo [.xpReg c, .xpStart c]
  cases h with
  | bind hk => exact .bind hk
  | register hk hr => exact .register hk (hreg ▸ hr)
  | start hk hr hs => exact .start hk (hreg ▸ hr) (hstart ▸ hs)

theorem MemberFails.setAwaiting {k l : Slot} {s : State} {c : Chan} {code : ResultCode} {step : StepCode}
    {rs qs : List Request} (h : MemberFails k (s.sentAll rs) c code step qs l) (n : Word) :
    MemberFails k ((s.setAwaiting n).sentAll rs) c code step qs l :=
  have hsends : Sends rs s ((s.setAwaiting n).sentAll rs) := (s.setAwaiting n).sentAll_sends rs
  h.of_sends hsends

/-- Either every member starts or a first one fails (R154). -/
theorem membersStart_or_fails (s : State) (group : List Chan) :
    MembersStart s group ∨ ∃ before c after code step qs l, group = before ++ c :: after ∧ MembersStart s before ∧
      MemberFails (s.slot c) (s.sentAll (startRequests before)) c code step qs l := by
  induction group using List.reverseRecOn with
  | nil => exact .inl ⟨nofun, nofun⟩
  | append_singleton group c ih =>
    rcases ih with h | ⟨before, d, after, code, step, qs, l, rfl, hbefore, hfails⟩
    · by_cases hc : ∃ code step qs l,
        MemberFails (s.slot c) (s.sentAll (startRequests group)) c code step qs l
      · obtain ⟨code, step, qs, l, hfails⟩ := hc
        exact .inr ⟨group, c, [], code, step, qs, l, rfl, h, hfails⟩
      · rw [exists_memberFails_iff] at hc
        simp only [not_or, not_not, Bool.not_eq_false] at hc
        obtain ⟨hk, hreg, hstart⟩ := hc
        refine .inl ⟨fun d hd => ?_, fun a ha => ?_⟩
        · rcases List.mem_append.1 hd with hd | hd
          · exact h.startable d hd
          · rw [List.mem_singleton.1 hd]
            exact hk
        · have happ : startRequests (group ++ [c]) = startRequests group ++ [.xpReg c, .xpStart c] := by
            simp [startRequests]
          rw [happ, State.answersTo_append, List.mem_append] at ha
          rcases ha with ha | ha
          · exact h.answered a ha
          · simp only [State.answersTo_cons, State.answersTo_nil, List.mem_cons, List.not_mem_nil, or_false] at ha
            rcases ha with rfl | rfl
            · exact hreg
            · exact hstart
    · exact .inr ⟨before, d, after ++ [c], code, step, qs, l, by simp, hbefore, hfails⟩

/-! ### The two ends of the member loop -/

/-- The turn of a failing member: the members before it are rolled back after its own requests (R154, R155). -/
theorem MemberFails.groupStart_eq {u : State} {c : Chan} {code : ResultCode} {step : StepCode} {qs : List Request}
    {l : Slot} (h : MemberFails (u.slot c) u c code step qs l) (started rest : List Chan) :
    ∃ w, groupStart started (c :: rest) u = (rollback started w).finish code step c ∧ GroupFrame [c] qs u w ∧
      w.slot c = l := by
  cases h with
  | bind hk => exact ⟨u, groupStart_bind hk, .mono (.refl u) nofun, rfl⟩
  | register hk hreg =>
    refine ⟨_, groupStart_register hk hreg, ⟨fun d hd => ?_, rfl, (KeepsGlobals.updSlot u c _).trans (.sent _ _), rfl,
      rfl, List.drop_one.symm⟩, State.slot_updSlot_same u c _⟩
    exact State.slot_updSlot_ne u c d _ (by simpa using hd)
  | start hk hreg hstart => exact groupStart_start hk hreg hstart

/-- A member's slot once it is undone (R155). -/
def Slot.undone (k : Slot) : Slot := { k.rearm with registered := false, receiving := false }

/-- A member that was quiet before its start is only re-armed once it is undone (R155). -/
theorem Slot.undone_of_quiet {k : Slot} (hr : k.registered = false) (hv : k.receiving = false) :
    k.undone = k.rearm := by
  cases k
  cases hr
  cases hv
  rfl

/-- The loop over distinct members of which `c` is the first to fail (R154, R155). -/
theorem groupStart_fails {s : State} {before after : List Chan} {c : Chan} {code : ResultCode} {step : StepCode}
    {qs : List Request} {l : Slot} (hn : (before ++ c :: after).Nodup) (hbefore : MembersStart s before)
    (hc : MemberFails (s.slot c) (s.sentAll (startRequests before)) c code step qs l) :
    ∃ t, groupStart [] (before ++ c :: after) s = t.finish code step c ∧
      GroupFrame (before ++ [c]) (startRequests before ++ qs ++ undoRequests before.reverse) s t ∧
      (∀ d ∈ before, t.slot d = (s.slot d).undone) ∧ t.slot c = l := by
  obtain ⟨hbn, -, hdisjoint⟩ := List.nodup_append.1 hn
  have hne : ∀ d ∈ before, d ≠ c := fun d hd => hdisjoint d hd c List.mem_cons_self
  have hcb : c ∉ before := fun hd => hne c hd rfl
  obtain ⟨v, hv, hframe, hstarted⟩ :=
    groupStart_started before [] (c :: after) s hbn hbefore.startable hbefore.answered
  have hvc : v.slot c = s.slot c := hframe.others c hcb
  have hfails : MemberFails (v.slot c) v c code step qs l := hvc ▸ hc.of_sends hframe.sends
  obtain ⟨w, hw, hturn, hwc⟩ := hfails.groupStart_eq before.reverse after
  obtain ⟨hback, hundone⟩ := rollback_frame before.reverse w (List.nodup_reverse.2 hbn)
  refine ⟨rollback before.reverse w, ?_, ((hframe.trans hturn).trans hback).mono fun d hd => ?_,
    fun d hd => ?_, ?_⟩
  · rw [hv, List.append_nil, hw]
  · exact (List.mem_append.1 hd).elim id fun hr => List.mem_append_left _ (List.mem_reverse.1 hr)
  · rw [hundone d (List.mem_reverse.2 hd), hturn.others d (by simpa using hne d hd), hstarted d hd]
    rfl
  · rw [hback.others c (by simpa using hcb), hwc]

/-! ### The command -/

/-- What a group start of `n` members leaves, however it ends: `awaiting` is the number of members, and nothing else
but `RESULT`, the slots of the members whose turn came and the requests changes (R154). -/
structure GroupStartFrame (n : Nat) (turns : List Chan) (rs : List Request) (s t : State) : Prop where
  awaiting : t.awaiting.toNat = n
  others : ∀ d, d ∉ turns → t.slot d = s.slot d
  memory : SameMemory s t
  host : KeepsHostSide s t
  ret0 : t.ret0 = s.ret0
  ret1 : t.ret1 = s.ret1
  irqStatus : t.irqStatus = s.irqStatus
  sends : Sends rs s t

theorem GroupFrame.groupStartFrame {n : Nat} {turns : List Chan} {rs : List Request} {s w : State} (hn : n ≤ 64)
    (h : GroupFrame turns rs (s.setAwaiting (BitVec.ofNat 32 n)) w) (code : ResultCode) (step : StepCode) (c : Chan) :
    GroupStartFrame n turns rs s (w.finish code step c) where
  awaiting := by
    rw [State.finish_awaiting, h.globals.awaiting, State.setAwaiting_awaiting, BitVec.toNat_ofNat]
    omega
  others := h.others
  memory := fun a => congrArg (Memory.read? · a) h.memory
  host :=
    have hset : KeepsHostSide s (s.setAwaiting (BitVec.ofNat 32 n)) := ⟨rfl, rfl, rfl, rfl, rfl, rfl, rfl, rfl⟩
    (hset.trans h.globals.toKeepsHostSide).trans (KeepsGlobals.finish w _ _ _).toKeepsHostSide
  ret0 := h.globals.ret0
  ret1 := h.globals.ret1
  irqStatus := h.globals.irqStatus
  sends := h.sends

/-- `GRP_START` where every member starts (R154). -/
theorem exec_grpStart_of_membersStart {s : State} (hgood : GoodMask s) (hne : members s.groupMask ≠ [])
    (h : MembersStart s (members s.groupMask)) :
    ∃ t, exec .grpStart s = .next t ∧ Finished .ok .none 0 t ∧
      GroupStartFrame (members s.groupMask).length (members s.groupMask) (startRequests (members s.groupMask)) s t ∧
      ∀ c ∈ members s.groupMask, t.slot c = (s.slot c).started := by
  have hcount := h.setAwaiting (BitVec.ofNat 32 (members s.groupMask).length)
  obtain ⟨v, hv, hframe, hslots⟩ :=
    groupStart_started (members s.groupMask) [] [] _ (members_nodup _) hcount.startable hcount.answered
  rw [List.append_nil] at hv
  refine ⟨v.finish .ok .none 0, ?_, rfl, hframe.groupStartFrame hgood.members_length_le .ok .none 0, hslots⟩
  rw [exec_grpStart_of_goodMask hgood hne, hv]
  rfl

/-- `GRP_START` where `c` is the first member to fail (R154, R155). -/
theorem exec_grpStart_of_memberFails {s : State} {before after : List Chan} {c : Chan} {code : ResultCode}
    {step : StepCode} {qs : List Request} {l : Slot} (hgood : GoodMask s)
    (hsplit : members s.groupMask = before ++ c :: after) (hbefore : MembersStart s before)
    (hc : MemberFails (s.slot c) (s.sentAll (startRequests before)) c code step qs l) :
    ∃ t, exec .grpStart s = .next t ∧ Finished code step c t ∧
      GroupStartFrame (members s.groupMask).length (before ++ [c])
        (startRequests before ++ qs ++ undoRequests before.reverse) s t ∧
      (∀ d ∈ before, t.slot d = (s.slot d).undone) ∧ t.slot c = l := by
  have hn : (before ++ c :: after).Nodup := hsplit ▸ members_nodup _
  have hne : members s.groupMask ≠ [] := by simp [hsplit]
  obtain ⟨w, hw, hframe, hslots⟩ := groupStart_fails hn
    (hbefore.setAwaiting (BitVec.ofNat 32 (members s.groupMask).length)) (hc.setAwaiting _)
  refine ⟨w.finish code step c, ?_, rfl, hframe.groupStartFrame hgood.members_length_le code step c, hslots⟩
  rw [exec_grpStart_of_goodMask hgood hne, ← hw, ← hsplit]

end Sys2Proof.Machine
end

