-- ==== Sys2Proof/Proofs/GroupStop.lean ====
section
/-! SUPPORT. What `GRP_STOP` leaves once its first failure is reported (R156). -/

namespace Sys2Proof.Machine

/-! ### `State.finishFirst` -/

@[simp] theorem State.finishFirst_slot (s : State) (first : Option Failure) (c d : Chan) :
    (s.finishFirst first c).slot d = s.slot d := by cases first <;> rfl

@[simp] theorem State.finishFirst_mem (s : State) (first : Option Failure) (c : Chan) :
    (s.finishFirst first c).mem = s.mem := by cases first <;> rfl

@[simp] theorem State.finishFirst_requests (s : State) (first : Option Failure) (c : Chan) :
    (s.finishFirst first c).requests = s.requests := by cases first <;> rfl

@[simp] theorem State.finishFirst_answers (s : State) (first : Option Failure) (c : Chan) :
    (s.finishFirst first c).answers = s.answers := by cases first <;> rfl

theorem KeepsGlobals.finishFirst (s : State) (first : Option Failure) (c : Chan) :
    KeepsGlobals s (s.finishFirst first c) := by
  cases first with
  | none => exact .finish s _ _ _
  | some f => exact .finish s _ _ _

/-! ### The tear-down of a member -/

/-- The slot both tear-down steps leave, by whether a frame is in flight (R156). -/
theorem Slot.tornTransport_eq (k : Slot) : k.tornTransport =
    if k.receiving = true ∧ k.progress = .inProgress then
      { k with registered := false, receiving := false, progress := .idle, woff := 0, wdcnt := 0 }
    else { k with registered := false, receiving := false } := by
  unfold Slot.tornTransport Slot.abandon
  cases hreceiving : k.receiving with
  | false => cases k; simp_all
  | true => cases hp : k.progress <;> simp

/-- A failed request of a tear-down is reported as the statements say (R156, R205). -/
theorem failureReported_of_mem_tearRequests {k : Slot} {c d : Chan} {r : Request} (h : r ∈ tearRequests k c)
    (s : State) : FailureReported r (s.finishFirst (some (failureOf r)) d) := by
  unfold tearRequests at h
  rcases List.mem_append.1 h with h | h <;> split at h
  · rw [List.mem_singleton.1 h]
    rfl
  · cases h
  · rw [List.mem_singleton.1 h]
    rfl
  · cases h

/-! ### The command -/

/-- `GRP_STOP` of existing channels tears every member down and reports the first failure (R156). -/
theorem exec_grpStop_effect {s : State} {rs : List Request} (hgood : GoodMask s)
    (hrs : rs = (members s.groupMask).flatMap fun c => tearRequests (s.slot c) c) :
    ∃ u, exec .grpStop s = .next (u.finishFirst (firstFailure rs (s.answersTo rs)) 0) ∧
      GroupFrame (members s.groupMask) rs s u ∧ ∀ c ∈ members s.groupMask, u.slot c = (s.slot c).tornTransport := by
  have hn : (members s.groupMask).Nodup := members_nodup _
  obtain ⟨hframe, hslots⟩ := groupStop_frame (members s.groupMask) none s hn
  have hfirst := groupStop_failure (members s.groupMask) none s hn
  rw [Option.none_or, ← hrs] at hfirst
  refine ⟨_, ?_, hrs ▸ hframe, hslots⟩
  rw [exec_grpStop_of_goodMask hgood, hfirst]

end Sys2Proof.Machine
end

