-- ==== Sys2Proof/Proofs/SyncMonitor.lean ====
section
/-! The statements of spec/41_sync_monitor.md. -/

namespace Sys2Proof.Machine

/-- Settles O18: the bits of the mask, filtered from the numbers in rising order. -/
theorem groupMembersAscending : Obligations.GroupMembersAscending := by
  unfold Obligations.GroupMembersAscending
  exact fun s => ⟨fun _ => mem_members_groupMask, members_ascending _⟩

/-- Settles O19, by the check of the mask and the check for an empty group. -/
theorem groupOperandChecked : Obligations.GroupOperandChecked := by
  unfold Obligations.GroupOperandChecked
  refine fun s => ⟨fun c hsel hbad hlowest => ?_, fun h0 h1 =>
    ⟨_, exec_grpStart_of_no_member h0 h1, .of_finish s _ _ _⟩⟩
  have hc := lowestBadMember_eq_some hsel hbad hlowest
  exact ⟨⟨_, exec_grpStart_of_lowestBadMember hc, .of_finish s _ _ _⟩,
    ⟨_, exec_grpStop_of_lowestBadMember hc, .of_finish s _ _ _⟩⟩

/-- Settles O20: the end of the member loop in which every member starts. -/
theorem grpStartStartsEveryMember : Obligations.GrpStartStartsEveryMember := by
  unfold Obligations.GrpStartStartsEveryMember
  intro s hgood hmask hstartable hanswers
  have hne : members s.groupMask ≠ [] := fun h => hmask ((members_groupMask_eq_nil_iff s).1 h)
  obtain ⟨t, ht, hres, hframe, hslots⟩ := exec_grpStart_of_membersStart hgood hne
    ⟨fun c hc => hstartable c (mem_members_groupMask.1 hc), hanswers⟩
  exact ⟨t, ht, hres, hframe.awaiting, slot_eq_ite_selected hslots hframe.others, hframe.sends, hframe.memory,
    hframe.host, hframe.ret0, hframe.ret1, hframe.irqStatus⟩

/-- Settles O21: the end of the member loop in which `c` fails, read off for each of the three failing steps. -/
theorem grpStartRollsBack : Obligations.GrpStartRollsBack := by
  unfold Obligations.GrpStartRollsBack
  rintro s u before after c hgood hsplit hstartable hanswers rfl hfails
  obtain ⟨code, step, qs, l, hc⟩ := (exists_memberFails_iff _ _ _).2 hfails
  obtain ⟨t, ht, hres, hframe, hundone, hslot⟩ :=
    exec_grpStart_of_memberFails hgood hsplit ⟨hstartable, hanswers⟩ hc
  have hsends := hframe.sends
  refine ⟨t, ht, hframe.awaiting, hundone, fun d hd hdc => hframe.others d (by simp [hd, hdc]), hframe.memory,
    hframe.host, hframe.ret0, hframe.ret1, hframe.irqStatus, ?_⟩
  cases hc with
  | bind hk =>
    rw [List.append_nil] at hsends
    exact ⟨fun _ => ⟨hres, hslot, hsends⟩, (absurd · hk), (absurd · hk), (absurd · hk)⟩
  | register hk hreg =>
    exact ⟨(absurd hk ·), fun _ => hslot, fun _ _ => ⟨hres, hsends⟩, fun _ h => absurd (hreg.symm.trans h) nofun⟩
  | start hk hreg hstart =>
    exact ⟨(absurd hk ·), fun _ => hslot, fun _ h => absurd (hreg.symm.trans h) nofun, fun _ _ => ⟨hres, hsends⟩⟩

/-- Settles O22: a start that is refused leaves the slots alone, and one that fails at a member undoes the members
before it, which R48 (v) keeps quiet until they start. -/
theorem grpStartAllOrNothing : Obligations.GrpStartAllOrNothing := by
  unfold Obligations.GrpStartAllOrNothing
  intro s t hinv ht hcode d
  change t.slot d = s.slot d ∨ t.slot d = (s.slot d).rearm
  by_cases hgood : GoodMask s
  swap
  · obtain ⟨c, hc⟩ := exists_lowestBadMember hgood
    cases ht.symm.trans (exec_grpStart_of_lowestBadMember hc)
    exact .inl rfl
  by_cases hempty : members s.groupMask = []
  · obtain ⟨h0, h1⟩ := (members_groupMask_eq_nil_iff s).1 hempty
    cases ht.symm.trans (exec_grpStart_of_no_member h0 h1)
    exact .inl rfl
  rcases membersStart_or_fails s (members s.groupMask) with
    hall | ⟨before, c, after, code, step, qs, l, hsplit, hbefore, hfails⟩
  · obtain ⟨v, hv, hres, -⟩ := exec_grpStart_of_membersStart hgood hempty hall
    cases ht.symm.trans hv
    exact absurd (congrArg CmdResult.code hres) hcode
  · obtain ⟨v, hv, -, hframe, hundone, hslot⟩ := exec_grpStart_of_memberFails hgood hsplit hbefore hfails
    cases ht.symm.trans hv
    by_cases hd : d ∈ before
    · obtain ⟨-, -, hregistered⟩ := hbefore.startable d hd
      have hsel : selected s d.toNat = true := mem_members_groupMask.1 (by simp [hsplit, hd])
      have hreceiving : (s.slot d).receiving = false := by
        rw [← Bool.not_eq_true]
        intro hv
        have := (hinv.slot d (hgood d.toNat d.isLt hsel)).receiving hv
        rw [hregistered] at this
        cases this
      exact .inr ((hundone d hd).trans (Slot.undone_of_quiet hregistered hreceiving))
    · by_cases hdc : d = c
      · rw [hdc, hslot]
        exact hfails.slot_eq
      · exact .inl (hframe.others d (by simp [hd, hdc]))

/-- Settles O23: the member loop tears every member down, and its first failure is the first negative answer. -/
theorem grpStopStopsEveryMember : Obligations.GrpStopStopsEveryMember := by
  unfold Obligations.GrpStopStopsEveryMember
  intro s hgood
  obtain ⟨u, hu, hframe, hslots⟩ := exec_grpStop_effect hgood rfl
  refine ⟨_, hu, fun c => ?_, fun a => ?_, hframe.globals.trans (.finishFirst u _ _), fun rs hrs => ?_⟩
  · rw [State.finishFirst_slot, ← Slot.tornTransport_eq]
    exact slot_eq_ite_selected hslots hframe.others c
  · exact congrArg (Memory.read? · a) ((State.finishFirst_mem u _ _).trans hframe.memory)
  · rw [← hrs] at hframe ⊢
    refine ⟨⟨?_, ?_⟩, fun hok => ?_, fun n r a hr ha hno hbefore => ?_⟩
    · rw [State.finishFirst_requests, hframe.sends.1]
    · rw [State.finishFirst_answers, hframe.sends.2]
    · rw [firstFailure_of_ok rs _ hok]
      rfl
    · rw [firstFailure_of_first rs _ n r a hr ha hno hbefore]
      have hmem : r ∈ rs := List.mem_of_getElem? hr
      rw [hrs, List.mem_flatMap] at hmem
      obtain ⟨c, -, hc⟩ := hmem
      exact failureReported_of_mem_tearRequests hc u

/-- Settles O17, by the one comparison of R152. -/
theorem awaitSetResult : Obligations.AwaitSetResult := by
  unfold Obligations.AwaitSetResult
  intro s
  by_cases h : s.nch < s.arg0.toNat
  · exact ⟨_, if_pos h, (if_pos h).mpr (.of_finish s _ _ _)⟩
  · exact ⟨_, if_neg h, (if_neg h).mpr ⟨rfl, rfl, rfl, rfl, rfl, ⟨rfl, rfl, rfl, rfl, rfl, rfl, rfl, rfl⟩, fun _ => rfl,
      fun _ => rfl, rfl, rfl⟩⟩

end Sys2Proof.Machine
end

