-- ==== Sys2Proof/Proofs/RingFootprint.lean ====
section
/-! SUPPORT. Where the slots of a ring lie (R170), and which bytes of frame memory a step can change while the
invariants hold (R77, R78). -/

namespace Sys2Proof.Machine

/-! ### Where the slots of a ring lie -/

/-- The byte address lies in ring slot `i` (R170). -/
def inRingSlot (k : Slot) (i a : Nat) : Prop := k.slotAddr i ≤ a ∧ a < k.slotAddr i + k.slotSize.toNat

/-- Ring slots do not overlap (R170). -/
theorem inRingSlot_unique {k : Slot} {i j a : Nat} (hi : inRingSlot k i a) (hj : inRingSlot k j a) : i = j := by
  have apart : ∀ {m n : Nat}, m < n → k.slotAddr m + k.slotSize.toNat ≤ k.slotAddr n := fun {m n} h => by
    have := Nat.mul_le_mul_right k.slotSize.toNat h
    rw [Nat.succ_mul] at this
    unfold Slot.slotAddr
    omega
  obtain ⟨hi1, hi2⟩ := hi
  obtain ⟨hj1, hj2⟩ := hj
  rcases Nat.lt_trichotomy i j with h | h | h
  · have := apart h
    omega
  · exact h
  · have := apart h
    omega

/-- The slots of a ring lie in its region (R77, R170). -/
theorem inRegion_of_inRingSlot {k : Slot} {i a : Nat} (hd : k.isDma = true) (hi : i < k.ringB.toNat)
    (h : inRingSlot k i a) : inRegion k a := by
  obtain ⟨-, hmode⟩ := (Slot.isDma_iff k).1 hd
  have hend := Nat.mul_le_mul_right k.slotSize.toNat hi
  rw [Nat.succ_mul] at hend
  obtain ⟨h1, h2⟩ := h
  unfold Slot.slotAddr at h1 h2
  unfold inRegion
  rw [if_neg (by rw [hmode]; exact nofun)]
  omega

/-! ### Who can change a byte -/

/-- A packet changes no byte but those of the buffer of its channel's software session (R129, R48 (v)). -/
theorem exec_packet_changes {s t : State} {i : Instr} {c : Chan} {len : Word} {p : List Byte} {a : Nat}
    (hinv : ChannelsInv s) (hi : IsPacket i c len p) (h : exec i s = .next t) (ha : t.readByte a ≠ s.readByte a) :
    (s.slot c).isSoftware = true ∧ inRegion (s.slot c) a := by
  have hdelivered : Delivered s c := by
    by_contra hd
    rw [exec_packet_undelivered hi hd] at h
    cases h
    split at ha <;> exact ha rfl
  obtain ⟨hc, hreg, -⟩ := hdelivered
  obtain ⟨huse, hmode⟩ := (hinv.slot c hc).registered hreg
  refine ⟨(Slot.isSoftware_iff _).2 ⟨huse, hmode⟩, ?_⟩
  unfold inRegion
  rw [if_pos hmode]
  exact not_not.1 fun hout => ha (exec_packet_outside hi h a hout)

/-- A fill changes no byte but those of a ring slot that is queued empty (R78). -/
theorem execFill_changes {s t : State} {c : Chan} {f : List Byte} {a : Nat} (hrings : RingsInv s)
    (h : execFill c f s = .next t) (ha : t.readByte a ≠ s.readByte a) :
    (s.slot c).isDma = true ∧ (s.slot c).ringAt (s.slot c).fillIdx.toNat = .queuedEmpty ∧
      inRingSlot (s.slot c) (s.slot c).fillIdx.toNat a := by
  have hq : (s.slot c).ringAt (s.slot c).fillIdx.toNat = .queuedEmpty :=
    not_not.1 fun hq => ha (execFill_without_room hq h a)
  have hd : (s.slot c).isDma = true := by
    rcases execFill_next h with ⟨-, rfl⟩ | ⟨-, -, rfl⟩ | ⟨-, hd, -⟩ | ⟨-, hd, -⟩
    · exact absurd rfl ha
    · exact absurd rfl ha
    · exact hd
    · exact hd
  have hsize := (hrings c hd).region.2.1
  exact ⟨hd, hq, not_not.1 fun hout => ha (execFill_outside hsize h a hout)⟩

/-- Under the invariants a step other than a host write changes a byte only in the buffer of a software session or in
a ring slot that is queued empty (R77, R78). -/
theorem step_changes {s t : State} {a : Nat} (hinv : ChannelsInv s) (hrings : RingsInv s)
    (hhost : ∀ addr v rest, s.events ≠ .hostMemWrite addr v :: rest) (h : step s = .next t)
    (ha : t.readByte a ≠ s.readByte a) :
    ∃ d, ((s.slot d).isSoftware = true ∧ inRegion (s.slot d) a) ∨
      ((s.slot d).isDma = true ∧ (s.slot d).ringAt (s.slot d).fillIdx.toNat = .queuedEmpty ∧
        inRingSlot (s.slot d) (s.slot d).fillIdx.toNat a) := by
  have same : t.mem ≠ s.mem := fun e => ha (congrArg (Memory.read? · a) e)
  rcases step_cases h with rfl | ⟨e, rest, he, s', rfl, ⟨_, _, -, h⟩ | ⟨addr, v, rfl, -⟩ |
    ⟨x, -, h | h | ⟨i, d, len, p, hi, -, h⟩ | ⟨d, f, h⟩⟩⟩
  · exact absurd rfl same
  · exact absurd (by rw [h]) same
  · exact absurd he (hhost addr v rest)
  · exact absurd h.frame.memory same
  · exact absurd (by rw [h]) same
  · exact ⟨d, .inl (exec_packet_changes (s := { s with events := rest }) ⟨hinv.slot, hinv.noSlot, hinv.awaiting⟩
      hi h ha)⟩
  · exact ⟨d, .inr (execFill_changes (s := { s with events := rest }) hrings h ha)⟩

end Sys2Proof.Machine
end

