-- ==== Sys2Proof/Proofs/RingSlots.lean ====
section
/-! SUPPORT. What the ring operations do to a channel slot (R172 to R190): a fill, a fill that completes a pending
acquire, a setup, a release and the hand-over of an acquire. -/

namespace Sys2Proof.Machine

/-! ### The slots of a ring under a fill -/

/-- A slot that is no ring, in the words of the statements. -/
theorem Slot.isDma_eq_false {k : Slot} (h : ¬ (k.inUse = true ∧ k.mode = .dma)) : k.isDma = false := by
  rwa [← Slot.isDma_iff, Bool.not_eq_true] at h

/-- An index register holds the index it was written with (R42). -/
theorem ringIndex_ofNat_toNat (i : BitVec 4) : BitVec.ofNat 4 i.toNat = i := by
  rw [BitVec.ofNat_toNat, BitVec.setWidth_eq]

/-- Frame memory has at most `2^32` bytes (R7). -/
theorem memBytes_le (p : Params) : p.memBytes ≤ 2 ^ 32 := p.lastAddr.isLt

/-- With no filled slot in the ring `n_filled` is 0 (R172). -/
theorem Slot.nFilled_eq_zero {k : Slot} (h : ∀ i < 16, k.ringAt i ≠ .filledPending) : k.nFilled = 0 := by
  have hno : ∀ i, k.ringAt i ≠ .filledPending := fun i => by
    by_cases hi : i < 16
    · exact h i hi
    · simp [Slot.ringAt, hi]
  exact k.filledRun_eq (Nat.zero_le _) nofun fun _ => hno _

/-- The slot just filled is the newest (R172, R198 (a)). -/
theorem RingInv.newest_markFilled {M : Nat} {k : Slot} (h : RingInv M k) (hp : k.acqPending = false)
    (hq : k.ringAt k.fillIdx.toNat = .queuedEmpty) : k.markFilled.newest = k.fillIdx.toNat := by
  obtain ⟨hfilled, hcount⟩ := h.markFilled hp hq
  obtain ⟨-, -, hidx⟩ := h.run
  rw [hfilled.newest_eq (by omega), hcount, hidx]
  change (k.lastReturned.toNat + (k.nFilled + 1)) % k.ringB.toNat = _
  congr 1
  omega

/-- While an acquire is pending the producer finds its slot queued empty (R49 (ii), (vi)). -/
theorem RingInv.queuedEmpty_of_pending {M : Nat} {k : Slot} (h : RingInv M k) (hp : k.acqPending = true) :
    k.ringAt k.fillIdx.toNat = .queuedEmpty := by
  obtain ⟨hheld, hfilled⟩ := h.pending hp
  cases hst : k.ringAt k.fillIdx.toNat with
  | queuedEmpty => rfl
  | absent => exact absurd hst (h.present _ h.pointers.2.1)
  | filledPending => exact absurd hst (hfilled _ k.fillIdx.isLt)
  | handedToCaller => exact absurd hst (h.notHeld hheld _ k.fillIdx.isLt)

/-- The address of the slot at `fill_idx` fits in a register (R49 (iii), R70). -/
theorem RingInv.fillAddr_toNat {p : Params} {k : Slot} (h : RingInv p.memBytes k) :
    (BitVec.ofNat 32 (k.slotAddr k.fillIdx.toNat)).toNat = k.slotAddr k.fillIdx.toNat := by
  have hin := h.frame_inside
  have hsize := h.region.1
  have hmem := memBytes_le p
  rw [BitVec.toNat_ofNat]
  exact Nat.mod_eq_of_lt (by unfold Slot.slotAddr; omega)

/-- The address of a ring slot depends on the ring's base and slot size alone (R170). -/
theorem Slot.slotAddr_congr {k l : Slot} (hb : k.ringBase = l.ringBase) (hs : k.slotSize = l.slotSize) (i : Nat) :
    k.slotAddr i = l.slotAddr i := by
  unfold Slot.slotAddr
  rw [hb, hs]

@[simp] theorem Slot.markFilled_slotAddr (k : Slot) (i : Nat) : k.markFilled.slotAddr i = k.slotAddr i := rfl

/-- A hand-over that finds one filled slot alone re-queues nothing (R186). -/
theorem Slot.handOver_of_newest {k : Slot} {i : BitVec 4} (hnew : k.newest = i.toNat) (hone : k.nFilled = 1) :
    k.handOver = { k with
      ring := k.handOver.ring, heldValid := true, heldIdx := i, lastReturned := i,
      dest := BitVec.ofNat 32 (k.slotAddr i.toNat), lastN := 1, acqDone := true, acqCode := .ok } := by
  conv_lhs => rw [Slot.handOver_eq, hnew, hone, ringIndex_ofNat_toNat]
  rfl

theorem Slot.ringAt_handOver_of_newest {k : Slot} {i : BitVec 4} (hnew : k.newest = i.toNat) (hone : k.nFilled = 1)
    {j : Nat} (hj : j < 16) : k.handOver.ringAt j = if j = i.toNat then .handedToCaller else k.ringAt j := by
  rw [Slot.ringAt_handOver _ _ hj, hnew, hone]
  simp

/-- The slot as a fill leaves it that completes a pending acquire (R188). -/
def Slot.fillHandOver (k : Slot) : Slot := Slot.handOver { k.markFilled with acqPending := false }

/-- While an acquire pends no other slot is filled, so the one just filled is the newest, and alone (R188). -/
theorem RingInv.fillHandOver_newest {M : Nat} {k : Slot} (h : RingInv M k) (hp : k.acqPending = true)
    (hq : k.ringAt k.fillIdx.toNat = .queuedEmpty) :
    Slot.newest { k.markFilled with acqPending := false } = k.fillIdx.toNat ∧
      Slot.nFilled { k.markFilled with acqPending := false } = 1 := by
  have hno : RingInv M { k with acqPending := false } := h.record k.acqCode k.acqDone k.ringOvr
  obtain ⟨-, hcount⟩ := hno.markFilled rfl hq
  have hzero : Slot.nFilled { k with acqPending := false } = 0 := Slot.nFilled_eq_zero (h.pending hp).2
  rw [hzero] at hcount
  exact ⟨hno.newest_markFilled rfl hq, hcount⟩

theorem RingInv.fillHandOver_eq {M : Nat} {k : Slot} (h : RingInv M k) (hp : k.acqPending = true)
    (hq : k.ringAt k.fillIdx.toNat = .queuedEmpty) :
    k.fillHandOver = { k with
      ring := k.fillHandOver.ring, fillIdx := k.markFilled.fillIdx, acqPending := false, heldValid := true,
      heldIdx := k.fillIdx, lastReturned := k.fillIdx,
      dest := BitVec.ofNat 32 (k.slotAddr k.fillIdx.toNat), lastN := 1, acqDone := true, acqCode := .ok } := by
  obtain ⟨hnew, hone⟩ := h.fillHandOver_newest hp hq
  refine (Slot.handOver_of_newest hnew hone).trans ?_
  rw [Slot.slotAddr_congr (l := k) rfl rfl]
  rfl

theorem RingInv.ringAt_fillHandOver {M : Nat} {k : Slot} (h : RingInv M k) (hp : k.acqPending = true)
    (hq : k.ringAt k.fillIdx.toNat = .queuedEmpty) (i : Nat) (hi : i < 16) :
    k.fillHandOver.ringAt i = if i = k.fillIdx.toNat then .handedToCaller else k.ringAt i := by
  obtain ⟨hnew, hone⟩ := h.fillHandOver_newest hp hq
  refine (Slot.ringAt_handOver_of_newest hnew hone hi).trans ?_
  split
  · rfl
  · rename_i hne
    exact (k.ringAt_markFilled i hi).trans (if_neg hne)

/-- `fill_idx` after a fill (R180). -/
theorem Slot.markFilled_fillIdx {k : Slot} (h1 : 1 ≤ k.ringB.toNat) (h2 : k.ringB.toNat ≤ 16) :
    k.markFilled.fillIdx.toNat = (k.fillIdx.toNat + 1) % k.ringB.toNat := ringIndex_toNat h1 h2

/-! ### The ring `DMA_SETUP` binds -/

section
variable (k : Slot) (base size : Word) {b : Word} (granted : Word)

theorem Slot.bindRing_ringB (hb : b.toNat ≤ 16) : (k.bindRing base size b granted).ringB.toNat = b.toNat := by
  change (BitVec.ofNat 5 b.toNat).toNat = _
  rw [BitVec.toNat_ofNat]
  exact Nat.mod_eq_of_lt (by omega)

theorem Slot.bindRing_lastReturned (hb : b.toNat ≤ 16) :
    (k.bindRing base size b granted).lastReturned.toNat = b.toNat - 1 := by
  change (BitVec.ofNat 4 (b.toNat - 1)).toNat = _
  rw [BitVec.toNat_ofNat]
  exact Nat.mod_eq_of_lt (by omega)

theorem Slot.ringAt_bindRing (i : Nat) (hi : i < 16) :
    (k.bindRing base size b granted).ringAt i = if i < b.toNat then .queuedEmpty else .absent :=
  ringAt_freshRing k b.toNat i hi

end

/-! ### A release -/

/-- The slot a release leaves (R190). -/
def Slot.released (k : Slot) : Slot := { k.setRing k.heldIdx.toNat .queuedEmpty with heldValid := false }

theorem Slot.ringAt_released (k : Slot) (i : Nat) (hi : i < 16) :
    k.released.ringAt i = if i = k.heldIdx.toNat then .queuedEmpty else k.ringAt i := by
  refine (Slot.ringAt_setRing k _ i _).trans ?_
  simp only [hi, and_true]

/-! ### The hand-over of an acquire -/

/-- `RET1` of an acquire as a number (R93). -/
theorem acquireReturn_ofNat {i n : Nat} (hi : i < 16) (hn : n < 32) :
    acquireReturn (BitVec.ofNat 4 i) (BitVec.ofNat 5 n) = BitVec.ofNat 32 (i * 256 + n) := by
  have hi' : (BitVec.ofNat 4 i).toNat = i := by rw [BitVec.toNat_ofNat]; exact Nat.mod_eq_of_lt hi
  have hn' : (BitVec.ofNat 5 n).toNat = n := by rw [BitVec.toNat_ofNat]; exact Nat.mod_eq_of_lt hn
  apply BitVec.eq_of_toNat_eq
  rw [acquireReturn, BitVec.toNat_append, BitVec.toNat_append, BitVec.toNat_append, hi', hn',
    ← Nat.shiftLeft_add_eq_or_of_lt hn, BitVec.toNat_ofNat]
  simp only [BitVec.toNat_ofNat, Nat.zero_mod, Nat.shiftLeft_eq, Nat.zero_mul, Nat.zero_or, Nat.or_zero]
  omega

/-- The slot an accepted acquire hands over (R185, R186). -/
theorem Slot.freshAcquire_handOver_eq (k : Slot) : k.freshAcquire.handOver = { k with
    ring := k.freshAcquire.handOver.ring, heldValid := true, heldIdx := BitVec.ofNat 4 k.newest,
    lastReturned := BitVec.ofNat 4 k.newest, dest := BitVec.ofNat 32 (k.slotAddr k.newest),
    lastN := BitVec.ofNat 5 k.nFilled, acqDone := true, acqCode := .ok } := by
  obtain ⟨hcount, hnewest⟩ := Slot.nFilled_congr (k := k.freshAcquire) (l := k) rfl rfl rfl
  conv_lhs => rw [Slot.handOver_eq, hcount, hnewest]
  rfl

/-- The slot states an accepted acquire leaves (R186). -/
theorem Slot.ringAt_freshAcquire_handOver (k : Slot) (i : Nat) (hi : i < 16) : k.freshAcquire.handOver.ringAt i =
    if i = k.newest then .handedToCaller
    else if ∃ j < k.nFilled, i = (k.nextExpected + j) % k.ringB.toNat then .queuedEmpty else k.ringAt i := by
  obtain ⟨hcount, hnewest⟩ := Slot.nFilled_congr (k := k.freshAcquire) (l := k) rfl rfl rfl
  rw [Slot.ringAt_handOver _ _ hi, hcount, hnewest]
  by_cases hnew : i = k.newest
  · rw [if_pos hnew, if_pos hnew]
  have holder : (∃ j < k.nFilled - 1, i = (k.nextExpected + j) % k.ringB.toNat) ↔
      ∃ j < k.nFilled, i = (k.nextExpected + j) % k.ringB.toNat := by
    refine ⟨fun ⟨j, hj, e⟩ => ⟨j, by omega, e⟩, fun ⟨j, hj, e⟩ => ⟨j, ?_, e⟩⟩
    have hlast : j ≠ k.nFilled - 1 := fun h => hnew (by rw [e, h, Slot.newest]; congr 1; omega)
    omega
  rw [if_neg hnew, if_neg hnew]
  simp only [← holder]
  rfl

end Sys2Proof.Machine
end

