-- ==== Sys2Proof/Proofs/RingFills.lean ====
section
/-! SUPPORT. What a fill does, by what it finds: no channel, no ring, no room, or a free slot with or without an acquire
pending (R180 to R182, R188). -/

namespace Sys2Proof.Machine

/-! ### What a fill does -/

/-- What a stored fill leaves beside its channel slot and `IRQ_STATUS`: the frame stands in the ring slot at
`fill_idx`, and nothing outside that slot changes (R180). -/
structure FrameFilled (c : Chan) (f : List Byte) (s t : State) : Prop where
  frame : PortEventFrame c s t
  awaiting : t.awaiting = s.awaiting
  bytes : t.readBytes ((s.slot c).slotAddr (s.slot c).fillIdx.toNat) (s.slot c).expected.toNat = f.map some
  outside : SameMemoryOutside ((s.slot c).slotAddr (s.slot c).fillIdx.toNat) (s.slot c).slotSize.toNat s t

/-- A fill that finds its slot queued empty, in a ring inside frame memory: the frame is stored, and what is left to
do starts from a state that differs in memory alone (R180). -/
theorem exec_fill_stores {s : State} {c : Chan} {f : List Byte} (hc : c.toNat < s.nch)
    (hd : (s.slot c).isDma = true) (hq : (s.slot c).ringAt (s.slot c).fillIdx.toNat = .queuedEmpty)
    (hf : f.length = (s.slot c).expected.toNat) (hsize : (s.slot c).expected.toNat ≤ (s.slot c).slotSize.toNat)
    (hin : (s.slot c).slotAddr (s.slot c).fillIdx.toNat + (s.slot c).expected.toNat ≤ s.params.memBytes) :
    ∃ u, exec (.fill c f) s = .next (afterFill c u) ∧ u = { s with mem := u.mem } ∧
      FrameFilled c f s (afterFill c u) := by
  obtain ⟨u, hstore, hu, hbytes, hout⟩ := storeFrame_inside rfl hf hsize hin
  have hread : ∀ a, (afterFill c u).readByte a = u.readByte a := fun a =>
    congrArg (Memory.read? · a) (afterFill_mem c u)
  refine ⟨u, ?_, hu, (storeFrame_frame c hstore).trans (afterFill_frame c u), ?_, ?_,
    fun a ha => (hread a).trans (hout a ha)⟩
  · change execFill c f s = _
    rw [execFill_stores hc hd hq hf, hstore, andThen_next]
  · have hawait : (afterFill c u).awaiting = u.awaiting := by unfold afterFill; split <;> rfl
    rw [hawait, hu]
  · exact (List.map_congr_left fun i _ => hread _).trans hbytes

/-- A stored fill with no acquire pending marks its slot (R180). -/
theorem exec_fill_marks {s : State} {c : Chan} {f : List Byte} (hc : c.toNat < s.nch)
    (hd : (s.slot c).isDma = true) (hp : (s.slot c).acqPending = false)
    (hq : (s.slot c).ringAt (s.slot c).fillIdx.toNat = .queuedEmpty)
    (hf : f.length = (s.slot c).expected.toNat) (hsize : (s.slot c).expected.toNat ≤ (s.slot c).slotSize.toNat)
    (hin : (s.slot c).slotAddr (s.slot c).fillIdx.toNat + (s.slot c).expected.toNat ≤ s.params.memBytes) :
    ∃ t, exec (.fill c f) s = .next t ∧ FrameFilled c f s t ∧ t.slot c = (s.slot c).markFilled ∧
      t.irqStatus = s.irqStatus := by
  obtain ⟨u, ht, hu, hfilled⟩ := exec_fill_stores hc hd hq hf hsize hin
  have hslot : u.slot c = s.slot c := by rw [hu]; rfl
  have hmarks : afterFill c u = u.updSlot c Slot.markFilled := if_neg (by rw [hslot, hp]; exact nofun)
  refine ⟨_, ht, hfilled, ?_, ?_⟩
  · rw [hmarks, State.slot_updSlot_same, hslot]
  · rw [hmarks, hu]; rfl

/-- A stored fill with an acquire pending marks its slot, hands over and raises `ACQ` (R180, R188). -/
theorem exec_fill_handsOver {s : State} {c : Chan} {f : List Byte} (hc : c.toNat < s.nch)
    (hd : (s.slot c).isDma = true) (hp : (s.slot c).acqPending = true)
    (hq : (s.slot c).ringAt (s.slot c).fillIdx.toNat = .queuedEmpty)
    (hf : f.length = (s.slot c).expected.toNat) (hsize : (s.slot c).expected.toNat ≤ (s.slot c).slotSize.toNat)
    (hin : (s.slot c).slotAddr (s.slot c).fillIdx.toNat + (s.slot c).expected.toNat ≤ s.params.memBytes) :
    ∃ t, exec (.fill c f) s = .next t ∧ FrameFilled c f s t ∧
      t.slot c = (s.slot c).fillHandOver ∧
      t.irqStatus = s.irqStatus ||| Irq.acq.bit := by
  obtain ⟨u, ht, hu, hfilled⟩ := exec_fill_stores hc hd hq hf hsize hin
  have hslot : u.slot c = s.slot c := by rw [hu]; rfl
  have hhands : afterFill c u =
      (u.updSlot c Slot.fillHandOver).irqSet .acq :=
    if_pos (by rw [hslot, hp])
  refine ⟨_, ht, hfilled, ?_, ?_⟩
  · rw [hhands, State.irqSet_slot, State.slot_updSlot_same, hslot]
  · rw [hhands, hu]; rfl

/-- A fill of no channel (R180). -/
theorem exec_fill_of_no_channel {s : State} {c : Chan} (f : List Byte) (hc : s.nch ≤ c.toNat) :
    exec (.fill c f) s = .next (s.irqSet .badCh) := by
  change execFill c f s = _
  exact if_pos hc

/-- A fill of a channel with no ring (R182). -/
theorem exec_fill_of_no_ring {s : State} {c : Chan} (f : List Byte) (hc : c.toNat < s.nch)
    (hd : (s.slot c).isDma = false) : exec (.fill c f) s = .next s := by
  change execFill c f s = _
  unfold execFill
  rw [if_neg (Nat.not_le.2 hc)]
  exact if_pos (by rw [hd]; rfl)

/-- A fill that finds no room (R181). -/
theorem exec_fill_of_no_room {s : State} {c : Chan} (f : List Byte) (hc : c.toNat < s.nch)
    (hd : (s.slot c).isDma = true) (hq : (s.slot c).ringAt (s.slot c).fillIdx.toNat ≠ .queuedEmpty) :
    exec (.fill c f) s = .next (overrun c s) := by
  change execFill c f s = _
  unfold execFill
  rw [if_neg (Nat.not_le.2 hc)]
  exact (if_neg (by rw [hd]; exact nofun)).trans (if_pos hq)

end Sys2Proof.Machine
end

