-- ==== Sys2Proof/Proofs/RingCommands.lean ====
section
/-! SUPPORT. The outcomes of the ring commands, one equation for each, and what such a command leaves alone (R175 to
R197). -/

namespace Sys2Proof.Machine

theorem irq_acq_bit : Irq.acq.bit = 0x08 := rfl

/-! ### The outcomes of a ring command -/

/-- What a command leaves that writes its own channel's slot and `RESULT` and nothing else. -/
structure OnlySlotAndResult (c : Chan) (s t : State) : Prop where
  others : OtherSlotsSame c s t
  memory : SameMemory s t
  requests : NoRequest s t
  globals : KeepsGlobals s t

theorem OnlySlotAndResult.of_updSlot (s : State) (c : Chan) (f : Slot → Slot) (code : ResultCode) (step : StepCode) :
    OnlySlotAndResult c s ((s.updSlot c f).finish code step c) :=
  ⟨fun d hd => State.slot_updSlot_ne s c d f hd, fun _ => rfl, ⟨rfl, rfl⟩,
    (KeepsGlobals.updSlot s c f).trans (.finish _ _ _ _)⟩

/-- What a ring command leaves beside its channel's slot, `RESULT`, `RET0`, `RET1` and `IRQ_STATUS`, and the requests it
sends. -/
structure RingCommandFrame (c : Chan) (rs : List Request) (s t : State) : Prop where
  others : OtherSlotsSame c s t
  memory : SameMemory s t
  awaiting : t.awaiting = s.awaiting
  host : KeepsHostSide s t
  sends : Sends rs s t

namespace RingCommandFrame
variable {c : Chan} {rs : List Request} {s t : State}

theorem setSlot (c : Chan) (s : State) (k : Slot) : RingCommandFrame c [] s (s.setSlot c k) :=
  ⟨fun d hd => State.slot_setSlot_ne s c d k hd, fun _ => rfl, rfl, (KeepsGlobals.setSlot s c k).toKeepsHostSide,
    (List.append_nil _).symm, rfl⟩

theorem request (c : Chan) (s : State) (r : Request) (k : Slot) :
    RingCommandFrame c [r] s ((s.sent r).setSlot c k) :=
  ⟨fun d hd => State.slot_setSlot_ne (s.sent r) c d k hd, fun _ => rfl, rfl,
    ((KeepsGlobals.sent s r).trans (.setSlot _ c k)).toKeepsHostSide, State.sentAll_sends s [r]⟩

theorem irqSet (h : RingCommandFrame c rs s t) (b : Irq) : RingCommandFrame c rs s (t.irqSet b) :=
  ⟨fun d hd => h.others d hd, fun a => h.memory a, h.awaiting, h.host.trans (PortEventFrame.irqSet c t b).host,
    h.sends.1, h.sends.2⟩

theorem setRets (h : RingCommandFrame c rs s t) (r0 r1 : Word) : RingCommandFrame c rs s (t.setRets r0 r1) :=
  ⟨fun d hd => h.others d hd, fun a => h.memory a, h.awaiting,
    h.host.trans ⟨rfl, rfl, rfl, rfl, rfl, rfl, rfl, rfl⟩, h.sends.1, h.sends.2⟩

theorem finish (h : RingCommandFrame c rs s t) (code : ResultCode) (step : StepCode) (d : Chan) :
    RingCommandFrame c rs s (t.finish code step d) :=
  ⟨fun d hd => h.others d hd, fun a => h.memory a, h.awaiting,
    h.host.trans (KeepsGlobals.finish t code step d).toKeepsHostSide, h.sends.1, h.sends.2⟩

theorem noRequest (h : RingCommandFrame c [] s t) : NoRequest s t :=
  ⟨h.sends.1.trans (List.append_nil _), h.sends.2⟩

end RingCommandFrame

/-- A command on an existing channel ends in the state its own rule gives (R91). -/
theorem onChannel_eq {c : Chan} {s t : State} {body : State → State} (hc : c.toNat < s.nch) (h : body s = t) :
    onChannel c s body = .next t := (onChannel_lt body hc).trans (congrArg _ h)

section
variable {s : State} {c : Chan}

/-! ### `DMA_ACQUIRE` -/

/-- An acquire on a channel with no ring, or with one pending already (R185). -/
theorem exec_dmaAcquire_of_not_ready (hc : c.toNat < s.nch)
    (h : (s.slot c).isDma = false ∨ (s.slot c).acqPending = true) :
    exec (.dmaAcquire c) s = .next (s.finish .eState .acquire c) := by
  change execDmaAcquire c s = _
  refine onChannel_eq hc ?_
  cases hd : (s.slot c).isDma
  · rfl
  · exact if_pos (h.resolve_left (by simp [hd]))

/-- An acquire while a slot is held (R185). -/
theorem exec_dmaAcquire_of_held (hc : c.toNat < s.nch) (hd : (s.slot c).isDma = true)
    (hp : (s.slot c).acqPending = false) (hh : (s.slot c).heldValid = true) :
    exec (.dmaAcquire c) s = .next (s.finish .eHeld .acquire c) := by
  change execDmaAcquire c s = _
  exact onChannel_eq hc (by rw [hd, hp, hh]; rfl)

/-! ### `DMA_RELEASE` -/

/-- A release on a channel with no ring (R190). -/
theorem exec_dmaRelease_of_no_ring (hc : c.toNat < s.nch) (hd : (s.slot c).isDma = false) :
    exec (.dmaRelease c) s = .next (s.finish .eState .release c) := by
  change execDmaRelease c s = _
  exact onChannel_eq hc (by rw [hd]; rfl)

/-- A release with nothing held (R190). -/
theorem exec_dmaRelease_of_not_held (hc : c.toNat < s.nch) (hd : (s.slot c).isDma = true)
    (hh : (s.slot c).heldValid = false) :
    exec (.dmaRelease c) s = .next (s.finish .eNotHeld .release c) := by
  change execDmaRelease c s = _
  exact onChannel_eq hc (by rw [hd, hh]; rfl)

/-- A release of the held slot (R190). -/
theorem exec_dmaRelease_of_held (hc : c.toNat < s.nch) (hd : (s.slot c).isDma = true)
    (hh : (s.slot c).heldValid = true) :
    exec (.dmaRelease c) s = .next ((s.updSlot c Slot.released).finish .ok .none c) := by
  change execDmaRelease c s = _
  exact onChannel_eq hc (by rw [hd, hh]; rfl)

/-! ### `DMA_CANCEL` -/

/-- A cancel on a channel with no ring (R192). -/
theorem exec_dmaCancel_of_no_ring (hc : c.toNat < s.nch) (hd : (s.slot c).isDma = false) :
    exec (.dmaCancel c) s = .next (s.finish .eState .acquire c) := by
  change execDmaCancel c s = _
  exact onChannel_eq hc (by rw [hd]; rfl)

/-- A cancel with nothing pending (R192). -/
theorem exec_dmaCancel_of_not_pending (hc : c.toNat < s.nch) (hd : (s.slot c).isDma = true)
    (hp : (s.slot c).acqPending = false) : exec (.dmaCancel c) s = .next (s.finish .ok .none c) := by
  change execDmaCancel c s = _
  exact onChannel_eq hc (by rw [hd, hp]; rfl)

/-- A cancel of a pending acquire (R192). -/
theorem exec_dmaCancel_of_pending (hc : c.toNat < s.nch) (hd : (s.slot c).isDma = true)
    (hp : (s.slot c).acqPending = true) :
    exec (.dmaCancel c) s = .next (((s.updSlot c fun k =>
      { k with acqPending := false, acqDone := true, acqCode := .eCancelled }).irqSet .acq).finish .ok .none c) := by
  change execDmaCancel c s = _
  exact onChannel_eq hc (by rw [hd, hp]; rfl)

/-! ### `DMA_TEARDOWN` -/

/-- A teardown on a channel with no ring (R195). -/
theorem exec_dmaTeardown_of_no_ring (hc : c.toNat < s.nch) (hd : (s.slot c).isDma = false) :
    exec (.dmaTeardown c) s = .next (s.finish .ok .none c) := by
  change execDmaTeardown c s = _
  exact onChannel_eq hc (by rw [hd]; rfl)

/-! ### `DMA_SETUP` -/

/-- A setup on a channel that has a session (R175). -/
theorem exec_dmaSetup_of_inUse (hc : c.toNat < s.nch) (hu : (s.slot c).inUse = true) :
    exec (.dmaSetup c) s = .next (s.finish .eBusy .bind c) := by
  change execDmaSetup c s = _
  refine onChannel_eq hc ?_
  exact if_pos hu

/-- A setup with a number of slots or a frame size out of range (R175). -/
theorem exec_dmaSetup_of_bad_arg (hc : c.toNat < s.nch) (hu : ¬ (s.slot c).inUse = true)
    (h : (s.arg2.toNat < 1 ∨ 16 < s.arg2.toNat) ∨ s.arg1 = 0) :
    exec (.dmaSetup c) s = .next (s.finish .eArg .bind c) := by
  change execDmaSetup c s = _
  refine onChannel_eq hc ?_
  refine (if_neg hu).trans ?_
  by_cases hb : s.arg2.toNat < 1 ∨ 16 < s.arg2.toNat
  · exact if_pos hb
  · exact (if_neg hb).trans (if_pos (h.resolve_left hb))

/-- Requests alone leave the slots and the global registers (R12). -/
theorem State.sentAll_keeps (s : State) (rs : List Request) :
    SameSlots s (s.sentAll rs) ∧ KeepsGlobals s (s.sentAll rs) := by
  induction rs generalizing s with
  | nil => exact ⟨fun _ => rfl, .refl s⟩
  | cons r rs ih =>
    obtain ⟨hslots, hglobals⟩ := ih (s.sent r)
    exact ⟨hslots, (KeepsGlobals.sent s r).trans hglobals⟩

/-- A command that fails after its requests changes nothing but `RESULT` (R175, R177). -/
theorem State.sentAll_finish (s : State) (rs : List Request) (code : ResultCode) (step : StepCode) (c : Chan) :
    Finished code step c ((s.sentAll rs).finish code step c) ∧ SameSlots s ((s.sentAll rs).finish code step c) ∧
      KeepsGlobals s ((s.sentAll rs).finish code step c) ∧ Sends rs s ((s.sentAll rs).finish code step c) := by
  obtain ⟨hslots, hglobals⟩ := s.sentAll_keeps rs
  obtain ⟨hrequests, hanswers⟩ := s.sentAll_sends rs
  exact ⟨rfl, hslots, hglobals.trans (.finish _ _ _ _), hrequests, hanswers⟩

/-- A setup that passes its checks listens, and goes by the answer (R175 to R177). -/
theorem exec_dmaSetup_listens (hc : c.toNat < s.nch) (hu : ¬ (s.slot c).inUse = true)
    (hb : ¬ (s.arg2.toNat < 1 ∨ 16 < s.arg2.toNat)) (hs : ¬ s.arg1 = 0) {r : Answer}
    (hr : r = s.answerTo (.dmaListen c s.arg2 s.arg1)) {u : State} (hsent : u = s.sent (.dmaListen c s.arg2 s.arg1)) :
    exec (.dmaSetup c) s = .next
      (if r.ok = false then u.finish .eDma .listen c
      else if r.size.toNat < s.arg1.toNat then (u.sent (.dmaUnlisten c)).finish .eXsize .listen c
      else if s.params.memBytes < s.arg0.toNat + s.arg2.toNat * r.size.toNat then
        (u.sent (.dmaUnlisten c)).finish .eRange .map c
      else
        ((u.updSlot c fun k => k.bindRing s.arg0 s.arg1 s.arg2 r.size).setRets r.size s.arg2).finish .ok .none c) := by
  subst hr hsent
  change execDmaSetup c s = _
  refine onChannel_eq hc ?_
  refine (if_neg hu).trans ((if_neg hb).trans ((if_neg hs).trans ?_))
  simp only [Bool.not_eq_true', BitVec.lt_def]

end

end Sys2Proof.Machine
end

