-- ==== Sys2Proof/Proofs/DmaRing.lean ====
section
/-! The statements of spec/42_dma_ring.md. -/

namespace Sys2Proof.Machine

/-- Settles O54: a byte that changes lies in a queued slot of its own ring, which is not the held one, or in the
region of another channel, which R283 keeps away from the ring. -/
theorem heldSlotNeverOverwritten : Obligations.HeldSlotNeverOverwritten := by
  unfold Obligations.HeldSlotNeverOverwritten
  rintro s t c k hinv hrings rfl hd hheld hdisjoint hhost hstep base a rfl hlow hhigh
  have hring := hrings c hd
  have hslot : inRingSlot (s.slot c) (s.slot c).heldIdx.toNat a := ⟨hlow, hhigh⟩
  have hregion : inRegion (s.slot c) a := inRegion_of_inRingSlot hd hring.pointers.2.2 hslot
  by_contra ha
  obtain ⟨d, ⟨hsoft, hin⟩ | ⟨hdma, hqueued, hin⟩⟩ := step_changes hinv hrings hhost hstep ha
  · have hdc : d ≠ c := fun e => Slot.not_isDma_of_isSoftware hsoft (e ▸ hd)
    exact hdisjoint d a hdc ((Slot.isSoftware_iff _).1 hsoft).1 hregion hin
  · by_cases hdc : d = c
    · subst hdc
      have hfilled := (hring.held hheld _ (s.slot d).heldIdx.isLt).2 rfl
      rw [inRingSlot_unique hslot hin, hqueued] at hfilled
      cases hfilled
    · exact hdisjoint d a hdc ((Slot.isDma_iff _).1 hdma).1 hregion
        (inRegion_of_inRingSlot hdma (hrings d hdma).pointers.2.1 hin)

/-- Settles O24, by the four answers to the listen request after the three checks. -/
theorem dmaSetupResult : Obligations.DmaSetupResult := by
  unfold Obligations.DmaSetupResult
  intro s c r hc hr
  by_cases hbusy : (s.slot c).inUse = true
  · exact ⟨_, exec_dmaSetup_of_inUse hc hbusy, fun _ => rfl, (if_pos hbusy).mpr (.of_finish s _ _ _)⟩
  by_cases hb : s.arg2.toNat < 1 ∨ 16 < s.arg2.toNat
  · exact ⟨_, exec_dmaSetup_of_bad_arg hc hbusy (.inl hb), fun _ => rfl,
      (if_neg hbusy).mpr ((if_pos hb).mpr (.of_finish s _ _ _))⟩
  by_cases hs : s.arg1 = 0
  · exact ⟨_, exec_dmaSetup_of_bad_arg hc hbusy (.inr hs), fun _ => rfl,
      (if_neg hbusy).mpr ((if_neg hb).mpr ((if_pos hs).mpr (.of_finish s _ _ _)))⟩
  have hrun := exec_dmaSetup_listens hc hbusy hb hs hr rfl
  by_cases hok : r.ok = false
  · rw [if_pos hok] at hrun
    refine ⟨_, hrun, fun _ => rfl, ?_⟩
    rw [if_neg hbusy, if_neg hb, if_neg hs, if_pos hok]
    exact s.sentAll_finish [.dmaListen c s.arg2 s.arg1] .eDma .listen c
  by_cases hsize : r.size.toNat < s.arg1.toNat
  · rw [if_neg hok, if_pos hsize] at hrun
    refine ⟨_, hrun, fun _ => rfl, ?_⟩
    rw [if_neg hbusy, if_neg hb, if_neg hs, if_neg hok, if_pos hsize]
    exact s.sentAll_finish [.dmaListen c s.arg2 s.arg1, .dmaUnlisten c] .eXsize .listen c
  by_cases hfit : s.params.memBytes < s.arg0.toNat + s.arg2.toNat * r.size.toNat
  · rw [if_neg hok, if_neg hsize, if_pos hfit] at hrun
    refine ⟨_, hrun, fun _ => rfl, ?_⟩
    rw [if_neg hbusy, if_neg hb, if_neg hs, if_neg hok, if_neg hsize, if_pos hfit]
    exact s.sentAll_finish [.dmaListen c s.arg2 s.arg1, .dmaUnlisten c] .eRange .map c
  rw [if_neg hok, if_neg hsize, if_neg hfit] at hrun
  refine ⟨_, hrun, fun _ => rfl, ?_⟩
  rw [if_neg hbusy, if_neg hb, if_neg hs, if_neg hok, if_neg hsize, if_neg hfit, State.finish_slot,
    State.setRets_slot, State.slot_updSlot_same, State.sent_slot]
  have hb16 : s.arg2.toNat ≤ 16 := by omega
  have hframe := ((RingCommandFrame.request c s (.dmaListen c s.arg2 s.arg1)
    ((s.slot c).bindRing s.arg0 s.arg1 s.arg2 r.size)).setRets r.size s.arg2).finish .ok .none c
  exact ⟨rfl, hframe.sends, rfl, rfl, hframe.awaiting, by simp, hframe.host, hframe.others, rfl,
    Slot.bindRing_ringB _ _ _ _ hb16, Slot.bindRing_lastReturned _ _ _ _ hb16, Slot.ringAt_bindRing _ _ _ _⟩

/-- Settles O26: the run of filled slots fixes `n_filled` and the newest slot, and the rest is the hand-over. -/
theorem dmaAcquireHandsNewest : Obligations.DmaAcquireHandsNewest := by
  unfold Obligations.DmaAcquireHandsNewest
  rintro s c k n b ne nw hc hk huse hmode hp hh rfl hb1 hb2 hn1 hn2 rfl rfl hfilled hstop
  have hcount : k.nFilled = n := k.filledRun_eq hn2 hfilled hstop
  have hnewest : k.newest = (k.nextExpected + n - 1) % k.ringB.toNat := by rw [Slot.newest, hcount]
  have hslot := k.freshAcquire_handOver_eq
  have hring := k.ringAt_freshAcquire_handOver
  rw [hcount, hnewest] at hslot hring
  subst hk
  refine ⟨_, execDmaAcquire_hands hc ((Slot.isDma_iff _).2 ⟨huse, hmode⟩) hp hh (hcount.symm ▸ hn1) rfl, rfl, ?_⟩
  rw [State.finish_slot, State.setRets_slot, State.slot_setSlot_same]
  have hframe := ((RingCommandFrame.setSlot c s (s.slot c).freshAcquire.handOver).setRets
    (s.slot c).freshAcquire.handOver.dest
    (acquireReturn (s.slot c).freshAcquire.handOver.heldIdx (s.slot c).freshAcquire.handOver.lastN)).finish .ok .none c
  refine ⟨hring, hslot, ?_, ?_, hframe.awaiting, by simp, hframe.host, hframe.others, hframe.memory, hframe.noRequest⟩
  · rw [State.finish_ret0, State.setRets_ret0, hslot]
    rfl
  · rw [State.finish_ret1, State.setRets_ret1, hslot]
    have := Nat.mod_lt ((s.slot c).nextExpected + n - 1) hb1
    exact acquireReturn_ofNat (by omega) (by omega)

/-- Settles O30: the store of the frame, and the slot it marks. -/
theorem fillStoresFrame : Obligations.FillStoresFrame := by
  unfold Obligations.FillStoresFrame
  rintro s c f k base hc rfl huse hmode hp hb1 hb2 hq hf rfl hsize hin
  obtain ⟨t, ht, hfilled, hslot, hirq⟩ :=
    exec_fill_marks hc ((Slot.isDma_iff _).2 ⟨huse, hmode⟩) hp hq hf hsize hin
  refine ⟨t, ht, hfilled.frame, hirq, hfilled.awaiting, ?_⟩
  rw [hslot]
  exact ⟨Slot.ringAt_markFilled _, Slot.markFilled_fillIdx hb1 hb2, Slot.markFilled_eq _, hfilled.bytes,
    hfilled.outside⟩

/-- Settles O31: while an acquire pends no slot is filled, so the slot just filled is the one handed over. -/
theorem fillCompletesPendingAcquire : Obligations.FillCompletesPendingAcquire := by
  unfold Obligations.FillCompletesPendingAcquire
  rintro s c f k base hc rfl hd hring hp hf rfl
  have hq := hring.queuedEmpty_of_pending hp
  obtain ⟨t, ht, hfilled, hslot, hirq⟩ := exec_fill_handsOver hc hd hp hq hf hring.region.2.1 hring.frame_inside
  have hslot' := hslot.trans (hring.fillHandOver_eq hp hq)
  have hfillIdx : (t.slot c).fillIdx = (s.slot c).markFilled.fillIdx := by rw [hslot']
  have hdest : (t.slot c).dest = BitVec.ofNat 32 ((s.slot c).slotAddr (s.slot c).fillIdx.toNat) := by rw [hslot']
  refine ⟨t, ht, hfilled.frame, hirq, hfilled.awaiting, ?_, ?_, ?_, ?_, hfilled.bytes, hfilled.outside⟩
  · rw [hslot]
    exact hring.ringAt_fillHandOver hp hq
  · rw [hfillIdx, Slot.markFilled_fillIdx hring.size.1 hring.size.2]
  · rw [hfillIdx, hdest, hslot]
    exact hring.fillHandOver_eq hp hq
  · rw [hdest, hring.fillAddr_toNat]
    rfl

/-- Settles O59: the slot just filled is the newest, so the acquire hands it over, and memory stays as the fill left
it. -/
theorem acquireReturnsNewestFrame : Obligations.AcquireReturnsNewestFrame := by
  unfold Obligations.AcquireReturnsNewestFrame
  rintro s c f k hc rfl hd hring hp hheld hq hf
  obtain ⟨t, ht, hfilled, hslot, -⟩ := exec_fill_marks hc hd hp hq hf hring.region.2.1 hring.frame_inside
  have hct : c.toNat < t.nch := by
    unfold State.nch
    rw [hfilled.frame.host.params]
    exact hc
  have hcount : 1 ≤ (t.slot c).nFilled := by
    rw [hslot, (hring.markFilled hp hq).2]
    exact Nat.le_add_left 1 _
  have hnewest : (t.slot c).newest = (s.slot c).fillIdx.toNat := by
    rw [hslot]
    exact hring.newest_markFilled hp hq
  have hhands := (t.slot c).freshAcquire_handOver_eq
  rw [hnewest, ringIndex_ofNat_toNat] at hhands
  have hdest : (t.slot c).freshAcquire.handOver.dest =
      BitVec.ofNat 32 ((s.slot c).slotAddr (s.slot c).fillIdx.toNat) := by
    rw [← Slot.markFilled_slotAddr, ← hslot, hhands]
  have hacquire : exec (.dmaAcquire c) t = _ :=
    execDmaAcquire_hands hct (by rw [hslot]; exact hd) (by rw [hslot]; exact hp) (by rw [hslot]; exact hheld) hcount rfl
  refine ⟨t, _, ht, hacquire, rfl, ?_⟩
  rw [State.finish_slot, State.setRets_slot, State.slot_setSlot_same]
  refine ⟨by rw [hhands], by rw [hhands], rfl, ?_⟩
  rw [hdest, hring.fillAddr_toNat]
  exact hfilled.bytes

/-- Settles O25, by the checks of R185 in order. -/
theorem dmaAcquireChecksAndPends : Obligations.DmaAcquireChecksAndPends := by
  unfold Obligations.DmaAcquireChecksAndPends
  refine fun s c hc => ⟨fun h => ?_, fun huse hmode hp => ?_⟩
  · have hnot : (s.slot c).isDma = false ∨ (s.slot c).acqPending = true := by
      by_cases hring : (s.slot c).inUse = true ∧ (s.slot c).mode = .dma
      · exact .inr (by simpa using fun hp => h ⟨hring.1, hring.2, hp⟩)
      · exact .inl (Slot.isDma_eq_false hring)
    exact ⟨_, exec_dmaAcquire_of_not_ready hc hnot, .of_finish s _ _ _⟩
  · have hd : (s.slot c).isDma = true := (Slot.isDma_iff _).2 ⟨huse, hmode⟩
    refine ⟨fun hh => ⟨_, exec_dmaAcquire_of_held hc hd hp hh, .of_finish s _ _ _⟩, fun hh hnone => ?_⟩
    have hframe := OnlySlotAndResult.of_updSlot s c (fun k => { k.freshAcquire with acqPending := true }) .pending .none
    exact ⟨_, execDmaAcquire_pends hc hd hp hh (Slot.nFilled_eq_zero hnone), rfl,
      State.slot_updSlot_same s c fun k => { k.freshAcquire with acqPending := true },
      hframe.others, hframe.memory, hframe.requests, hframe.globals⟩

/-- Settles O27, by the checks of R190 in order. -/
theorem dmaReleaseResult : Obligations.DmaReleaseResult := by
  unfold Obligations.DmaReleaseResult
  intro s c hc
  by_cases hring : (s.slot c).inUse = true ∧ (s.slot c).mode = .dma
  swap
  · exact ⟨_, exec_dmaRelease_of_no_ring hc (Slot.isDma_eq_false hring), (if_pos hring).mpr (.of_finish s _ _ _)⟩
  have hd : (s.slot c).isDma = true := (Slot.isDma_iff _).2 hring
  cases hh : (s.slot c).heldValid with
  | false =>
    refine ⟨_, exec_dmaRelease_of_not_held hc hd hh, ?_⟩
    rw [if_neg (not_not.2 hring), if_pos rfl]
    exact .of_finish s _ _ _
  | true =>
    refine ⟨_, exec_dmaRelease_of_held hc hd hh, ?_⟩
    rw [if_neg (not_not.2 hring), if_neg nofun, State.finish_slot, State.slot_updSlot_same]
    have hframe := OnlySlotAndResult.of_updSlot s c Slot.released .ok .none
    exact ⟨rfl, Slot.ringAt_released _, rfl, hframe.others, hframe.memory, hframe.requests, hframe.globals⟩

/-- Settles O28, by the checks of R192 in order. -/
theorem dmaCancelResult : Obligations.DmaCancelResult := by
  unfold Obligations.DmaCancelResult
  intro s c hc
  by_cases hring : (s.slot c).inUse = true ∧ (s.slot c).mode = .dma
  swap
  · exact ⟨_, exec_dmaCancel_of_no_ring hc (Slot.isDma_eq_false hring), (if_pos hring).mpr (.of_finish s _ _ _)⟩
  have hd : (s.slot c).isDma = true := (Slot.isDma_iff _).2 hring
  cases hp : (s.slot c).acqPending with
  | false =>
    refine ⟨_, exec_dmaCancel_of_not_pending hc hd hp, ?_⟩
    rw [if_neg (not_not.2 hring), if_pos rfl]
    exact .of_finish s _ _ _
  | true =>
    refine ⟨_, exec_dmaCancel_of_pending hc hd hp, ?_⟩
    rw [if_neg (not_not.2 hring), if_neg nofun, State.finish_slot, State.irqSet_slot, State.slot_updSlot_same]
    have hframe := ((RingCommandFrame.setSlot c s
      { s.slot c with acqPending := false, acqDone := true, acqCode := .eCancelled }).irqSet .acq).finish .ok .none c
    exact ⟨rfl, rfl, by simp [irq_acq_bit], hframe.awaiting, by simp, by simp, hframe.host, hframe.others,
      hframe.memory, hframe.noRequest⟩

/-- Settles O29: a ring is cleared whatever the answer, which only the outcome tells. -/
theorem dmaTeardownResult : Obligations.DmaTeardownResult := by
  unfold Obligations.DmaTeardownResult
  intro s c hc
  by_cases hring : (s.slot c).inUse = true ∧ (s.slot c).mode = .dma
  swap
  · exact ⟨_, exec_dmaTeardown_of_no_ring hc (Slot.isDma_eq_false hring), (if_pos hring).mpr (.of_finish s _ _ _)⟩
  obtain ⟨code, step, hrun, hcode⟩ := execDmaTeardown_ring hc ((Slot.isDma_iff _).2 hring)
  refine ⟨_, hrun, ?_⟩
  have finished : ∀ w : State, if (s.answerTo (.dmaUnlisten c)).ok then Finished .ok .none c (w.finish code step c)
      else Finished .eDma .unlisten c (w.finish code step c) := fun w => by
    split at hcode <;> rename_i hok <;> obtain ⟨rfl, rfl⟩ := hcode
    · rw [if_pos hok]; rfl
    · rw [if_neg hok]; rfl
  have hframe := RingCommandFrame.request c s (.dmaUnlisten c) (s.slot c).tornDown
  rw [if_neg (not_not.2 hring)]
  cases hp : (s.slot c).acqPending with
  | false =>
    rw [if_neg nofun, if_neg nofun, State.finish_slot, State.slot_setSlot_same]
    have hframe' := hframe.finish code step c
    exact ⟨⟨if_neg (by simp [hp]), by simp⟩, hframe'.sends, hframe'.awaiting, by simp, by simp, hframe'.host,
      hframe'.others, hframe'.memory, finished _⟩
  | true =>
    rw [if_pos rfl, if_pos rfl, State.finish_slot, State.irqSet_slot, State.slot_setSlot_same]
    have hframe' := (hframe.irqSet .acq).finish code step c
    exact ⟨⟨if_pos hp, by simp [irq_acq_bit]⟩, hframe'.sends, hframe'.awaiting, by simp, by simp, hframe'.host,
      hframe'.others, hframe'.memory, finished _⟩

/-- Settles O32, by the three checks of R180 in order. -/
theorem fillWithoutRoom : Obligations.FillWithoutRoom := by
  unfold Obligations.FillWithoutRoom
  refine fun s c f => ⟨fun hc => ?_, fun hc hd => ?_, fun hc huse hmode hq => ?_⟩
  · exact ⟨_, exec_fill_of_no_channel f hc, .irqSet c s _, rfl, rfl, rfl, fun _ => rfl⟩
  · exact ⟨s, exec_fill_of_no_ring f hc (Slot.isDma_eq_false hd), .refl s⟩
  · exact ⟨_, exec_fill_of_no_room f hc ((Slot.isDma_iff _).2 ⟨huse, hmode⟩) hq,
      (PortEventFrame.updSlot c s _).trans (.irqSet c _ _),
      State.slot_updSlot_same s c fun k => { k with ringOvr := true }, rfl, rfl, fun _ => rfl⟩

end Sys2Proof.Machine
end

