-- ==== Sys2Proof/Proofs/SessionEffects.lean ====
section
/-! SUPPORT. The outcome of each session command on an existing channel, one equation for each, and what such a
command leaves alone (R200 to R217). -/

namespace Sys2Proof.Machine

/-! ### What a session command leaves alone -/

/-- What a session command leaves beside its channel's slot and `RESULT`, and the requests it sends. -/
structure SessionFrame (c : Chan) (rs : List Request) (s t : State) : Prop where
  others : OtherSlotsSame c s t
  memory : SameMemory s t
  globals : KeepsGlobals s t
  sends : Sends rs s t

namespace TearFrame
variable {c : Chan} {rs : List Request} {s t : State}

/-- A request alone touches no slot (R12). -/
theorem sent (c : Chan) (r : Request) (s : State) : TearFrame c [r] s (s.sent r) :=
  ⟨fun _ _ => rfl, rfl, .sent s r, rfl, s.sentAll_sends [r]⟩

/-- The slot of the channel itself is free to change. -/
theorem setSlot (h : TearFrame c rs s t) (k : Slot) : TearFrame c rs s (t.setSlot c k) :=
  ⟨fun d hd => (State.slot_setSlot_ne t c d k hd).trans (h.others d hd), h.memory, h.globals.trans (.setSlot t c k),
    h.result, h.sends⟩

theorem finish (h : TearFrame c rs s t) (code : ResultCode) (step : StepCode) (d : Chan) :
    SessionFrame c rs s (t.finish code step d) :=
  ⟨h.others, fun _ => congrArg (Memory.read? · _) h.memory, h.globals.trans (.finish t code step d), h.sends⟩

theorem finishFirst (h : TearFrame c rs s t) (first : Option Failure) (d : Chan) :
    SessionFrame c rs s (t.finishFirst first d) := by
  cases first with
  | none => exact h.finish _ _ _
  | some f => exact h.finish _ _ _

end TearFrame

/-! ### What a tear-down reports and leaves -/

/-- One request's failure is the outcome of the command that sent it (R209, R213). -/
theorem State.finishFirst_noteFailure (s : State) (ok : Bool) (code : ResultCode) (step : StepCode) (c : Chan) :
    if ok then Finished .ok .none c (s.finishFirst (noteFailure none ok (code, step, c)) c)
    else Finished code step c (s.finishFirst (noteFailure none ok (code, step, c)) c) := by
  cases ok with
  | true => exact (if_pos rfl).mpr rfl
  | false => exact (if_neg nofun).mpr rfl

/-- A request that is sent on a condition fails when it is sent and the answer is negative (R205). -/
theorem firstFailure_request_if (s : State) (b : Bool) (r : Request) :
    firstFailure (if b then [r] else []) (s.answersTo (if b then [r] else [])) =
      if b = true ∧ (s.answerTo r).ok = false then some (failureOf r) else none := by
  cases b with
  | false => rfl
  | true => cases h : (s.answerTo r).ok <;> simp [firstFailure, h]

/-- What the tear-down of a session reports: a failed stop before a failed deregistration, which is answered after
the stop if there was one (R205). -/
theorem firstFailure_tearRequests (s : State) (k : Slot) (c : Chan) :
    firstFailure (tearRequests k c) (s.answersTo (tearRequests k c)) =
      if k.receiving = true ∧ (s.answerTo (.xpStop c)).ok = false then some (.eXport, .stop, c)
      else if k.registered = true ∧
          ((if k.receiving then s.sent (.xpStop c) else s).answerTo (.xpDereg c)).ok = false then
        some (.eXport, .deregister, c)
      else none := by
  have hsent : s.sentAll (if k.receiving then [.xpStop c] else []) =
      if k.receiving then s.sent (.xpStop c) else s := by split <;> rfl
  unfold tearRequests
  rw [State.answersTo_append, firstFailure_append _ _ _ _ (State.answersTo_length _ _), firstFailure_request_if,
    firstFailure_request_if, hsent]
  by_cases hstop : k.receiving = true ∧ (s.answerTo (.xpStop c)).ok = false
  · rw [if_pos hstop, if_pos hstop]
    rfl
  · rw [if_neg hstop, if_neg hstop]
    rfl

/-- The slot a stop leaves, by whether a frame is in flight (R213). -/
theorem Slot.stop_eq (k : Slot) : Slot.abandon { k with receiving := false } =
    if k.progress = .inProgress then { k with receiving := false, progress := .idle, woff := 0, wdcnt := 0 }
    else { k with receiving := false } := by
  by_cases hp : k.progress = .inProgress
  · rw [if_pos hp, Slot.abandon]
    simp only [hp]
  · rw [if_neg hp]
    exact Slot.abandon_of_not_inProgress hp

/-! ### One equation per command -/

section
variable {s : State} {c : Chan}

theorem exec_swBind (hc : c.toNat < s.nch) : exec (.swBind c) s = .next
    (if (s.slot c).inUse then s.finish .eBusy .bind c
    else if s.arg1 = 0 then s.finish .eArg .bind c
    else if s.params.memBytes < s.arg0.toNat + s.arg1.toNat then s.finish .eRange .bind c
    else (s.updSlot c fun k => k.bindSoftware s.arg0 s.arg1 s.arg2).finish .ok .none c) := by
  change execSwBind c s = _
  exact onChannel_lt _ hc

theorem exec_unbind (hc : c.toNat < s.nch) : exec (.unbind c) s = .next
    (if (s.slot c).inUse = false then s.finish .ok .none c
    else if (s.slot c).mode = .dma then s.finish .eState .bind c
    else ((tearTransport c none s).2.setSlot c Slot.reset).finishFirst
      (firstFailure (tearRequests (s.slot c) c) (s.answersTo (tearRequests (s.slot c) c))) c) := by
  change execUnbind c s = _
  refine onChannel_eq hc ?_
  simp only [tearTransport_failure, Option.none_or, Bool.not_eq_true']

theorem exec_register (hc : c.toNat < s.nch) : exec (.register c) s = .next
    (if ¬ Startable (s.slot c) then s.finish .eState .register c
    else if (s.answerTo (.xpReg c)).ok then
      ((s.sent (.xpReg c)).updSlot c fun k => { k with registered := true }).finish .ok .none c
    else (s.sent (.xpReg c)).finish .eXport .register c) := by
  change execRegister c s = _
  refine onChannel_eq hc ?_
  simp only [not_startable_iff]

theorem exec_deregister (hc : c.toNat < s.nch) : exec (.deregister c) s = .next
    (if (s.slot c).registered = false then s.finish .ok .none c
    else if (s.slot c).receiving then s.finish .eState .deregister c
    else ((s.sent (.xpDereg c)).updSlot c fun k => { k with registered := false }).finishFirst
      (noteFailure none (s.answerTo (.xpDereg c)).ok (.eXport, .deregister, c)) c) := by
  change execDeregister c s = _
  refine onChannel_eq hc ?_
  unfold tearDeregister
  cases hregistered : (s.slot c).registered <;> rfl

theorem exec_start (hc : c.toNat < s.nch) : exec (.start c) s = .next
    (if (s.slot c).registered = false ∨ (s.slot c).receiving = true then s.finish .eState .start c
    else if (s.answerTo (.xpStart c)).ok then
      ((s.sent (.xpStart c)).updSlot c fun k => { k with receiving := true }).finish .ok .none c
    else (s.sent (.xpStart c)).finish .eXport .start c) := by
  change execStart c s = _
  refine onChannel_eq hc ?_
  simp only [Bool.or_eq_true, Bool.not_eq_true']

theorem exec_stop (hc : c.toNat < s.nch) : exec (.stop c) s = .next
    (if (s.slot c).receiving = false then s.finish .ok .none c
    else ((s.sent (.xpStop c)).updSlot c fun k => Slot.abandon { k with receiving := false }).finishFirst
      (noteFailure none (s.answerTo (.xpStop c)).ok (.eXport, .stop, c)) c) := by
  change execStop c s = _
  refine onChannel_eq hc ?_
  unfold tearStop
  cases hreceiving : (s.slot c).receiving <;> rfl

theorem exec_rearm (hc : c.toNat < s.nch) : exec (.rearm c) s = .next
    (if (s.slot c).inUse = true ∧ (s.slot c).mode = .software then (s.updSlot c Slot.rearm).finish .ok .none c
    else s.finish .eState .bind c) := by
  change execRearm c s = _
  refine onChannel_eq hc ?_
  simp only [← Slot.isSoftware_iff]
  cases hsoftware : (s.slot c).isSoftware <;> rfl

end

end Sys2Proof.Machine
end

