-- ==== Sys2Proof/Proofs/SessionCommands.lean ====
section
/-! The statements of spec/43_session_commands.md. -/

namespace Sys2Proof.Machine

/-- Settles O11: the two tear-down steps send the requests, and the slot is cleared after them. -/
theorem unbindResult : Obligations.UnbindResult := by
  unfold Obligations.UnbindResult
  intro s c hc
  refine ⟨_, exec_unbind hc, ?_⟩
  by_cases hfree : (s.slot c).inUse = false
  · rw [if_pos hfree, if_pos hfree]
    exact .of_finish s _ _ _
  rw [if_neg hfree, if_neg hfree]
  by_cases hring : (s.slot c).mode = .dma
  · rw [if_pos hring, if_pos hring]
    exact .of_finish s _ _ _
  rw [if_neg hring, if_neg hring, State.finishFirst_slot, State.slot_setSlot_same]
  have hframe := ((tearTransport_frame c none s).1.setSlot Slot.reset).finishFirst
    (firstFailure (tearRequests (s.slot c) c) (s.answersTo (tearRequests (s.slot c) c))) c
  refine ⟨rfl, hframe.others, hframe.memory, hframe.globals, hframe.sends, ?_⟩
  rw [firstFailure_tearRequests]
  generalize (if (s.slot c).receiving then s.sent (.xpStop c) else s) = u
  split
  · rfl
  split
  · rfl
  · rfl

/-- Settles O10, by the checks of R201 in order. -/
theorem swBindResult : Obligations.SwBindResult := by
  unfold Obligations.SwBindResult
  intro s c hc
  refine ⟨_, exec_swBind hc, ?_⟩
  split
  · exact .of_finish s _ _ _
  split
  · exact .of_finish s _ _ _
  split
  · exact .of_finish s _ _ _
  · rw [State.finish_slot, State.slot_updSlot_same]
    have hframe := OnlySlotAndResult.of_updSlot s c (fun k => k.bindSoftware s.arg0 s.arg1 s.arg2) .ok .none
    exact ⟨rfl, rfl, hframe.others, hframe.memory, hframe.requests, hframe.globals⟩

/-- Settles O12: the slot changes only where the answer is positive. -/
theorem registerResult : Obligations.RegisterResult := by
  unfold Obligations.RegisterResult
  intro s c hc
  refine ⟨_, exec_register hc, ?_⟩
  split
  · exact .of_finish s _ _ _
  split
  · rw [State.finish_slot, State.slot_updSlot_same]
    have hframe := (TearFrame.request c (.xpReg c) (fun k => { k with registered := true }) s).finish .ok .none c
    exact ⟨hframe.others, hframe.memory, hframe.globals, hframe.sends, rfl, rfl⟩
  · have hframe := (TearFrame.sent c (.xpReg c) s).finish .eXport .register c
    exact ⟨hframe.others, hframe.memory, hframe.globals, hframe.sends, rfl, rfl⟩

/-- Settles O13: the answer is read for the outcome only. -/
theorem deregisterResult : Obligations.DeregisterResult := by
  unfold Obligations.DeregisterResult
  intro s c hc
  refine ⟨_, exec_deregister hc, ?_⟩
  split
  · exact .of_finish s _ _ _
  split
  · exact .of_finish s _ _ _
  · rw [State.finishFirst_slot, State.slot_updSlot_same]
    have hframe := (TearFrame.request c (.xpDereg c) (fun k => { k with registered := false }) s).finishFirst
      (noteFailure none (s.answerTo (.xpDereg c)).ok (.eXport, .deregister, c)) c
    exact ⟨rfl, hframe.others, hframe.memory, hframe.globals, hframe.sends, State.finishFirst_noteFailure _ _ _ _ c⟩

/-- Settles O14: the slot changes only where the answer is positive. -/
theorem startResult : Obligations.StartResult := by
  unfold Obligations.StartResult
  intro s c hc
  refine ⟨_, exec_start hc, ?_⟩
  split
  · exact .of_finish s _ _ _
  split
  · rw [State.finish_slot, State.slot_updSlot_same]
    have hframe := (TearFrame.request c (.xpStart c) (fun k => { k with receiving := true }) s).finish .ok .none c
    exact ⟨hframe.others, hframe.memory, hframe.globals, hframe.sends, rfl, rfl⟩
  · have hframe := (TearFrame.sent c (.xpStart c) s).finish .eXport .start c
    exact ⟨hframe.others, hframe.memory, hframe.globals, hframe.sends, rfl, rfl⟩

/-- Settles O15: the answer is read for the outcome only, and the slot is the one `abandon` leaves. -/
theorem stopResult : Obligations.StopResult := by
  unfold Obligations.StopResult
  intro s c hc
  refine ⟨_, exec_stop hc, ?_⟩
  rw [← Slot.stop_eq]
  split
  · exact .of_finish s _ _ _
  · rw [State.finishFirst_slot, State.slot_updSlot_same]
    have hframe := (TearFrame.request c (.xpStop c) (fun k => Slot.abandon { k with receiving := false }) s).finishFirst
      (noteFailure none (s.answerTo (.xpStop c)).ok (.eXport, .stop, c)) c
    exact ⟨rfl, hframe.others, hframe.memory, hframe.globals, hframe.sends, State.finishFirst_noteFailure _ _ _ _ c⟩

/-- Settles O16: the rule asks for a software session and looks at no other field of the slot. -/
theorem rearmResult : Obligations.RearmResult := by
  unfold Obligations.RearmResult
  intro s c hc
  refine ⟨_, exec_rearm hc, ?_⟩
  split
  · rw [State.finish_slot, State.slot_updSlot_same]
    have hframe := OnlySlotAndResult.of_updSlot s c Slot.rearm .ok .none
    exact ⟨rfl, rfl, hframe.others, hframe.memory, hframe.requests, hframe.globals⟩
  · exact .of_finish s _ _ _

end Sys2Proof.Machine
end

