-- ==== Sys2Proof/Proofs/HostPort.lean ====
section
/-! SUPPORT. What a register read answers and what a register write changes, by the address (R230, R231, R235), and
the word `RESULT` reads after a success that is about no channel (R26). -/

namespace Sys2Proof.Machine

/-! ### Register reads -/

theorem readReg_of_misaligned {s : State} {addr : BitVec 16} (h : addr.toNat % 4 ≠ 0) : readReg s addr = 0 :=
  if_pos h

theorem readReg_of_lt {s : State} {addr : BitVec 16} (h : addr.toNat < 0x1000) (halign : addr.toNat % 4 = 0) :
    readReg s addr = readGlobal s addr.toNat := by
  unfold readReg
  dsimp only
  rw [if_neg (not_not_intro halign), if_pos h]

theorem readReg_of_ge {s : State} {addr : BitVec 16} (h : 0x1000 ≤ addr.toNat) (halign : addr.toNat % 4 = 0) :
    readReg s addr = if (addr.toNat - 0x1000) / 0x40 < s.nch then
      readWindow (s.slot (BitVec.ofNat 6 ((addr.toNat - 0x1000) / 0x40))) ((addr.toNat - 0x1000) % 0x40) else 0 := by
  unfold readReg
  dsimp only
  rw [if_neg (not_not_intro halign), if_neg (Nat.not_lt.2 h)]

/-- The last global register stands at `0x0030` (R29). -/
theorem readGlobal_of_ge (s : State) {a : Nat} (h : 0x34 ≤ a) : readGlobal s a = 0 := by
  unfold readGlobal
  split
  case h_14 => rfl
  all_goals omega

/-- The offsets of a window that R47 gives no register. -/
theorem readWindow_of_reserved (k : Slot) {off : Nat} (h : off = 0x1C ∨ 0x34 ≤ off) : readWindow k off = 0 := by
  unfold readWindow
  split
  case h_13 => rfl
  all_goals omega

/-! ### Register writes -/

/-- The state after a write to a register other than `CMD` (R231). -/
def State.writeReg (s : State) (addr : BitVec 16) (w : Word) : State :=
  { s with
    arg0 := if addr = 0x0008 then w else s.arg0
    arg1 := if addr = 0x000C then w else s.arg1
    arg2 := if addr = 0x0010 then w else s.arg2
    irqStatus := if addr = 0x002C then s.irqStatus &&& ~~~(w.setWidth 8) else s.irqStatus
    irqEnable := if addr = 0x0030 then w.setWidth 8 else s.irqEnable }

theorem exec_regWr {addr : BitVec 16} (w : Word) (s : State) (h : addr ≠ 0x0014) :
    exec (.regWr addr w) s = .next (s.writeReg addr w) := by
  change execRegWr addr w s = _
  unfold execRegWr
  split
  case h_4 hcmd => exact absurd (BitVec.eq_of_toNat_eq hcmd) h
  case h_7 harg0 harg1 harg2 _ hstatus henable =>
    rw [imp_false] at harg0 harg1 harg2 hstatus henable
    simp [State.writeReg, ← BitVec.toNat_inj, harg0, harg1, harg2, hstatus, henable]
  all_goals
    rename_i hreg
    simp [State.writeReg, ← BitVec.toNat_inj, hreg]

/-- An address that is none of the six writable registers' (R231). -/
theorem exec_regWr_ignored {addr : BitVec 16} (w : Word) (s : State)
    (h : addr ∉ [0x0008, 0x000C, 0x0010, 0x0014, 0x002C, 0x0030]) : exec (.regWr addr w) s = .next s := by
  simp only [List.mem_cons, List.not_mem_nil, or_false, not_or] at h
  obtain ⟨harg0, harg1, harg2, hcmd, hstatus, henable⟩ := h
  rw [exec_regWr w s hcmd, State.writeReg, if_neg harg0, if_neg harg1, if_neg harg2, if_neg hstatus, if_neg henable]

/-- A bit of `IRQ_STATUS` is cleared by writing it as 1 (R231). -/
theorem State.writeReg_irqStatus_bit (s : State) (addr : BitVec 16) (w : Word) {i : Nat} (hi : i < 8) :
    (s.writeReg addr w).irqStatus.getLsbD i =
      (s.irqStatus.getLsbD i && !(decide (addr = 0x002C) && w.getLsbD i)) := by
  unfold State.writeReg
  by_cases h : addr = 0x002C
  · simp only [if_pos h, decide_eq_true h, Bool.true_and]
    simp [hi]
  · simp only [if_neg h, decide_eq_false h, Bool.false_and, Bool.not_false, Bool.and_true]

/-- A bit of `IRQ_ENABLE` takes the one written (R231). -/
theorem State.writeReg_irqEnable_bit (s : State) (addr : BitVec 16) (w : Word) {i : Nat} (hi : i < 8) :
    (s.writeReg addr w).irqEnable.getLsbD i = if addr = 0x0030 then w.getLsbD i else s.irqEnable.getLsbD i := by
  unfold State.writeReg
  by_cases h : addr = 0x0030
  · simp only [if_pos h]
    simp [hi]
  · simp only [if_neg h]

/-! ### `RESULT` of `NOP` and `SOFT_RESET` -/

theorem State.finish_ok_word (s : State) : (s.finish .ok .none 0).result.word = 0x80000000 := by
  rw [State.finish_result]
  decide

end Sys2Proof.Machine
end

