-- ==== Sys2Proof/Proofs/HostAccess.lean ====
section
/-! The statements of spec/44_host_access.md. -/

namespace Sys2Proof.Machine

/-- Settles O44, by the range of the address: it is no case of `readGlobal` or `readWindow` or no channel's window, and
the six writable registers are aligned and below `0x0034`. -/
theorem reservedAddresses : Obligations.ReservedAddresses := by
  unfold Obligations.ReservedAddresses
  intro s addr w hreserved
  constructor
  · by_cases halign : addr.toNat % 4 = 0
    · by_cases hglobal : addr.toNat < 0x1000
      · rw [readReg_of_lt hglobal halign]
        exact readGlobal_of_ge s (by omega)
      · rw [readReg_of_ge (Nat.not_lt.1 hglobal) halign]
        split
        · exact readWindow_of_reserved _ (by omega)
        · rfl
    · exact readReg_of_misaligned halign
  · have hwritable : ∀ a ∈ ([0x0008, 0x000C, 0x0010, 0x0014, 0x002C, 0x0030] : List (BitVec 16)),
        a.toNat % 4 = 0 ∧ a.toNat < 0x34 := by simp
    refine exec_regWr_ignored w s fun hmem => ?_
    have := hwritable addr hmem
    omega

/-- Settles O9: `NOP` is `finish` alone. -/
theorem nopWritesOnlyResult : Obligations.NopWritesOnlyResult := by
  unfold Obligations.NopWritesOnlyResult
  intro s
  exact ⟨s.finish .ok .none 0, rfl, .of_finish s _ _ _, s.finish_ok_word⟩

/-- Settles O40: `clearBlock` gives every register and slot its reset value, and `finish` writes `RESULT` after it. -/
theorem softResetResult : Obligations.SoftResetResult := by
  unfold Obligations.SoftResetResult
  intro s
  refine ⟨s.clearBlock.finish .ok .none 0, rfl, State.finish_ok_word _, rfl, rfl, rfl, rfl, rfl, rfl, rfl, rfl,
    fun c => ?_, fun _ => rfl, ⟨rfl, rfl⟩, rfl, rfl, rfl, rfl⟩
  rw [State.finish_slot, State.clearBlock_slot]

/-- Settles O41: the read writes the latch `rdata` alone. -/
theorem registerReadHasNoSideEffect : Obligations.RegisterReadHasNoSideEffect := by
  unfold Obligations.RegisterReadHasNoSideEffect
  intro s addr
  exact ⟨{ s with rdata := some (readReg s addr) }, rfl, rfl, rfl⟩

/-- Settles O42: all that the write can do is in `State.writeReg`. -/
theorem registerWriteResult : Obligations.RegisterWriteResult := by
  unfold Obligations.RegisterWriteResult
  intro s addr w hcmd
  exact ⟨s.writeReg addr w, exec_regWr w s hcmd, rfl, rfl, rfl, fun _ => s.writeReg_irqStatus_bit addr w,
    fun _ => s.writeReg_irqEnable_bit addr w, rfl, rfl, rfl, rfl, fun _ => rfl, fun _ => rfl, ⟨rfl, rfl⟩, rfl, rfl,
    rfl, rfl⟩

end Sys2Proof.Machine
end

