-- ==== Sys2Proof/Proofs/PackedRegisters.lean ====
section
/-! SUPPORT. The packed registers (R26, R31, R42, R43, R45) as numbers, the sum of their fields each at its place; and
the fields of a word as digits of its number, so that a field is read off by division. -/

namespace Sys2Proof.Machine

/-! ### Fields as digits -/

theorem toNat_append_eq_add {h l : Nat} (x : BitVec h) (y : BitVec l) :
    (x ++ y).toNat = 2 ^ l * x.toNat + y.toNat := by
  rw [BitVec.toNat_append, ← Nat.shiftLeft_add_eq_or_of_lt y.isLt, Nat.shiftLeft_eq, Nat.mul_comm]

theorem extractLsb'_eq_iff {n m : Nat} (w : BitVec n) (start : Nat) (f : BitVec m) :
    w.extractLsb' start m = f ↔ w.toNat / 2 ^ start % 2 ^ m = f.toNat := by
  rw [← BitVec.toNat_inj, BitVec.extractLsb'_toNat, Nat.shiftRight_eq_div_pow]

theorem getLsbD_eq_iff {n : Nat} (w : BitVec n) (i : Nat) (b : Bool) :
    w.getLsbD i = b ↔ w.toNat / 2 ^ i % 2 = b.toNat := by
  rw [← BitVec.testBit_toNat, Nat.testBit_eq_decide_div_mod_eq]
  cases b <;> simp

@[simp] theorem toNat_flag (b : Bool) : (flag b).toNat = b.toNat := BitVec.toNat_ofBool b

/-- The mode field is the bit that says `DMA` (R94). -/
theorem Mode.toNat_num (m : Mode) : m.num.toNat = (decide (m = .dma)).toNat := by
  cases m <;> rfl

/-- Digit `i` of the number a list of digits stands for. -/
theorem ofDigits_div_pow_mod {b i : Nat} {l : List Nat} (hl : ∀ d ∈ l, d < b) (hi : i < l.length) :
    Nat.ofDigits b l / b ^ i % b = l[i] := by
  have hlt : l[i] < b := hl _ (List.getElem_mem hi)
  rw [Nat.ofDigits_div_pow_eq_ofDigits_drop i (Nat.zero_lt_of_lt hlt) l hl, List.drop_eq_getElem_cons hi,
    Nat.ofDigits_cons, Nat.add_mul_mod_self_left]
  exact Nat.mod_eq_of_lt hlt

/-! ### The registers as numbers -/

theorem CmdResult.word_toNat (r : CmdResult) : r.word.toNat =
    r.code.num.toNat + 2 ^ 8 * r.step.num.toNat + 2 ^ 16 * r.chan.toNat + 2 ^ 31 * r.valid.toNat := by
  refine (toNat_append_eq_add _ _).trans ?_
  simp only [toNat_append_eq_add, toNat_flag, BitVec.toNat_ofNat]
  omega

theorem Slot.statWord_toNat (k : Slot) : k.statWord.toNat =
    k.progress.num.toNat + 2 ^ 2 * k.inUse.toNat + 2 ^ 3 * (decide (k.mode = .dma)).toNat +
      2 ^ 4 * k.registered.toNat + 2 ^ 5 * k.receiving.toNat + 2 ^ 6 * k.ovf.toNat + 2 ^ 7 * k.desync.toNat +
      2 ^ 8 * k.heldValid.toNat + 2 ^ 9 * k.acqPending.toNat + 2 ^ 10 * k.ringOvr.toNat := by
  refine (toNat_append_eq_add _ _).trans ?_
  simp only [toNat_append_eq_add, toNat_flag, Mode.toNat_num, BitVec.toNat_ofNat]
  omega

theorem Slot.ptrWord_toNat (k : Slot) : k.ptrWord.toNat =
    k.ringB.toNat + 2 ^ 8 * k.lastReturned.toNat + 2 ^ 16 * k.fillIdx.toNat + 2 ^ 24 * k.heldIdx.toNat := by
  refine (toNat_append_eq_add _ _).trans ?_
  simp only [toNat_append_eq_add, BitVec.toNat_ofNat]
  omega

theorem Slot.acqWord_toNat (k : Slot) : k.acqWord.toNat =
    k.lastN.toNat + 2 ^ 8 * k.acqCode.num.toNat + 2 ^ 16 * k.acqDone.toNat := by
  refine (toNat_append_eq_add _ _).trans ?_
  simp only [toNat_append_eq_add, toNat_flag, BitVec.toNat_ofNat]
  omega

/-- The sixteen slot states as numbers, slot 0 first: the digits of `RING_SLOTS` to base 4. -/
def Slot.ringDigits (k : Slot) : List Nat := k.ring.toList.map fun st => st.num.toNat

theorem Slot.ringDigits_length (k : Slot) : k.ringDigits.length = 16 := by
  simp [Slot.ringDigits]

theorem Slot.ringDigits_lt (k : Slot) : ∀ d ∈ k.ringDigits, d < 4 := by
  unfold Slot.ringDigits
  intro d hd
  obtain ⟨st, -, rfl⟩ := List.mem_map.1 hd
  exact st.num.isLt

theorem Slot.ringDigits_getElem (k : Slot) {i : Nat} (hi : i < k.ringDigits.length) :
    k.ringDigits[i] = (k.ringAt i).num.toNat := by
  have h16 : i < 16 := k.ringDigits_length ▸ hi
  simp [Slot.ringDigits, Slot.ringAt, h16]

/-- Sixteen digits to base 4 fit the word, so the register keeps all of them. -/
theorem Slot.ringWord_toNat (k : Slot) : k.ringWord.toNat = Nat.ofDigits 4 k.ringDigits := by
  have hfits : Nat.ofDigits 4 k.ringDigits < 4 ^ k.ringDigits.length :=
    Nat.ofDigits_lt_base_pow_length (by decide) k.ringDigits_lt
  rw [k.ringDigits_length] at hfits
  have hfold : k.ringWord = BitVec.ofNat 32 (Nat.ofDigits 4 k.ringDigits) := by
    simp only [Slot.ringWord, Slot.ringDigits, Nat.ofDigits_eq_foldr, List.foldr_map, Nat.cast_id]
  rw [hfold, BitVec.toNat_ofNat]
  exact Nat.mod_eq_of_lt hfits

/-! ### The fields of each register -/

theorem CmdResult.word_fields (r : CmdResult) :
    r.word.extractLsb' 0 8 = r.code.num ∧ r.word.extractLsb' 8 4 = r.step.num ∧ r.word.extractLsb' 12 4 = 0 ∧
      r.word.extractLsb' 16 6 = r.chan ∧ r.word.extractLsb' 22 9 = 0 ∧ r.word.getLsbD 31 = r.valid := by
  have hvalid := r.valid.toNat_lt
  simp only [extractLsb'_eq_iff, getLsbD_eq_iff, r.word_toNat, BitVec.ofNat_eq_ofNat, BitVec.toNat_ofNat]
  omega

theorem Slot.statWord_fields (k : Slot) :
    k.statWord.extractLsb' 0 2 = k.progress.num ∧ k.statWord.getLsbD 2 = k.inUse ∧
      k.statWord.getLsbD 3 = decide (k.mode = .dma) ∧ k.statWord.getLsbD 4 = k.registered ∧
      k.statWord.getLsbD 5 = k.receiving ∧ k.statWord.getLsbD 6 = k.ovf ∧ k.statWord.getLsbD 7 = k.desync ∧
      k.statWord.getLsbD 8 = k.heldValid ∧ k.statWord.getLsbD 9 = k.acqPending ∧
      k.statWord.getLsbD 10 = k.ringOvr ∧ k.statWord.extractLsb' 11 21 = 0 := by
  have hinUse := k.inUse.toNat_lt
  have hdma := (decide (k.mode = .dma)).toNat_lt
  have hregistered := k.registered.toNat_lt
  have hreceiving := k.receiving.toNat_lt
  have hovf := k.ovf.toNat_lt
  have hdesync := k.desync.toNat_lt
  have hheldValid := k.heldValid.toNat_lt
  have hacqPending := k.acqPending.toNat_lt
  have hringOvr := k.ringOvr.toNat_lt
  simp only [extractLsb'_eq_iff, getLsbD_eq_iff, k.statWord_toNat, BitVec.ofNat_eq_ofNat, BitVec.toNat_ofNat]
  omega

theorem Slot.ptrWord_fields (k : Slot) :
    k.ptrWord.extractLsb' 0 5 = k.ringB ∧ k.ptrWord.extractLsb' 5 3 = 0 ∧
      k.ptrWord.extractLsb' 8 4 = k.lastReturned ∧ k.ptrWord.extractLsb' 12 4 = 0 ∧
      k.ptrWord.extractLsb' 16 4 = k.fillIdx ∧ k.ptrWord.extractLsb' 20 4 = 0 ∧
      k.ptrWord.extractLsb' 24 4 = k.heldIdx ∧ k.ptrWord.extractLsb' 28 4 = 0 := by
  simp only [extractLsb'_eq_iff, k.ptrWord_toNat, BitVec.ofNat_eq_ofNat, BitVec.toNat_ofNat]
  omega

theorem Slot.ringWord_field (k : Slot) {i : Nat} (hi : i < 16) :
    k.ringWord.extractLsb' (2 * i) 2 = (k.ringAt i).num := by
  have hlen : i < k.ringDigits.length := k.ringDigits_length.symm ▸ hi
  rw [extractLsb'_eq_iff, k.ringWord_toNat, Nat.pow_mul, ← k.ringDigits_getElem hlen]
  exact ofDigits_div_pow_mod k.ringDigits_lt hlen

theorem Slot.acqWord_fields (k : Slot) :
    k.acqWord.extractLsb' 0 5 = k.lastN ∧ k.acqWord.extractLsb' 5 3 = 0 ∧
      k.acqWord.extractLsb' 8 8 = k.acqCode.num ∧ k.acqWord.getLsbD 16 = k.acqDone ∧
      k.acqWord.extractLsb' 17 15 = 0 := by
  have hacqDone := k.acqDone.toNat_lt
  simp only [extractLsb'_eq_iff, getLsbD_eq_iff, k.acqWord_toNat, BitVec.ofNat_eq_ofNat, BitVec.toNat_ofNat]
  omega

end Sys2Proof.Machine
end

