-- ==== Sys2Proof/Proofs/Exceptions.lean ====
section
/-! The statements of spec/60_exceptions.md. -/

namespace Sys2Proof.Machine

/-- Settles O45: the tables are the defining equations of the numbers, and each register is the sum of its fields at
their places, from which a field is read off by division. -/
theorem packedRegisterFields : Obligations.PackedRegisterFields := by
  unfold Obligations.PackedRegisterFields
  exact ⟨⟨rfl, rfl, rfl, rfl, rfl, rfl, rfl⟩, fun r => r.word_fields,
    fun k => ⟨k.statWord_fields, k.ptrWord_fields, fun _ hi => k.ringWord_field hi, k.acqWord_fields⟩⟩

end Sys2Proof.Machine
end

