-- ==== Sys2Proof/Proofs/ResetAndHazards.lean ====
section
/-! The statements of spec/70_reset_and_hazards.md. -/

namespace Sys2Proof.Machine

/-- Settles O58: each of the ways a step can go on keeps the parameters, `SOFT_RESET` among them. -/
theorem parametersNeverChange : Obligations.ParametersNeverChange := by
  unfold Obligations.ParametersNeverChange
  exact fun _ _ hstep => step_keeps_params hstep

end Sys2Proof.Machine
end
